-- ==== Sys2Proof/Word.lean ====
section
/-! DEFINITION. The word types of DDRCAL (`00_scope.md` R10 `REG_W`, R12; `30_encoding.md` R80).

Every register of the Register Space and every working register typed u32 or s32 is 32 bits wide; the operation
word is 16 bits wide; a bit number of a 32-bit value lies in 0..31. -/

namespace Sys2Proof

/-- One byte of the byte view of the Register Space, and one byte of the console stream. -/
abbrev Byte := BitVec 8

/-- A 32-bit register value (u32, or s32 read as two's complement). -/
abbrev Word := BitVec 32

/-- A 32-bit physical byte address of the Register Space (R60). -/
abbrev Addr := BitVec 32

/-- A 16-bit operation word (R80). -/
abbrev OpWord := BitVec 16

/-- A bit number of a 32-bit value (R12): 31 is the most significant. -/
abbrev BitNo := Fin 32

end Sys2Proof
end

