-- ==== Sys2Proof/Config.lean ====
section
/-! DEFINITION. The parameters of DDRCAL: the configuration record `Cfg` of table T1 with the well-formedness
rule R9, the constants of table T2, the run-time inputs that the environment supplies (R11), and the free values
of the model.

`00_scope.md` R8: every address, bit position, field position and width is a named parameter, and no rule depends on
its numeric value. A model refuses a `Cfg` that is not well-formed (R9, `93_implementation_defined.md` I5, "the
model's guard at construction time"): here a `Cfg` is built only together with the proof of its check. -/

namespace Sys2Proof

/-! ## Table T1: the kinds of member -/

/-- A field triple (addr, lsb, w) of table T1. -/
structure FieldLoc where
  addr  : Addr
  lsb   : Nat
  width : Nat
deriving DecidableEq, Repr, Inhabited

/-- R9 (d) with the kind "field" of table T1: `1 ≤ w` and `lsb + w ≤ 32`. -/
def FieldLoc.fits (f : FieldLoc) : Bool := decide (1 ≤ f.width) && decide (f.lsb + f.width ≤ 32)

/-- R9 (e): two fields do not overlap, that is, they have different addresses or disjoint bit ranges. -/
abbrev FieldLoc.Disjoint (f g : FieldLoc) : Prop :=
  f.addr ≠ g.addr ∨ f.lsb + f.width ≤ g.lsb ∨ g.lsb + g.width ≤ f.lsb

/-- The 19 raw configuration fields, in the order of `10_state.md` table T4. -/
inductive RawField where
  | order | colw | roww | bankw | bgw | burstlen | rdlat | rd2pch | pch2valid | act2rdwr | rd2wr | act2act
  | rd2rdDd | rd2wrDd | wr2rdDd | bwratio | bwratioext | faw | iowidth
deriving DecidableEq, Repr, Inhabited

/-- One value for each raw field of table T4: the locations `RAW[f]` of `Cfg`, or the latches `RAW.f` of table T7. -/
structure RawTable (α : Type) where
  order      : α
  colw       : α
  roww       : α
  bankw      : α
  bgw        : α
  burstlen   : α
  rdlat      : α
  rd2pch     : α
  pch2valid  : α
  act2rdwr   : α
  rd2wr      : α
  act2act    : α
  rd2rdDd    : α
  rd2wrDd    : α
  wr2rdDd    : α
  bwratio    : α
  bwratioext : α
  faw        : α
  iowidth    : α
deriving DecidableEq, Repr, Inhabited

/-- The entries of a raw-field table in the order of table T4. -/
def RawTable.toList {α : Type} (t : RawTable α) : List α :=
  [t.order, t.colw, t.roww, t.bankw, t.bgw, t.burstlen, t.rdlat, t.rd2pch, t.pch2valid, t.act2rdwr, t.rd2wr,
   t.act2act, t.rd2rdDd, t.rd2wrDd, t.wr2rdDd, t.bwratio, t.bwratioext, t.faw, t.iowidth]

/-- One value for each scheduler output field, in the order of `10_state.md` table T5. -/
structure OutTable (α : Type) where
  ddrconf    : α
  rd2miss    : α
  wr2miss    : α
  act2act    : α
  busrd2rd   : α
  busrd2wr   : α
  buswr2rd   : α
  bwratio    : α
  bwratioext : α
  faw        : α
  fawbank    : α
deriving DecidableEq, Repr, Inhabited

/-- The entries of an output-field table in the order of table T5. -/
def OutTable.toList {α : Type} (t : OutTable α) : List α :=
  [t.ddrconf, t.rd2miss, t.wr2miss, t.act2act, t.busrd2rd, t.busrd2wr, t.buswr2rd, t.bwratio, t.bwratioext, t.faw,
   t.fawbank]

/-- A geometry key (order, bank, col, row) of naturals; bank is the sum of the bank and bank-group widths (R87). -/
structure GeomKey where
  order : Nat
  bank  : Nat
  col   : Nat
  row   : Nat
deriving DecidableEq, Repr, Inhabited

/-- The name of a firewall region, as the bytes of the key of the board configuration's lookup. No rule depends on
its spelling (`93_implementation_defined.md` G4). -/
abbrev RegionName := List Byte

/-- One Firewall Region Entry (R34): name, configuration register, enable register, enable bit. -/
structure FwEntry where
  name  : RegionName
  aCfg  : Addr
  aEn   : Addr
  enBit : BitNo
deriving DecidableEq, Repr, Inhabited

/-- The two values `SIZE_W` may take. -/
inductive SizeWidth where
  | w32
  | w64
deriving DecidableEq, Repr, Inhabited

/-- The width in bits that a `SIZE_W` stands for. -/
def SizeWidth.bits : SizeWidth → Nat
  | .w32 => 32
  | .w64 => 64

/-- The members of the configuration record `Cfg`, in the order of table T1, not yet checked. -/
structure CfgData where
  aC2s            : Addr
  aS2c            : Addr
  aGpout          : Addr
  aGpin           : Addr
  doneBit         : BitNo
  reqackBit       : BitNo
  rstovrBit       : BitNo
  calreqBit       : BitNo
  calrdyBit       : BitNo
  aSiliconid      : Addr
  erratumId       : Word
  aCalstat        : Addr
  calstatBit      : BitNo
  raw             : RawTable FieldLoc
  out             : OutTable FieldLoc
  geomTable       : List (GeomKey × Word)
  sizeW           : SizeWidth
  defaultDramSize : Int
  aFwen0          : Addr
  aFwen1          : Addr
  fwTable         : List FwEntry
  fwStartMask     : Word
  fwEndShift      : BitNo
  aIntstat        : Addr
  sbeBit          : BitNo
  dbeBit          : BitNo
  aSbeAddr        : Addr
  aDbeAddr        : Addr
  aSbeCnt         : Addr
  aEccctrl        : Addr
  cntrstBit       : BitNo
  aErrinten       : Addr
  eccIntenMask    : Word
  cntW            : Nat
deriving DecidableEq, Repr, Inhabited

namespace CfgData

/-- The handshake set (R18). -/
def handshakeAddrs (c : CfgData) : List Addr := [c.aC2s, c.aS2c, c.aGpout, c.aGpin]

/-- Every addr of `Cfg` outside the handshake set. -/
def otherAddrs (c : CfgData) : List Addr :=
  [c.aSiliconid, c.aCalstat] ++ c.raw.toList.map FieldLoc.addr ++ c.out.toList.map FieldLoc.addr ++
  [c.aFwen0, c.aFwen1] ++ c.fwTable.map FwEntry.aCfg ++ c.fwTable.map FwEntry.aEn ++
  [c.aIntstat, c.aSbeAddr, c.aDbeAddr, c.aSbeCnt, c.aEccctrl, c.aErrinten]

/-! ## R9: the clauses of well-formedness -/

/-- R9 (a): every addr is a multiple of 4 (below 2^32 by its type). -/
def clauseA (c : CfgData) : Bool := (c.handshakeAddrs ++ c.otherAddrs).all (fun a => a.toNat % 4 == 0)
/-- R9 (b): the four handshake addresses are pairwise distinct. -/
def clauseB (c : CfgData) : Bool := decide c.handshakeAddrs.Nodup
/-- R9 (c): RSTOVR and CALREQ are different bits of GPOUT. -/
def clauseC (c : CfgData) : Bool := decide (c.rstovrBit ≠ c.calreqBit)
/-- R9 (d): every field lies inside its register. -/
def clauseD (c : CfgData) : Bool := (c.raw.toList ++ c.out.toList).all FieldLoc.fits
/-- R9 (e): no two output fields overlap. -/
def clauseE (c : CfgData) : Bool := decide (c.out.toList.Pairwise FieldLoc.Disjoint)
/-- R9 (f), first part, with the kind "i = 0..23" of table T1: 24 entries, each enabled in FWEN0 or FWEN1. -/
def clauseF1 (c : CfgData) : Bool :=
  c.fwTable.length == 24 && c.fwTable.all (fun e => e.aEn == c.aFwen0 || e.aEn == c.aFwen1)
/-- R9 (f), second part: the (enable register, enable bit) pairs are pairwise distinct. -/
def clauseF2 (c : CfgData) : Bool := decide (c.fwTable.map (fun e => (e.aEn, e.enBit))).Nodup
/-- R9 (f), third part: the configuration addresses are pairwise distinct and are neither FWEN0 nor FWEN1. -/
def clauseF3 (c : CfgData) : Bool :=
  decide (c.fwTable.map FwEntry.aCfg).Nodup &&
  c.fwTable.all (fun e => e.aCfg != c.aFwen0 && e.aCfg != c.aFwen1)
/-- R9 (g): the two interrupt flags are different bits. -/
def clauseG (c : CfgData) : Bool := decide (c.sbeBit ≠ c.dbeBit)
/-- R9 (h): no handshake address equals another addr of the record. -/
def clauseH (c : CfgData) : Bool := c.handshakeAddrs.all (fun a => !c.otherAddrs.contains a)
/-- R9 (i): the geometry table holds ((0, 3, 10, 12), 1), and every index in it is at least 1. -/
def clauseI (c : CfgData) : Bool :=
  c.geomTable.contains (⟨0, 3, 10, 12⟩, 1) && c.geomTable.all (fun p => p.2 != 0)
/-- R9 (j): the start field and the end field of a region word are disjoint. -/
def clauseJ (c : CfgData) : Bool := decide (c.fwStartMask.toNat < 2 ^ c.fwEndShift.val)
/-- Table T1: `CNT_W` is at least 1. -/
def clauseCntW (c : CfgData) : Bool := decide (1 ≤ c.cntW)

/-- R9: the record is well-formed. -/
def wellFormed (c : CfgData) : Bool :=
  c.clauseA && c.clauseB && c.clauseC && c.clauseD && c.clauseE && c.clauseF1 && c.clauseF2 && c.clauseF3 &&
  c.clauseG && c.clauseH && c.clauseI && c.clauseJ && c.clauseCntW

/-- Entry `i` of the example binding's firewall table (`95_test_vectors.md` section 1). -/
def ex1Fw (i : Nat) : FwEntry where
  name  := [0x66, 0x77] ++ (if i < 10 then [BitVec.ofNat 8 (0x30 + i)]
            else [BitVec.ofNat 8 (0x30 + i / 10), BitVec.ofNat 8 (0x30 + i % 10)])
  aCfg  := if i < 12 then BitVec.ofNat 32 (0x6010 + 4 * i) else BitVec.ofNat 32 (0x7010 + 4 * (i - 12))
  aEn   := if i < 12 then 0x6000 else 0x7000
  enBit := if i < 12 then Fin.ofNat 32 i else Fin.ofNat 32 (i - 12)

/-- The example binding `EX1` of `95_test_vectors.md`: one well-formed `Cfg` among many, whose numbers are not
silicon values. It shows that the type `Cfg` is inhabited, and the tests use it; no definition of the machine does. -/
def ex1 : CfgData where
  aC2s := 0x1000
  aS2c := 0x1004
  aGpout := 0x1008
  aGpin := 0x100C
  doneBit := 3
  reqackBit := 2
  rstovrBit := 31
  calreqBit := 30
  calrdyBit := 31
  aSiliconid := 0x2000
  erratumId := 1
  aCalstat := 0x3000
  calstatBit := 0
  raw :=
    { order := ⟨0x4000, 0, 2⟩, colw := ⟨0x4004, 0, 5⟩, roww := ⟨0x4004, 5, 5⟩, bankw := ⟨0x4004, 10, 4⟩
      bgw := ⟨0x4004, 14, 2⟩, burstlen := ⟨0x4008, 0, 5⟩, rdlat := ⟨0x4008, 5, 6⟩, rd2pch := ⟨0x400C, 0, 6⟩
      pch2valid := ⟨0x400C, 6, 6⟩, act2rdwr := ⟨0x400C, 12, 6⟩, rd2wr := ⟨0x400C, 18, 6⟩
      act2act := ⟨0x400C, 24, 6⟩, rd2rdDd := ⟨0x4010, 0, 3⟩, rd2wrDd := ⟨0x4010, 3, 3⟩
      wr2rdDd := ⟨0x4010, 6, 3⟩, bwratio := ⟨0x4010, 9, 1⟩, bwratioext := ⟨0x4010, 10, 1⟩
      faw := ⟨0x4014, 0, 6⟩, iowidth := ⟨0x4018, 0, 2⟩ }
  out :=
    { ddrconf := ⟨0x5000, 0, 5⟩, rd2miss := ⟨0x5004, 6, 6⟩, wr2miss := ⟨0x5004, 12, 6⟩
      act2act := ⟨0x5004, 0, 6⟩, busrd2rd := ⟨0x5008, 0, 3⟩, busrd2wr := ⟨0x5008, 3, 3⟩
      buswr2rd := ⟨0x5008, 6, 3⟩, bwratio := ⟨0x500C, 0, 1⟩, bwratioext := ⟨0x5010, 0, 1⟩
      faw := ⟨0x5014, 0, 6⟩, fawbank := ⟨0x5014, 16, 1⟩ }
  geomTable := [(⟨0, 3, 10, 12⟩, 1), (⟨0, 3, 10, 15⟩, 2), (⟨1, 4, 10, 16⟩, 3)]
  sizeW := .w32
  defaultDramSize := 0x40000000
  aFwen0 := 0x6000
  aFwen1 := 0x7000
  fwTable := (List.range 24).map ex1Fw
  fwStartMask := 0x0000FFFF
  fwEndShift := 16
  aIntstat := 0x8000
  sbeBit := 0
  dbeBit := 1
  aSbeAddr := 0x8004
  aDbeAddr := 0x8008
  aSbeCnt := 0x800C
  aEccctrl := 0x8010
  cntrstBit := 1
  aErrinten := 0x8014
  eccIntenMask := 3
  cntW := 32

end CfgData

/-- A well-formed configuration record: the only kind the machine takes (R9). The default values show the type
inhabited and are used by nothing else. -/
structure Cfg where
  data : CfgData := CfgData.ex1
  wf   : data.wellFormed = true := by decide
deriving DecidableEq, Repr, Inhabited

/-! ## Run-time inputs (R11) -/

/-- The board configuration (R201). In the third shape the lookup is an association list from a region's name to
the values found for it; a value that is not exactly two elements counts as absent. -/
inductive BoardCfg where
  | noNode
  | noChild
  | regions (entries : List (RegionName × List Word))
deriving DecidableEq, Repr, Inhabited

/-- One move of the environment agents (R16, R68): what they do between two bus transactions of DDRCAL or between two
operations. `pokes` are the values they try to give registers (what an agent has no right to is dropped, see
`Machine/Env.lean`); the levels are those of the inputs `START`, `ecc_irq` and `rst` (R248); `board` is a new board
configuration, taken only while `rst` is 1, since `BoardCfg` is constant during a boot (R201). -/
structure EnvMove where
  pokes  : List (Addr × Word)
  start  : Bool
  eccIrq : Bool
  rst    : Bool
  board  : Option BoardCfg
deriving DecidableEq, Repr, Inhabited

namespace Config

/-! ## Free values: nothing in the model knows what they are -/

/-- The configuration record of the machine at `State.reset` (R8: OPEN, "a model takes the record `Cfg` as an
argument"). Log entry 1. -/
opaque cfg : Cfg

/-- The board configuration of the boot that starts at `State.reset` (R201). Log entry 2. -/
opaque board : BoardCfg

/-- What byte address `a` of the Register Space holds after power-on (R27, I1: any value). Log entry 3. -/
opaque powerOnByte : Nat → Byte

/-- The move the environment makes at its `n`-th opportunity once its written-down moves are used up (R68, I3: any
value, redrawn at every bus transaction). Log entry 4. -/
opaque envMove : Nat → EnvMove

/-- What `SIZE_OUT` receives in place of a platform default that is no signed number of `SIZE_W` bits, before it is read as one:
a free value for each width and default. The specification stores the default (R183) in a register of `SIZE_W` bits (table T7)
and does not say what becomes of one that does not fit. Log entry 17. -/
opaque unfitDefault : Nat → Int → Int

/-! ## Table T2: constants of the source -/

/-- `POLL_QUANTUM_US`. -/
def pollQuantumUs : Nat := 100
/-- `HS_SETTLE_MS`. -/
def hsSettleMs : Nat := 500
/-- `HS_T6_US`. -/
def hsT6Us : Nat := 1000000
/-- `HS_T8_US`. -/
def hsT8Us : Nat := 2000000
/-- `HS_T10_US`. -/
def hsT10Us : Nat := 2000000
/-- `HS_T12_US`. -/
def hsT12Us : Nat := 1000
/-- `HS_T14_US`. -/
def hsT14Us : Nat := 200000
/-- `HS_FINAL_MS`. -/
def hsFinalMs : Nat := 100
/-- `MAX_ATTEMPTS`. -/
def maxAttempts : Nat := 3
/-- `MAX_STATUS_POLLS`. -/
def maxStatusPolls : Nat := 10
/-- `STATUS_POLL_DELAY_MS`. -/
def statusPollDelayMs : Nat := 500
/-- `FAW_BANK_COUNT`. -/
def fawBankCount : Word := 1
/-- `WR_RECOVERY_TERM`. -/
def wrRecoveryTerm : Word := 15
/-- `N_FW`. -/
def nFw : Nat := 24
/-- `ENV_NAME`. -/
def envName : String := "sdram_ecc_sbe"

end Config

end Sys2Proof
end

