-- ==== Sys2Proof/Syntax.lean ====
section
/-! DEFINITION. The operations of DDRCAL: one constructor per row of table T11 (`30_encoding.md` R82).

An operation word carries no register address, bit number, timeout or data value (R84); the only operand in a word is
`arg` of `FW_REGION` and `PRINT`. The operands of a class U operation are on the operand ports of the register access
unit (`Machine/State.lean`, `AccessUnit`). -/

namespace Sys2Proof

/-- The operations of table T11, in its order. -/
inductive Instr where
  -- family 0: register access primitives
  | rdreg | wrreg | setbit | clrbit | pollbit | delay
  -- family 1: handshake steps
  | hs1 | hs2 | hs3 | hs4 | hs5 | hs6 | hs7 | hs8 | hs9 | hs10 | hs11 | hs12 | hs13 | hs14
  -- family 2: retry controller and boot flow
  | rcGate | rcAttempt | rcHsfail | rcStatpoll | rcRetry | rcFinish | bootReport
  -- family 3: timing configurator
  | tcLoad | tcGeom | tcRd2miss | tcWr2miss | tcAct2act | tcBusrd2rd | tcBusrd2wr | tcBuswr2rd | tcBwratio
  | tcBwratioext | tcFaw | tcFawbank | tcSize
  -- family 4: firewall configurator
  | fwDeny | fwCheck
  /-- `FW_REGION e`: `e` is the entry index, 0..23 when well-formed. -/
  | fwRegion (e : BitVec 8)
  | fwReport
  -- family 5: ECC interrupt handler
  | eccEntry | eccSbe | eccDbe | eccClear | eccExit
  -- family 7: system operations
  | idle | arm | steady | halt
  /-- `PRINT m`: `m` is the message id, 0..7 when well-formed. -/
  | print (m : BitVec 8)
  | setenv | wdkick
deriving DecidableEq, Repr, Inhabited

/-- The two classes of operation (R15): class U, unit commands that other operations invoke, and class S, the values
`SEQ.op` takes. -/
inductive OpClass where
  | unitCommand
  | sequencerState
deriving DecidableEq, Repr, Inhabited

/-- The class of an operation, the column "class" of table T11. -/
def Instr.opClass : Instr → OpClass
  | .rdreg | .wrreg | .setbit | .clrbit | .pollbit | .delay => .unitCommand
  | .print _ | .setenv | .wdkick => .unitCommand
  | .hs1 | .hs2 | .hs3 | .hs4 | .hs5 | .hs6 | .hs7 | .hs8 | .hs9 | .hs10 | .hs11 | .hs12 | .hs13 | .hs14 =>
    .sequencerState
  | .rcGate | .rcAttempt | .rcHsfail | .rcStatpoll | .rcRetry | .rcFinish | .bootReport => .sequencerState
  | .tcLoad | .tcGeom | .tcRd2miss | .tcWr2miss | .tcAct2act | .tcBusrd2rd | .tcBusrd2wr | .tcBuswr2rd | .tcBwratio
  | .tcBwratioext | .tcFaw | .tcFawbank | .tcSize => .sequencerState
  | .fwDeny | .fwCheck | .fwRegion _ | .fwReport => .sequencerState
  | .eccEntry | .eccSbe | .eccDbe | .eccClear | .eccExit => .sequencerState
  | .idle | .arm | .steady | .halt => .sequencerState

end Sys2Proof
end

