-- ==== Sys2Proof/WellFormed.lean ====
section
/-! DEFINITION. Which operations and which configuration records are well-formed.

Operations: `FW_REGION` takes an entry index up to 23 and `PRINT` a message id up to 7 (`30_encoding.md` R82, R85).
Configuration records: `00_scope.md` R9, clause by clause in `Config.lean`; `CfgData.check` is the refusal that R9 asks
a model for. -/

namespace Sys2Proof

/-- The operand check of table T11. -/
def Instr.wellFormed : Instr → Bool
  | .fwRegion e => decide (e.toNat < 24)
  | .print m => decide (m.toNat < 8)
  | _ => true

/-- R9: the configuration record with its proof, or nothing where the record is not well-formed ("a model refuses a
`Cfg` that is not well-formed"). -/
def CfgData.check (d : CfgData) : Option Cfg :=
  if h : d.wellFormed = true then some { data := d, wf := h } else none

end Sys2Proof
end

