-- ==== Sys2Proof/Decode.lean ====
section
/-! DEFINITION. The decoder and the encoder of the 16-bit operation word (`30_encoding.md` R80 to R82, R85, R95).

`W[15:13]` is the family, `W[12:8]` the index within it, `W[7:0]` the argument. A word that matches no row of
table T11 is reserved, and the decoder says which field makes it so. -/

namespace Sys2Proof

/-- Why a word is reserved (R85). -/
inductive Reserved where
  /-- Family 6. -/
  | family
  /-- An index that the family does not define. -/
  | index
  /-- An `arg` that the operation does not take: non-zero where it takes none, above 23 in `FW_REGION`, above 7 in
  `PRINT`. -/
  | argument
deriving DecidableEq, Repr, Inhabited

/-- `W[15:13]` (R80). -/
def OpWord.fam (w : OpWord) : Nat := w.toNat / 8192
/-- `W[12:8]` (R80). -/
def OpWord.idx (w : OpWord) : Nat := w.toNat / 256 % 32
/-- `W[7:0]` (R80). -/
def OpWord.arg (w : OpWord) : BitVec 8 := BitVec.ofNat 8 w.toNat

/-- Family 0 of table T11. -/
def decodeFam0 : Nat → Option Instr
  | 0 => some .rdreg
  | 1 => some .wrreg
  | 2 => some .setbit
  | 3 => some .clrbit
  | 4 => some .pollbit
  | 5 => some .delay
  | _ => none

/-- Family 1 of table T11; there is no index 0. -/
def decodeFam1 : Nat → Option Instr
  | 1 => some .hs1
  | 2 => some .hs2
  | 3 => some .hs3
  | 4 => some .hs4
  | 5 => some .hs5
  | 6 => some .hs6
  | 7 => some .hs7
  | 8 => some .hs8
  | 9 => some .hs9
  | 10 => some .hs10
  | 11 => some .hs11
  | 12 => some .hs12
  | 13 => some .hs13
  | 14 => some .hs14
  | _ => none

/-- Family 2 of table T11. -/
def decodeFam2 : Nat → Option Instr
  | 0 => some .rcGate
  | 1 => some .rcAttempt
  | 2 => some .rcHsfail
  | 3 => some .rcStatpoll
  | 4 => some .rcRetry
  | 5 => some .rcFinish
  | 6 => some .bootReport
  | _ => none

/-- Family 3 of table T11. -/
def decodeFam3 : Nat → Option Instr
  | 0 => some .tcLoad
  | 1 => some .tcGeom
  | 2 => some .tcRd2miss
  | 3 => some .tcWr2miss
  | 4 => some .tcAct2act
  | 5 => some .tcBusrd2rd
  | 6 => some .tcBusrd2wr
  | 7 => some .tcBuswr2rd
  | 8 => some .tcBwratio
  | 9 => some .tcBwratioext
  | 10 => some .tcFaw
  | 11 => some .tcFawbank
  | 12 => some .tcSize
  | _ => none

/-- Family 4 of table T11; index 2 takes the argument. -/
def decodeFam4 (arg : BitVec 8) : Nat → Option Instr
  | 0 => some .fwDeny
  | 1 => some .fwCheck
  | 2 => some (.fwRegion arg)
  | 3 => some .fwReport
  | _ => none

/-- Family 5 of table T11. -/
def decodeFam5 : Nat → Option Instr
  | 0 => some .eccEntry
  | 1 => some .eccSbe
  | 2 => some .eccDbe
  | 3 => some .eccClear
  | 4 => some .eccExit
  | _ => none

/-- Family 7 of table T11; index 4 takes the argument. -/
def decodeFam7 (arg : BitVec 8) : Nat → Option Instr
  | 0 => some .idle
  | 1 => some .arm
  | 2 => some .steady
  | 3 => some .halt
  | 4 => some (.print arg)
  | 5 => some .setenv
  | 6 => some .wdkick
  | _ => none

/-- The row of table T11 that a family and index name, before the argument is checked. -/
def decodeRow (fam idx : Nat) (arg : BitVec 8) : Except Reserved Instr :=
  let row : Option Instr :=
    match fam with
    | 0 => decodeFam0 idx
    | 1 => decodeFam1 idx
    | 2 => decodeFam2 idx
    | 3 => decodeFam3 idx
    | 4 => decodeFam4 arg idx
    | 5 => decodeFam5 idx
    | 7 => decodeFam7 arg idx
    | _ => none
  match row with
  | some i => .ok i
  | none => .error (if fam = 6 then .family else .index)

/-- Does the operation take the argument of its word? -/
def Instr.takesArg : Instr → Bool
  | .fwRegion _ | .print _ => true
  | _ => false

/-- The decoder of R82 and R85: total on 16-bit words, reserved words rejected by name. -/
def decode (w : OpWord) : Except Reserved Instr :=
  match decodeRow (OpWord.fam w) (OpWord.idx w) (OpWord.arg w) with
  | .error r => .error r
  | .ok i =>
    if i.takesArg then (if i.wellFormed then .ok i else .error .argument)
    else if OpWord.arg w = 0 then .ok i else .error .argument

/-- The family, index and argument of an operation, the columns of table T11. -/
def Instr.fields : Instr → Nat × Nat × BitVec 8
  | .rdreg => (0, 0, 0)
  | .wrreg => (0, 1, 0)
  | .setbit => (0, 2, 0)
  | .clrbit => (0, 3, 0)
  | .pollbit => (0, 4, 0)
  | .delay => (0, 5, 0)
  | .hs1 => (1, 1, 0)
  | .hs2 => (1, 2, 0)
  | .hs3 => (1, 3, 0)
  | .hs4 => (1, 4, 0)
  | .hs5 => (1, 5, 0)
  | .hs6 => (1, 6, 0)
  | .hs7 => (1, 7, 0)
  | .hs8 => (1, 8, 0)
  | .hs9 => (1, 9, 0)
  | .hs10 => (1, 10, 0)
  | .hs11 => (1, 11, 0)
  | .hs12 => (1, 12, 0)
  | .hs13 => (1, 13, 0)
  | .hs14 => (1, 14, 0)
  | .rcGate => (2, 0, 0)
  | .rcAttempt => (2, 1, 0)
  | .rcHsfail => (2, 2, 0)
  | .rcStatpoll => (2, 3, 0)
  | .rcRetry => (2, 4, 0)
  | .rcFinish => (2, 5, 0)
  | .bootReport => (2, 6, 0)
  | .tcLoad => (3, 0, 0)
  | .tcGeom => (3, 1, 0)
  | .tcRd2miss => (3, 2, 0)
  | .tcWr2miss => (3, 3, 0)
  | .tcAct2act => (3, 4, 0)
  | .tcBusrd2rd => (3, 5, 0)
  | .tcBusrd2wr => (3, 6, 0)
  | .tcBuswr2rd => (3, 7, 0)
  | .tcBwratio => (3, 8, 0)
  | .tcBwratioext => (3, 9, 0)
  | .tcFaw => (3, 10, 0)
  | .tcFawbank => (3, 11, 0)
  | .tcSize => (3, 12, 0)
  | .fwDeny => (4, 0, 0)
  | .fwCheck => (4, 1, 0)
  | .fwRegion e => (4, 2, e)
  | .fwReport => (4, 3, 0)
  | .eccEntry => (5, 0, 0)
  | .eccSbe => (5, 1, 0)
  | .eccDbe => (5, 2, 0)
  | .eccClear => (5, 3, 0)
  | .eccExit => (5, 4, 0)
  | .idle => (7, 0, 0)
  | .arm => (7, 1, 0)
  | .steady => (7, 2, 0)
  | .halt => (7, 3, 0)
  | .print m => (7, 4, m)
  | .setenv => (7, 5, 0)
  | .wdkick => (7, 6, 0)

/-- The operation word, `fam << 13 | idx << 8 | arg` (R80). -/
def encode (i : Instr) : OpWord :=
  BitVec.ofNat 16 (i.fields.1 * 8192 + i.fields.2.1 * 256 + i.fields.2.2.toNat)

/-- What the decoder reads from an operation whose `nbits` bits are `w`. The format has one 16-bit word (R95); it stands
in a register and not in memory, so no byte order enters. -/
def decodeTableWord (nbits w : Nat) : Option Instr :=
  match decode (BitVec.ofNat 16 (w % 2 ^ nbits)) with
  | .ok i => some i
  | .error _ => none

end Sys2Proof
end

