-- ==== Sys2Proof/Machine/State.lean ====
section
/-! DEFINITION. The state of DDRCAL as plain data, and its value at reset.

`10_state.md`: the working registers of table T7, the sequencer registers (R23, R24), the flags of table T8, the hidden
counters (R38), the Register Space (table T3), the outputs (R39) and the event history (R40). Beside them stand what
R11 calls run-time inputs and what R8 calls parameters, held as fields that no operation writes, and the operand ports
of the register access unit (R84). -/

namespace Sys2Proof.Machine

/-- There is no fault. R265: "There is no bus error, no alignment fault, no illegal-operation trap, no arithmetic trap
and no access fault from the firewall". Every error condition of R265 is a next state. -/
inductive Fault where
deriving DecidableEq, Repr

/-- Why a step has no meaning. Each is safe: the machine stops where the specification gives no effect. -/
inductive Refusal where
  /-- An operation that has no meaning in the model yet. Raised by no arm of `exec`. Safe. -/
  | notModelled (mnemonic : String)
  /-- `SEQ.op` or the command port holds a reserved word (R85, `93_implementation_defined.md` I4: "refuse").
  Raised by `State.fetch`. Safe. -/
  | reservedWord (w : OpWord)
  /-- `SEQ.op` holds the word of a class U operation (R85, I4: "refuse"). Raised by `State.fetch`. Safe. -/
  | unitCommandInSeqOp (w : OpWord)
  /-- The command port of the register access unit holds the word of a class S operation: the unit executes class U
  operations only (R100). Raised by `State.fetch`. Safe. -/
  | sequencerStateOnCommandPort (w : OpWord)
  /-- `FW_REGION` with an entry index above 23 or `PRINT` with a message id above 7, which no word encodes (R85).
  Raised by `execFwRegion` and `execPrint`. Safe. -/
  | reservedArgument
  /-- A class U command whose `addr` port is not a multiple of 4: "No meaning can be given to an access the source never
  makes" (R63, D32). Raised by the class U operations of family 0. Safe. -/
  | misalignedAddress (a : Addr)
deriving DecidableEq, Repr

/-! ## The Register Space -/

/-- What an address of the Register Space that nothing is listed for reads as. `unspecified` is the machine's own: an
arbitrary byte for each address (R27, R292, I1). `filled b` is a platform that has filled the space with `b`; it exists so
that a run on fixed contents can be evaluated. Log entry 3. -/
inductive PowerOn where
  | unspecified
  | filled (b : Byte)
deriving DecidableEq, Repr, Inhabited

/-- The Register Space as a byte view (R60, R61): the listed bytes, and what an unlisted address reads as. -/
structure Memory where
  powerOn : PowerOn
  cells   : List Host.Cell
deriving DecidableEq, Repr, Inhabited

/-! ## The environment -/

/-- What the environment does when its written-down moves are used up. -/
inductive EnvRest where
  /-- Anything: the moves of `Config.envMove`, of which nothing is known (R68, I3). The machine's own. -/
  | free
  /-- Nothing: no poke, `START`, `ecc_irq` and `rst` low. For tests. -/
  | quiet
  /-- The reference partners of R77 and the reference ECCHW of R266. For tests; not normative. -/
  | reference
deriving DecidableEq, Repr, Inhabited

/-- The environment agents (R16, R68): the moves they will make, one at each opportunity, then `rest`; `tick` counts the
opportunities that have passed. -/
structure Environment where
  moves : List EnvMove
  rest  : EnvRest
  tick  : Nat
deriving DecidableEq, Repr, Inhabited

/-- The levels of the inputs `START`, `ecc_irq` and `rst` (R248). -/
structure Inputs where
  start  : Bool
  eccIrq : Bool
  rst    : Bool
deriving DecidableEq, Repr, Inhabited

/-! ## The block's registers -/

/-- `SEQ.ctx` (R24): MAIN is 0, IRQ is 1. -/
inductive Ctx where
  | main
  | irq
deriving DecidableEq, Repr, Inhabited

/-- The three execution contexts (R273). -/
inductive Context where
  | main
  | irq
  | halted
deriving DecidableEq, Repr, Inhabited

/-- The values of `HALT_CAUSE` (tables T7 and T14): 0 none, 1 `CAL_EXHAUST`, 2 `ECC_DBE`. -/
inductive HaltCause where
  | none
  | calExhaust
  | eccDbe
deriving DecidableEq, Repr, Inhabited

/-- The sequencer registers, the working registers of table T7 and the flags of table T8. The two flags
`ISTAT[SBE_BIT]` and `ISTAT[DBE_BIT]` of table T8 are bits of `istat` (`Machine/Flags.lean`). -/
structure Regs where
  /-- `SEQ.op` (R23). -/
  seqOp      : OpWord
  /-- `SEQ.ctx` (R24). -/
  ctx        : Ctx
  /-- `ATT`: handshake attempts finished, 2 bits. -/
  att        : BitVec 2
  /-- `PJ`: status polls done in the current attempt, 4 bits. -/
  pj         : BitVec 4
  /-- `HSRC`, s32. -/
  hsrc       : Word
  /-- `RCRC`, s32. -/
  rcrc       : Word
  /-- `RAW.f`, 19 registers of 32 bits. -/
  raw        : RawTable Word
  /-- `GEOMIDX`. -/
  geomidx    : Word
  /-- `DER.RD2MISS`. -/
  derRd2miss : Word
  /-- `DER.WR2MISS`. -/
  derWr2miss : Word
  /-- `SIZE`, a signed value of `SIZE_W` bits. -/
  size       : Int
  /-- `SIZE_OUT`. -/
  sizeOut    : Int
  /-- `FWRC`, s32. -/
  fwrc       : Word
  /-- `ISTAT`. -/
  istat      : Word
  /-- `CNT`, an unsigned value of `CNT_W` bits. -/
  cnt        : Nat
  /-- `SBE_ADDR_L`. -/
  sbeAddrL   : Word
  /-- `DBE_ADDR_L`. -/
  dbeAddrL   : Word
  /-- `DBE_CNT_L`, an unsigned value of `CNT_W` bits. -/
  dbeCntL    : Nat
  /-- `HALT_CAUSE`. -/
  haltCause  : HaltCause
  /-- `CALOK`. -/
  calok      : Bool
  /-- `ARMED`. -/
  armed      : Bool
  /-- `INSVC`. -/
  insvc      : Bool
  /-- `HALTED`. -/
  halted     : Bool
deriving DecidableEq, Repr, Inhabited

/-- The register access unit (R84, R100): its command port, its operand ports, its two results and the hidden iteration
counters of R38. `cmd` holds the word of a class U operation that an invoker outside the sequencer's own operations has put
on the port. -/
structure AccessUnit where
  cmd       : Option OpWord
  addr      : Addr
  data      : Word
  bit       : BitNo
  expected  : Bool
  timeoutUs : Word
  ms        : Word
  parg      : Word
  rdata     : Word
  ok        : Bool
  /-- The iteration counter of a running `POLLBIT` (R38). -/
  pollIter  : Nat
  /-- The millisecond counter of a running `DELAY` (R38). -/
  delayIter : Nat
deriving DecidableEq, Repr, Inhabited

/-! ## Outputs and history -/

/-- The events of `TRACE` (R40). -/
inductive Event where
  | busRead (a : Addr) (v : Word)
  | busWrite (a : Addr) (v : Word)
  | kick
  | wait (us : Nat)
  | print (bytes : List Byte)
  | setEnv (v : Nat)
  | halt (cause : HaltCause)
  | irqEnter
  | irqReturn
deriving DecidableEq, Repr, Inhabited

/-- The outputs of R39 and the event history of R40. `history` holds `TRACE` with the newest event first. -/
structure Outputs where
  /-- `CONSOLE`. -/
  console : List Byte
  /-- `ENV`, the value of the variable `Config.envName` (R98: a number). -/
  envVar  : Option Nat
  history : List Event
deriving DecidableEq, Repr, Inhabited

/-- The state of the machine. -/
structure State where
  /-- The configuration record (R8); no operation writes it. -/
  cfg   : Cfg
  /-- The board configuration of this boot (R201); no operation writes it. -/
  board : BoardCfg
  regs  : Regs
  unit  : AccessUnit
  space : Memory
  env   : Environment
  inp   : Inputs
  out   : Outputs
deriving DecidableEq, Repr, Inhabited

/-! ## Reset (R291) -/

/-- Working registers and flags at reset: `SEQ.op` is the word of `IDLE`, the context is MAIN, all else is 0. -/
def Regs.reset : Regs where
  seqOp := 0xE000
  ctx := .main
  att := 0
  pj := 0
  hsrc := 0
  rcrc := 0
  raw := { order := 0, colw := 0, roww := 0, bankw := 0, bgw := 0, burstlen := 0, rdlat := 0, rd2pch := 0
           pch2valid := 0, act2rdwr := 0, rd2wr := 0, act2act := 0, rd2rdDd := 0, rd2wrDd := 0, wr2rdDd := 0
           bwratio := 0, bwratioext := 0, faw := 0, iowidth := 0 }
  geomidx := 0
  derRd2miss := 0
  derWr2miss := 0
  size := 0
  sizeOut := 0
  fwrc := 0
  istat := 0
  cnt := 0
  sbeAddrL := 0
  dbeAddrL := 0
  dbeCntL := 0
  haltCause := .none
  calok := false
  armed := false
  insvc := false
  halted := false

/-- The register access unit at reset: no command, the counters 0 (R291), the ports 0 (log entry 6). -/
def AccessUnit.reset : AccessUnit where
  cmd := none
  addr := 0
  data := 0
  bit := 0
  expected := false
  timeoutUs := 0
  ms := 0
  parg := 0
  rdata := 0
  ok := false
  pollIter := 0
  delayIter := 0

/-- The outputs at reset: console empty, variable absent, history empty (R291). -/
def Outputs.reset : Outputs where
  console := []
  envVar := none
  history := []

/-- The machine right after reset: the block as R291 says, the Register Space unspecified (R292), the parameters and the
environment free. -/
def State.reset : State where
  cfg := Config.cfg
  board := Config.board
  regs := Regs.reset
  unit := AccessUnit.reset
  space := { powerOn := .unspecified, cells := [] }
  env := { moves := [], rest := .free, tick := 0 }
  inp := { start := false, eccIrq := false, rst := false }
  out := Outputs.reset

/-! ## Views -/

/-- The members of the configuration record. -/
abbrev State.c (s : State) : CfgData := s.cfg.data

/-- The boot environment as PLATFORM sees it (R39, R245): empty, or the one variable `ENV_NAME` (table T2) with its value. -/
def State.bootEnv (s : State) : List (String × Nat) := (s.out.envVar.map (fun v => (Config.envName, v))).toList

/-- `TRACE` of R40, the oldest event first. -/
def State.trace (s : State) : List Event := s.out.history.reverse

end Sys2Proof.Machine
end

