-- ==== Sys2Proof/Machine/Operands.lean ====
section
/-! DEFINITION. Operand forms and value computations: single bits, field extraction and insertion (`30_encoding.md`
R96), the raw-field latches, the geometry lookup (R186, R87), the derived timing values (R173, R174), the DRAM size
(R183), the firewall lookup and region word (R201, R88), and which addresses a register of table T3 has. -/

namespace Sys2Proof.Machine

/-! ## Bits and fields -/

/-- `v[i]` (R12). -/
def bit (v : Word) (i : BitNo) : Bool := v.getLsbD i.val

/-- `1 << i` on 32 bits. -/
def bitMask (i : BitNo) : Word := 1#32 <<< i.val

/-- `v | (1 << i)` (R103). -/
def withBitSet (v : Word) (i : BitNo) : Word := v ||| bitMask i

/-- `v & ~(1 << i)` (R104). -/
def withBitClear (v : Word) (i : BitNo) : Word := v &&& ~~~(bitMask i)

/-- Bit `i` of `v` made `b`. -/
def withBit (v : Word) (i : BitNo) (b : Bool) : Word := if b then withBitSet v i else withBitClear v i

/-- `mask(w) = 2^w - 1` (R12), on 32 bits. -/
def maskWord (w : Nat) : Word := BitVec.ofNat 32 (2 ^ w - 1)

/-- `extract(F, r) = (r >> lsb) & mask(w)` (R96). -/
def extract (f : FieldLoc) (r : Word) : Word := (r >>> f.lsb) &&& maskWord f.width

/-- `insert(F, r, v) = (r & ~(mask(w) << lsb)) | ((v & mask(w)) << lsb)` (R96). -/
def insertField (f : FieldLoc) (r v : Word) : Word :=
  (r &&& ~~~(maskWord f.width <<< f.lsb)) ||| ((v &&& maskWord f.width) <<< f.lsb)

/-- An address is a multiple of 4 (R63). -/
def aligned (a : Addr) : Bool := a.toNat % 4 == 0

/-! ## Raw fields (table T4) -/

/-- The raw fields in the order `TC_LOAD` reads them (R171). -/
def rawFieldOrder : List RawField :=
  [.order, .colw, .roww, .bankw, .bgw, .burstlen, .rdlat, .rd2pch, .pch2valid, .act2rdwr, .rd2wr, .act2act,
   .rd2rdDd, .rd2wrDd, .wr2rdDd, .bwratio, .bwratioext, .faw, .iowidth]

/-- The entry of field `f`. -/
def rawGet {α : Type} (t : RawTable α) : RawField → α
  | .order => t.order
  | .colw => t.colw
  | .roww => t.roww
  | .bankw => t.bankw
  | .bgw => t.bgw
  | .burstlen => t.burstlen
  | .rdlat => t.rdlat
  | .rd2pch => t.rd2pch
  | .pch2valid => t.pch2valid
  | .act2rdwr => t.act2rdwr
  | .rd2wr => t.rd2wr
  | .act2act => t.act2act
  | .rd2rdDd => t.rd2rdDd
  | .rd2wrDd => t.rd2wrDd
  | .wr2rdDd => t.wr2rdDd
  | .bwratio => t.bwratio
  | .bwratioext => t.bwratioext
  | .faw => t.faw
  | .iowidth => t.iowidth

/-- The table with the entry of field `f` replaced. -/
def rawSet {α : Type} (t : RawTable α) (f : RawField) (v : α) : RawTable α :=
  match f with
  | .order => { t with order := v }
  | .colw => { t with colw := v }
  | .roww => { t with roww := v }
  | .bankw => { t with bankw := v }
  | .bgw => { t with bgw := v }
  | .burstlen => { t with burstlen := v }
  | .rdlat => { t with rdlat := v }
  | .rd2pch => { t with rd2pch := v }
  | .pch2valid => { t with pch2valid := v }
  | .act2rdwr => { t with act2rdwr := v }
  | .rd2wr => { t with rd2wr := v }
  | .act2act => { t with act2act := v }
  | .rd2rdDd => { t with rd2rdDd := v }
  | .rd2wrDd => { t with rd2wrDd := v }
  | .wr2rdDd => { t with wr2rdDd := v }
  | .bwratio => { t with bwratio := v }
  | .bwratioext => { t with bwratioext := v }
  | .faw => { t with faw := v }
  | .iowidth => { t with iowidth := v }

/-! ## Timing configurator values -/

/-- The geometry key of the latched fields (R172): naturals, the bank component a sum without wrap. -/
def geomKey (r : RawTable Word) : GeomKey where
  order := r.order.toNat
  bank := r.bankw.toNat + r.bgw.toNat
  col := r.colw.toNat
  row := r.roww.toNat

/-- R186: the index of the first pair with the key, in table order; 0 if there is none. -/
def geomLookup (k : GeomKey) : List (GeomKey × Word) → Word
  | [] => 0
  | p :: rest => if p.1 = k then p.2 else geomLookup k rest

/-- R173: `readToPrecharge + prechargeToValid + activateToReadWrite - (burstLength / 4)`, modulo 2^32. -/
def rd2missValue (r : RawTable Word) : Word := r.rd2pch + r.pch2valid + r.act2rdwr - (r.burstlen >>> 2)

/-- R174: the halved bracket `(readLatency + 2 + 15 + burstLength / 2) / 2`. -/
def wr2missHalf (r : RawTable Word) : Word :=
  (r.rdlat + 2 + Config.wrRecoveryTerm + (r.burstlen >>> 1)) >>> 1

/-- R174: `h - readToWrite + activateToReadWrite + prechargeToValid`, modulo 2^32. -/
def wr2missValue (r : RawTable Word) : Word := wr2missHalf r - r.rd2wr + r.act2rdwr + r.pch2valid

/-- The exponent of R183, on unbounded naturals. -/
def sizeExponent (r : RawTable Word) : Nat :=
  r.colw.toNat + r.roww.toNat + r.bankw.toNat + r.bgw.toNat + r.iowidth.toNat + 1

/-- `trunc_W(2^e)` (R183): 0 for `e` at or above `W`. -/
def truncPow (W e : Nat) : Nat := if e < W then 2 ^ e else 0

/-- `sext_W(v)` for `v` below 2^W (R12): two's complement of `W` bits. -/
def sext (W v : Nat) : Int := if v < 2 ^ (W - 1) then (v : Int) else (v : Int) - (2 ^ W : Nat)

/-- `SIZE` of R183. -/
def sizeValue (W : Nat) (r : RawTable Word) : Int := sext W (truncPow W (sizeExponent r))

/-- `v` is a signed number of `W` bits (table T7). -/
def fitsSigned (W : Nat) (v : Int) : Bool := decide (-2 ^ (W - 1) ≤ v) && decide (v < 2 ^ (W - 1))

/-- `SIZE_OUT` of R183, a signed number of `W` bits: a non-positive size is replaced by the platform default. A default that is
no such number leaves an unstated one (log entry 17). -/
def sizeOutValue (W : Nat) (dflt size : Int) : Int :=
  if size ≤ 0 then (if fitsSigned W dflt then dflt else Int.bmod (Config.unfitDefault W dflt) (2 ^ W)) else size

/-! ## Firewall values -/

/-- The lookup of a board configuration's value by name; the first entry with the name counts (log entry 14). -/
def boardFind (name : RegionName) : List (RegionName × List Word) → Option (List Word)
  | [] => none
  | p :: rest => if p.1 = name then some p.2 else boardFind name rest

/-- R201: the (start, end) pair of a region name. A value that is not exactly two elements is treated as absent. Without
a `Regions` configuration every name is absent (log entry 13). -/
def boardLookup (b : BoardCfg) (name : RegionName) : Option (Word × Word) :=
  match b with
  | .regions es =>
    match boardFind name es with
    | some [st, en] => some (st, en)
    | _ => none
  | _ => none

/-- R88: `(start & FW_START_MASK) | trunc_32(end << FW_END_SHIFT)`. -/
def fwWord (c : CfgData) (st en : Word) : Word := (st &&& c.fwStartMask) ||| (en <<< c.fwEndShift.val)

/-! ## Registers of table T3 -/

/-- The two flag positions of INTSTAT, `(1 << SBE_BIT) | (1 << DBE_BIT)` (R89). -/
def intFlagMask (c : CfgData) : Word := bitMask c.sbeBit ||| bitMask c.dbeBit

/-- A register with flags that a write of 1 clears, holding `old` and written with `v`: each flag stays unless `v` has a one
there, and every other bit takes the value written (R28, R65, R76 (a), I2; log entry 24). -/
def w1cValue (flags old v : Word) : Word := (v &&& ~~~flags) ||| (old &&& flags &&& ~~~v)

/-- The registers whose owner may give them any value at any time (R68): S2C, CALSTAT and the raw configuration registers
(CTRL), GPIN (CALFSM), SBEADDR, DBEADDR and SBECNT (ECCHW). -/
def partnerAddrs (c : CfgData) : List Addr :=
  [c.aS2c, c.aCalstat] ++ c.raw.toList.map FieldLoc.addr ++ [c.aGpin, c.aSbeAddr, c.aDbeAddr, c.aSbeCnt]

/-- Every register that some environment agent may change while `rst` is 0 (R68): the partners' registers, INTSTAT (flags
set, other bits any) and ERRINTEN (bits set). -/
def envAddrs (c : CfgData) : List Addr := partnerAddrs c ++ [c.aIntstat, c.aErrinten]

end Sys2Proof.Machine
end

