-- ==== Sys2Proof/Machine/Flags.lean ====
section
/-! DEFINITION. The flags of DDRCAL (`10_state.md` R25, table T8), who sets and who clears each. There are no arithmetic
condition codes: "no operation sets a carry, zero, sign or overflow flag". The context that they and `SEQ.ctx` give (R273). -/

namespace Sys2Proof.Machine

/-- `ISTAT[SBE_BIT]`: the single-bit-error flag as latched at handler entry. -/
def State.istatSbe (s : State) : Bool := bit s.regs.istat s.c.sbeBit

/-- `ISTAT[DBE_BIT]`: the double-bit-error flag as latched at handler entry. -/
def State.istatDbe (s : State) : Bool := bit s.regs.istat s.c.dbeBit

/-- `CALOK` set (by `RC_STATPOLL`) or cleared (by `RC_GATE`). -/
def State.putCalok (s : State) (b : Bool) : State := { s with regs := { s.regs with calok := b } }

/-- `ARMED` set (by `ARM`); only reset clears it. -/
def State.setArmed (s : State) : State := { s with regs := { s.regs with armed := true } }

/-- `INSVC` set (by handler entry) or cleared (by `ECC_EXIT`). -/
def State.putInsvc (s : State) (b : Bool) : State := { s with regs := { s.regs with insvc := b } }

/-- `HALTED` set with its cause (by `Halt`); only reset clears it. -/
def State.setHalted (s : State) (cause : HaltCause) : State :=
  { s with regs := { s.regs with halted := true, haltCause := cause } }

/-- `HALT_CAUSE` as the two bits of table T14. -/
def HaltCause.code : HaltCause → BitVec 2
  | .none => 0
  | .calExhaust => 1
  | .eccDbe => 2

/-- The context of a state (R273): HALTED while `HALTED` is 1, whatever `SEQ.ctx` holds; otherwise what `SEQ.ctx` says. -/
def State.context (s : State) : Context :=
  if s.regs.halted then .halted
  else match s.regs.ctx with
    | .main => .main
    | .irq => .irq

/-- The output `halt`, a level equal to `HALTED` (R39). -/
def State.haltOut (s : State) : Bool := s.regs.halted

end Sys2Proof.Machine
end

