-- ==== Sys2Proof/Machine/Memory.lean ====
section
/-! DEFINITION. The Register Space as data (`20_memory.md` R60 to R62): bytes in one canonical list, accessed as whole
32-bit registers, little-endian in the byte view (R61).

Canonical form: addresses strictly rising, all below 2^32, and no listed byte equal to what its address reads as when
unlisted. Equal contents are then equal data. -/

namespace Sys2Proof.Machine

/-- What byte address `a` reads as when it is not listed (R27, I1; log entry 3). -/
def Memory.fill (m : Memory) (a : Nat) : Byte :=
  match m.powerOn with
  | .unspecified => Config.powerOnByte a
  | .filled b => b

/-- The listed byte at `a`, if there is one. -/
def cellsGet (a : Nat) : List Host.Cell → Option Byte
  | [] => none
  | c :: rest => if c.1 = a then some c.2 else cellsGet a rest

/-- The list with the byte at `a` made `b`, where an unlisted `a` reads as `dflt`; keeps the list rising. -/
def cellsPut (dflt : Byte) (a : Nat) (b : Byte) : List Host.Cell → List Host.Cell
  | [] => if b = dflt then [] else [(a, b)]
  | c :: rest =>
    if a < c.1 then (if b = dflt then c :: rest else (a, b) :: c :: rest)
    else if a = c.1 then (if b = dflt then rest else (a, b) :: rest)
    else c :: cellsPut dflt a b rest

/-- The byte at address `a`. -/
def Memory.readByte (m : Memory) (a : Nat) : Byte :=
  match cellsGet a m.cells with
  | some b => b
  | none => m.fill a

/-- The space with the byte at address `a` made `b`. -/
def Memory.writeByte (m : Memory) (a : Nat) (b : Byte) : Memory :=
  { m with cells := cellsPut (m.fill a) a b m.cells }

/-- The byte address `addr + k` (R61). -/
def byteAddr (a : Addr) (k : Nat) : Nat := (a + BitVec.ofNat 32 k).toNat

/-- The register at `a`: byte `addr + k` holds bits 8k+7 down to 8k (R61). -/
def Memory.readWord (m : Memory) (a : Addr) : Word :=
  m.readByte (byteAddr a 3) ++ m.readByte (byteAddr a 2) ++ m.readByte (byteAddr a 1) ++ m.readByte (byteAddr a 0)

/-- Bits 8k+7 down to 8k of a register value. -/
def byteOf (v : Word) (k : Nat) : Byte := v.extractLsb' (8 * k) 8

/-- All 32 bits of the register at `a` made `v` (R62, R64). -/
def Memory.writeWord (m : Memory) (a : Addr) (v : Word) : Memory :=
  (((m.writeByte (byteAddr a 0) (byteOf v 0)).writeByte (byteAddr a 1) (byteOf v 1)).writeByte
    (byteAddr a 2) (byteOf v 2)).writeByte (byteAddr a 3) (byteOf v 3)

/-- Addresses strictly rising from `lo` on. -/
def cellsRising (lo : Nat) : List Host.Cell → Bool
  | [] => true
  | c :: rest => decide (lo ≤ c.1) && cellsRising (c.1 + 1) rest

/-- The canonical form. -/
def Memory.wf (m : Memory) : Bool :=
  cellsRising 0 m.cells && m.cells.all (fun c => decide (c.1 < 2 ^ 32) && decide (c.2 ≠ m.fill c.1))

/-- The effect of a 32-bit write of the block on the Register Space: it stores the value, with the two exceptions of R65 and
R76. A write to INTSTAT clears the flags it has ones for and sets none (R76 (a)); the unlisted bits take the value written
(R28, R65, I2) although R102 says that the write "stores nothing else": DESIGN CHOICE, log entry 24. A write that takes
CNTRST of ECCCTRL from 0 to 1 makes SBECNT 0 (R76 (b); log entry 11). -/
def Memory.regWrite (c : CfgData) (m : Memory) (a : Addr) (v : Word) : Memory :=
  if a = c.aIntstat then m.writeWord a (w1cValue (intFlagMask c) (m.readWord a) v)
  else if a = c.aEccctrl ∧ bit (m.readWord a) c.cntrstBit = false ∧ bit v c.cntrstBit = true then
    (m.writeWord a v).writeWord c.aSbeCnt 0
  else m.writeWord a v

end Sys2Proof.Machine
end

