-- ==== Sys2Proof/Machine/Env.lean ====
section
/-! DEFINITION. The environment agents (`00_scope.md` R16; `20_memory.md` R67 to R69, R76, R77; `60_exceptions.md` R266)
and the reset input (`70_reset_and_hazards.md` R290).

R69: "environment steps may fall between any two of its transactions". The machine therefore gives the environment an
opportunity before every bus transaction and after every operation: `State.envPoint`. -/

namespace Sys2Proof.Machine

/-- What the environment may do to the register at an address (R68). -/
inductive EnvRight where
  /-- Nothing: HOST-owned registers, SILICONID after reset, and addresses outside table T3. -/
  | none
  /-- Any value. -/
  | any
  /-- INTSTAT: the two flags may be set and not cleared; the other bits may take any value. -/
  | setFlags
  /-- ERRINTEN: bits may be set. -/
  | setBits
deriving DecidableEq, Repr, Inhabited

/-- R68, by address. While `rst` is 1 the Register Space is PLATFORM's affair (R290, R292). Where two registers of the
record share an address the wider right counts (log entry 10). PLATFORM may set bits of ERRINTEN "while the block is not in
context IRQ", the context being that of R273: a block halted from the handler is in HALTED, although `SEQ.ctx` stays IRQ (R225);
DESIGN CHOICE, log entry 25. -/
def State.envRight (s : State) (a : Addr) : EnvRight :=
  if s.inp.rst then (if aligned a then .any else .none)
  else if (partnerAddrs s.c).contains a then .any
  else if a = s.c.aIntstat then .setFlags
  else if a = s.c.aErrinten then (if s.context = .irq then .none else .setBits)
  else .none

/-- The value that a register holding `old` takes when an agent with the right tries to give it `new`. -/
def envValue (c : CfgData) (old new : Word) : EnvRight → Word
  | .none => old
  | .any => new
  | .setFlags => new ||| (old &&& intFlagMask c)
  | .setBits => old ||| new

/-- One value that an environment agent tries to give one register. -/
def State.applyPoke (s : State) (p : Addr × Word) : State :=
  match s.envRight p.1 with
  | .none => s
  | r => { s with space := s.space.writeWord p.1 (envValue s.c (s.space.readWord p.1) p.2 r) }

/-- The move of an environment that does nothing. -/
def quietMove : EnvMove where
  pokes := []
  start := false
  eccIrq := false
  rst := false
  board := none

/-- The move of the reference partners of R77, answering at once (`95_test_vectors.md` section 1, REF: CALRDY is 1 while
CALREQ is 0, REQACK follows DONE), with CALDONE set once the handshake has returned 0 (R77 (f)), and of the reference ECCHW
of R266 (`ecc_irq` is 1 exactly while a flag of INTSTAT is 1 and a bit of `ECC_INTEN_MASK` in ERRINTEN is 1). -/
def State.referenceMove (s : State) : EnvMove where
  pokes :=
    [(s.c.aGpin, withBit (s.space.readWord s.c.aGpin) s.c.calrdyBit
        (!bit (s.space.readWord s.c.aGpout) s.c.calreqBit)),
     (s.c.aS2c, withBit (s.space.readWord s.c.aS2c) s.c.reqackBit (bit (s.space.readWord s.c.aC2s) s.c.doneBit))] ++
    (if s.regs.seqOp = encode .rcStatpoll then
      [(s.c.aCalstat, withBitSet (s.space.readWord s.c.aCalstat) s.c.calstatBit)] else [])
  start := false
  eccIrq := decide (s.space.readWord s.c.aIntstat &&& intFlagMask s.c ≠ 0) &&
    decide (s.space.readWord s.c.aErrinten &&& s.c.eccIntenMask ≠ 0)
  rst := false
  board := none

/-- The environment's next move: the next written-down one, then what `rest` says. -/
def State.nextMove (s : State) : EnvMove :=
  match s.env.moves with
  | m :: _ => m
  | [] =>
    match s.env.rest with
    | .free => Config.envMove s.env.tick
    | .quiet => quietMove
    | .reference => s.referenceMove

/-- The environment after it has made a move. -/
def Environment.advance (e : Environment) : Environment := { e with moves := e.moves.tail, tick := e.tick + 1 }

/-- One opportunity for the environment: it changes registers as far as R68 lets it, and the input levels are those it
drives. A rise of `rst` is kept until the block has been reset, so that an operation in progress is abandoned (R281). The
board configuration changes only under `rst` (R201). -/
def State.envPoint (s : State) : State :=
  let m := s.nextMove
  { m.pokes.foldl State.applyPoke s with
    env := s.env.advance
    inp := { start := m.start, eccIrq := m.eccIrq, rst := s.inp.rst || m.rst }
    board := if s.inp.rst then m.board.getD s.board else s.board }

/-- The reset of the block's own state (R291); parameters, Register Space, environment and input levels stay. -/
def State.blockReset (s : State) : State :=
  { s with regs := Regs.reset, unit := AccessUnit.reset, out := Outputs.reset }

/-- A step while `rst` is 1 (R290): the block is held in its reset state and makes no transaction; PLATFORM may do anything
to the Register Space and the board configuration; `rst` then takes the level the environment gives it. -/
def State.holdReset (s : State) : State :=
  let b := s.blockReset
  let t := b.envPoint
  { t with inp := { t.inp with rst := b.nextMove.rst } }

/-- The end of a step that ran an operation: an opportunity for the environment, and the reset of the block if `rst` rose
during the operation or at this point (R290: `rst` overrides everything). -/
def State.endStep (s : State) : State :=
  let t := s.envPoint
  if t.inp.rst then t.blockReset else t

end Sys2Proof.Machine
end

