-- ==== Sys2Proof/Machine/Messages.lean ====
section
/-! DEFINITION. The console messages of `30_encoding.md` R90, table T13, as byte sequences, and the two conversion
directives of R91 (the C convention; log entry 16). -/

namespace Sys2Proof.Machine

/-- ASCII text as bytes; the newline is the byte 0x0A (R90). -/
def ascii (cs : List Char) : List Byte := cs.map (fun ch => BitVec.ofNat 8 ch.toNat)

/-- The decimal digits of `n`, at most `fuel` of them, no padding. -/
def decDigits : Nat → Nat → List Byte
  | 0, _ => []
  | fuel + 1, n =>
    if n < 10 then [BitVec.ofNat 8 (0x30 + n)] else decDigits fuel (n / 10) ++ [BitVec.ofNat 8 (0x30 + n % 10)]

/-- `%d` (R91): the argument as s32 in decimal, a leading `-` for a negative value, no padding. -/
def fmtD (v : Word) : List Byte :=
  if v.msb then 0x2D :: decDigits 10 (2 ^ 32 - v.toNat) else decDigits 10 v.toNat

/-- One lower-case hexadecimal digit. -/
def hexDigit (n : Nat) : Byte := if n < 10 then BitVec.ofNat 8 (0x30 + n) else BitVec.ofNat 8 (0x61 + (n - 10))

/-- `%08x` (R91): the argument as u32 in hexadecimal, lower case, eight digits. -/
def fmt08x (v : Word) : List Byte :=
  [7, 6, 5, 4, 3, 2, 1, 0].map (fun k => hexDigit (v.toNat / 16 ^ k % 16))

/-- Message id 0, `"DDRCAL: Failure: %d\n"`, before the directive. -/
def msgFailure : List Byte :=
  ascii ['D', 'D', 'R', 'C', 'A', 'L', ':', ' ', 'F', 'a', 'i', 'l', 'u', 'r', 'e', ':', ' ']

/-- Message id 1, `"DDRCAL: Retry\n"`. -/
def msgRetry : List Byte := ascii ['D', 'D', 'R', 'C', 'A', 'L', ':', ' ', 'R', 'e', 't', 'r', 'y', '\n']

/-- Message id 2, `"Error: Could Not Calibrate SDRAM\n"`. -/
def msgCouldNot : List Byte :=
  ascii ['E', 'r', 'r', 'o', 'r', ':', ' ', 'C', 'o', 'u', 'l', 'd', ' ', 'N', 'o', 't', ' ', 'C', 'a', 'l', 'i',
    'b', 'r', 'a', 't', 'e', ' ', 'S', 'D', 'R', 'A', 'M', '\n']

/-- Message id 3, `"DDRCAL: Failed\n"`. -/
def msgFailed : List Byte := ascii ['D', 'D', 'R', 'C', 'A', 'L', ':', ' ', 'F', 'a', 'i', 'l', 'e', 'd', '\n']

/-- Message id 4, `"DDRCAL: Success\n"`. -/
def msgSuccess : List Byte := ascii ['D', 'D', 'R', 'C', 'A', 'L', ':', ' ', 'S', 'u', 'c', 'c', 'e', 's', 's', '\n']

/-- Message id 5, `"FW: Error Configuring Firewall\n"`. -/
def msgFirewall : List Byte :=
  ascii ['F', 'W', ':', ' ', 'E', 'r', 'r', 'o', 'r', ' ', 'C', 'o', 'n', 'f', 'i', 'g', 'u', 'r', 'i', 'n', 'g',
    ' ', 'F', 'i', 'r', 'e', 'w', 'a', 'l', 'l', '\n']

/-- Message id 6, `"Info: SDRAM ECC SBE @ 0x%08x\n"`, before the directive. -/
def msgSbe : List Byte :=
  ascii ['I', 'n', 'f', 'o', ':', ' ', 'S', 'D', 'R', 'A', 'M', ' ', 'E', 'C', 'C', ' ', 'S', 'B', 'E', ' ', '@',
    ' ', '0', 'x']

/-- Message id 7, `"Error: SDRAM ECC DBE occurred\n"`. -/
def msgDbe : List Byte :=
  ascii ['E', 'r', 'r', 'o', 'r', ':', ' ', 'S', 'D', 'R', 'A', 'M', ' ', 'E', 'C', 'C', ' ', 'D', 'B', 'E', ' ',
    'o', 'c', 'c', 'u', 'r', 'r', 'e', 'd', '\n']

/-- The bytes that `PRINT m` appends with operand `parg` (R244): the string of table T13 with its directive expanded.
Ids 0 and 6 use the operand. Ids above 7 are reserved and print nothing; `execPrint` refuses them. -/
def messageBytes (m : Nat) (parg : Word) : List Byte :=
  match m with
  | 0 => msgFailure ++ fmtD parg ++ [0x0A]
  | 1 => msgRetry
  | 2 => msgCouldNot
  | 3 => msgFailed
  | 4 => msgSuccess
  | 5 => msgFirewall
  | 6 => msgSbe ++ fmt08x parg ++ [0x0A]
  | 7 => msgDbe
  | _ => []

end Sys2Proof.Machine
end

