-- ==== Sys2Proof/Machine/Ops.lean ====
section
/-! DEFINITION. The named operations that every meaning is written over: bus transactions and the register access
primitives (`40_register_primitives.md`), events and services (`46_system_ops.md` R243 to R246), the sequencer's move, the
error conditions of `60_exceptions.md` R260 to R262, and the entry to and the return from the interrupt (R269, R270). -/

namespace Sys2Proof.Machine

/-! ## Events, services, the sequencer -/

/-- Append one event to `TRACE` (R40). -/
def State.emit (s : State) (e : Event) : State := { s with out := { s.out with history := e :: s.out.history } }

/-- `SEQ.op <- T` (R13). -/
def State.goto (s : State) (t : Instr) : State := { s with regs := { s.regs with seqOp := encode t } }

/-- `Wait(us)` (R300): time passes; no modelled effect but its event. -/
def State.wait (s : State) (us : Nat) : State := s.emit (.wait us)

/-- `WdKick()` (R246). -/
def State.wdKick (s : State) : State := s.emit .kick

/-- `Print(m, parg)` (R244). -/
def State.printMsg (s : State) (m : Nat) (parg : Word) : State :=
  { s with out := { s.out with console := s.out.console ++ messageBytes m parg } }.emit (.print (messageBytes m parg))

/-- `SetEnv(v)` (R245). -/
def State.setEnv (s : State) (v : Nat) : State := { s with out := { s.out with envVar := some v } }.emit (.setEnv v)

/-- `Halt(cause)` (R243). -/
def State.haltWith (s : State) (cause : HaltCause) : State := ((s.setHalted cause).emit (.halt cause)).goto .halt

/-! ## Bus transactions -/

/-- `MemRead(addr, 4)` with its event (R101): the environment may act first (R67, R69); the value is the register's at that
instant; no register changes by the read itself (R65). -/
def State.busRead (s : State) (a : Addr) : Word × State :=
  (s.envPoint.space.readWord a, s.envPoint.emit (.busRead a (s.envPoint.space.readWord a)))

/-- `MemWrite(addr, 4, v)` with its event (R102): the environment may act first; once `rst` has risen the block makes no
transaction (R290). -/
def State.busWrite (s : State) (a : Addr) (v : Word) : State :=
  if s.envPoint.inp.rst then s.envPoint
  else { s.envPoint with space := s.envPoint.space.regWrite s.c a v }.emit (.busWrite a v)

/-! ## Register access primitives (R103 to R108) -/

/-- `setBit(addr, bit)` (R103): one read, one write, not atomic; the port `rdata` is left alone (log entry 6). -/
def State.setBit (s : State) (a : Addr) (b : BitNo) : State := (s.busRead a).2.busWrite a (withBitSet (s.busRead a).1 b)

/-- `clearBit(addr, bit)` (R104): one read, one write, not atomic; the port `rdata` is left alone (log entry 6). -/
def State.clearBit (s : State) (a : Addr) (b : BitNo) : State :=
  (s.busRead a).2.busWrite a (withBitClear (s.busRead a).1 b)

/-- The field update `WRFIELD F, v` (R107). -/
def State.wrField (s : State) (f : FieldLoc) (v : Word) : State :=
  (s.busRead f.addr).2.busWrite f.addr (insertField f (s.busRead f.addr).1 v)

/-- `PULSE addr, bit` (R108). -/
def State.pulse (s : State) (a : Addr) (b : BitNo) : State := (s.setBit a b).clearBit a b

/-- `N = ceil(timeout_us / 100)` (R105). -/
def pollCount (timeoutUs : Nat) : Nat := (timeoutUs + (Config.pollQuantumUs - 1)) / Config.pollQuantumUs

/-- The start of one iteration of `POLLBIT`: count it, wait 100 microseconds, refresh the watchdog (R105, R38). -/
def State.pollTick (s : State) : State :=
  (State.wait { s with unit := { s.unit with pollIter := s.unit.pollIter + 1 } } Config.pollQuantumUs).wdKick

/-- The loop of R105 with `n` iterations left: the result and the state after it; the port `rdata` is left alone (log entry 6). -/
def State.pollLoop (a : Addr) (b : BitNo) (expected : Bool) : Nat → State → Bool × State
  | 0, s => (false, s)
  | n + 1, s =>
    if bit (s.pollTick.busRead a).1 b = expected then (true, (s.pollTick.busRead a).2)
    else State.pollLoop a b expected n (s.pollTick.busRead a).2

/-- The iteration counter is 0 between operations (R38). -/
def State.clearPollIter (s : State) : State := { s with unit := { s.unit with pollIter := 0 } }

/-- `pollBit(addr, bit, expected, timeoutMicros)` (R105). -/
def State.pollBit (s : State) (a : Addr) (b : BitNo) (expected : Bool) (timeoutUs : Nat) : Bool × State :=
  let r := State.pollLoop a b expected (pollCount timeoutUs) s
  (r.1, r.2.clearPollIter)

/-- One iteration of `DELAY`: count it, wait one millisecond, refresh the watchdog (R106, R38). -/
def State.delayTick (s : State) : State :=
  (State.wait { s with unit := { s.unit with delayIter := s.unit.delayIter + 1 } } 1000).wdKick

/-- `n` iterations of `DELAY`. -/
def State.delayLoop : Nat → State → State
  | 0, s => s
  | n + 1, s => State.delayLoop n s.delayTick

/-- `DELAY ms` (R106): no bus transaction; the millisecond counter is 0 afterwards (R38). -/
def State.delayMs (s : State) (ms : Nat) : State :=
  { State.delayLoop ms s with unit := { (State.delayLoop ms s).unit with delayIter := 0 } }

/-! ## Error conditions (R260 to R265) -/

/-- The handshake steps whose poll can time out. -/
inductive HsPoll where
  | step6
  | step8
  | step10
  | step12
  | step14
deriving DecidableEq, Repr, Inhabited

/-- The code −k of `HsTimeout(k)` (R260, table T14). -/
def HsPoll.code : HsPoll → Word
  | .step6 => 0xFFFFFFFF
  | .step8 => 0xFFFFFFFE
  | .step10 => 0xFFFFFFFD
  | .step12 => 0xFFFFFFFC
  | .step14 => 0xFFFFFFFB

/-- The step number recovered from a failure code (R83). -/
def stepOfCode (v : Word) : Option Nat :=
  if v = 0xFFFFFFFF then some 6
  else if v = 0xFFFFFFFE then some 8
  else if v = 0xFFFFFFFD then some 10
  else if v = 0xFFFFFFFC then some 12
  else if v = 0xFFFFFFFB then some 14
  else none

/-- The error conditions that an operation raises (R260 to R262). -/
inductive Condition where
  | hsTimeout (p : HsPoll)
  | calExhausted
  | fwNoNode
  | fwNoChild
deriving DecidableEq, Repr, Inhabited

/-- Raising an error condition: "a value in a working register plus a fixed successor of `SEQ.op`; nothing is thrown,
nothing unwinds" (R264). -/
def State.raise (s : State) : Condition → State
  | .hsTimeout p => State.goto { s with regs := { s.regs with hsrc := p.code } } .rcHsfail
  | .calExhausted =>
    State.goto { s.printMsg 2 0 with regs := { s.regs with rcrc := 0xFFFFFFFF } } .bootReport
  | .fwNoNode => State.goto { s with regs := { s.regs with fwrc := 2 } } .fwReport
  | .fwNoChild => State.goto { s with regs := { s.regs with fwrc := 1 } } .fwReport

/-! ## The interrupt (R266 to R271) -/

/-- R267: what must hold, with `SEQ.op` = `STEADY`, for the interrupt to be accepted. -/
def State.irqAcceptable (s : State) : Bool := s.inp.eccIrq && s.regs.armed && !s.regs.insvc && !s.regs.halted

/-- Entry to the interrupt handler (R269). Nothing is saved. -/
def State.irqEnter (s : State) : State :=
  let t := s.putInsvc true
  (State.goto { t with regs := { t.regs with ctx := .irq } } .eccEntry).emit .irqEnter

/-- Return from the interrupt handler (R270). Nothing is restored. -/
def State.irqReturn (s : State) : State :=
  let t := s.putInsvc false
  (State.goto { t with regs := { t.regs with ctx := .main } } .steady).emit .irqReturn

/-! ## Result ports of the register access unit (R84) -/

/-- `rdata` of the unit. -/
def State.putRdata (s : State) (v : Word) : State := { s with unit := { s.unit with rdata := v } }

/-- `ok` of the unit. -/
def State.putOk (s : State) (b : Bool) : State := { s with unit := { s.unit with ok := b } }

end Sys2Proof.Machine
end

