-- ==== Sys2Proof/Machine/Ecc.lean ====
section
/-! DEFINITION. Family 5: the ECC interrupt handler (`45_ecc_handler.md` R220 to R225). -/

namespace Sys2Proof.Machine

/-- `ECC_ENTRY` (R221): read the interrupt status once. -/
def execEccEntry (s : State) : Host.Outcome State Fault Refusal :=
  .next (State.goto
    { (s.busRead s.c.aIntstat).2 with
      regs := { (s.busRead s.c.aIntstat).2.regs with istat := (s.busRead s.c.aIntstat).1 } } .eccSbe)

/-- `CNT <- trunc_CNT_W(CNT + c)` (R222, R21). -/
def State.addCount (s : State) (n : Word) : State :=
  { s with regs := { s.regs with cnt := (s.regs.cnt + n.toNat) % 2 ^ s.c.cntW } }

/-- The first half of the single-bit path (R222): latch the fault address and print it. -/
def State.sbeAddress (s : State) : State :=
  let r := s.busRead s.c.aSbeAddr
  State.printMsg { r.2 with regs := { r.2.regs with sbeAddrL := r.1 } } 6 r.1

/-- The second half of the single-bit path (R222): add the hardware count and persist the counter. -/
def State.sbeCount (s : State) : State :=
  let t := (s.busRead s.c.aSbeCnt).2.addCount (s.busRead s.c.aSbeCnt).1
  t.setEnv t.regs.cnt

/-- `ECC_SBE` (R222): the single-bit-error path. -/
def execEccSbe (s : State) : Host.Outcome State Fault Refusal :=
  .next ((if s.istatSbe then s.sbeAddress.sbeCount else s).goto .eccDbe)

/-- The double-bit report (R223): message 7, then the fault address and the count on the status outputs. -/
def State.dbeReport (s : State) : State :=
  let r := (s.printMsg 7 0).busRead s.c.aDbeAddr
  { r.2 with regs := { r.2.regs with dbeAddrL := r.1, dbeCntL := r.2.regs.cnt } }

/-- `ECC_DBE` (R223): the double-bit-error report. -/
def execEccDbe (s : State) : Host.Outcome State Fault Refusal :=
  .next ((if s.istatDbe then s.dbeReport else s).goto .eccClear)

/-- `ECC_CLEAR` (R224): the status-clear sequence, on every invocation. -/
def execEccClear (s : State) : Host.Outcome State Fault Refusal :=
  .next (((s.pulse s.c.aEccctrl s.c.cntrstBit).busWrite s.c.aIntstat (intFlagMask s.c)).goto .eccExit)

/-- "disable all ECC interrupts" (R225): one read-modify-write that clears the bits of `ECC_INTEN_MASK`. -/
def State.disableEcc (s : State) : State :=
  (s.busRead s.c.aErrinten).2.busWrite s.c.aErrinten ((s.busRead s.c.aErrinten).1 &&& ~~~s.c.eccIntenMask)

/-- `ECC_EXIT` (R225): return, or disable and halt with cause 2. -/
def execEccExit (s : State) : Host.Outcome State Fault Refusal :=
  .next (if s.istatDbe then s.disableEcc.haltWith .eccDbe else s.irqReturn)

end Sys2Proof.Machine
end

