-- ==== Sys2Proof/Machine/Firewall.lean ====
section
/-! DEFINITION. Family 4: the firewall configurator (`44_firewall.md` R200 to R207). -/

namespace Sys2Proof.Machine

/-- `FW_DENY` (R202): both master-enable registers to zero, FWEN0 first. -/
def execFwDeny (s : State) : Host.Outcome State Fault Refusal :=
  .next (((s.busWrite s.c.aFwen0 0).busWrite s.c.aFwen1 0).goto .fwCheck)

/-- `FW_CHECK` (R203): is there a configuration to apply. -/
def execFwCheck (s : State) : Host.Outcome State Fault Refusal :=
  .next (match s.board with
    | .noNode => s.raise .fwNoNode
    | .noChild => s.raise .fwNoChild
    | .regions _ => State.goto { s with regs := { s.regs with fwrc := 0 } } (.fwRegion 0))

/-- Program the region of one table entry if the board configuration has it (R204): the region word first, then the
enable bit. -/
def State.programRegion (s : State) (e : FwEntry) : State :=
  match boardLookup s.board e.name with
  | none => s
  | some r => (s.busWrite e.aCfg (fwWord s.c r.1 r.2)).setBit e.aEn e.enBit

/-- The entry of the firewall table with index `e`, programmed. A well-formed `Cfg` has all 24 (R9). -/
def State.programEntry (s : State) (e : Nat) : State :=
  match s.c.fwTable[e]? with
  | none => s
  | some entry => s.programRegion entry

/-- The successor of `FW_REGION e` (R204). -/
def afterRegion (e : BitVec 8) : Instr := if e.toNat < 23 then .fwRegion (e + 1) else .fwReport

/-- `FW_REGION e` (R204). -/
def execFwRegion (e : BitVec 8) (s : State) : Host.Outcome State Fault Refusal :=
  if e.toNat < Config.nFw then .next ((s.programEntry e.toNat).goto (afterRegion e))
  else .refused .reservedArgument

/-- `FW_REPORT` (R205): log a non-zero status and go on. -/
def execFwReport (s : State) : Host.Outcome State Fault Refusal :=
  .next ((if s.regs.fwrc ≠ 0 then s.printMsg 5 0 else s).goto .arm)

end Sys2Proof.Machine
end

