-- ==== Sys2Proof/Machine/Handshake.lean ====
section
/-! DEFINITION. Family 1: the calibration handshake, one operation per step (`41_handshake.md` R120 to R134). -/

namespace Sys2Proof.Machine

/-- A handshake step that polls and, on a timeout, raises `HsTimeout` (R126, R128, R130, R132). -/
def State.hsPoll (s : State) (p : HsPoll) (a : Addr) (b : BitNo) (expected : Bool) (timeoutUs : Nat) (nxt : Instr) :
    State :=
  if (s.pollBit a b expected timeoutUs).1 then (s.pollBit a b expected timeoutUs).2.goto nxt
  else (s.pollBit a b expected timeoutUs).2.raise (.hsTimeout p)

/-- `HS1` (R121): the settle time. -/
def execHs1 (s : State) : Host.Outcome State Fault Refusal :=
  .next ((s.delayMs Config.hsSettleMs).goto .hs2)

/-- `HS2` (R122): RSTOVR to 0, the controller enters reset. -/
def execHs2 (s : State) : Host.Outcome State Fault Refusal :=
  .next ((s.clearBit s.c.aGpout s.c.rstovrBit).goto .hs3)

/-- `HS3` (R123): the outbound handshake register to zero; a plain write, no read. -/
def execHs3 (s : State) : Host.Outcome State Fault Refusal :=
  .next ((s.busWrite s.c.aC2s 0).goto .hs4)

/-- `HS4` (R124): CALREQ to 0. -/
def execHs4 (s : State) : Host.Outcome State Fault Refusal :=
  .next ((s.clearBit s.c.aGpout s.c.calreqBit).goto .hs5)

/-- `HS5` (R125): RSTOVR to 1, the controller exits reset. -/
def execHs5 (s : State) : Host.Outcome State Fault Refusal :=
  .next ((s.setBit s.c.aGpout s.c.rstovrBit).goto .hs6)

/-- `HS6` (R126): poll CALRDY for 1; code −1. -/
def execHs6 (s : State) : Host.Outcome State Fault Refusal :=
  .next (s.hsPoll .step6 s.c.aGpin s.c.calrdyBit true Config.hsT6Us .hs7)

/-- `HS7` (R127): DONE to 1. -/
def execHs7 (s : State) : Host.Outcome State Fault Refusal :=
  .next ((s.setBit s.c.aC2s s.c.doneBit).goto .hs8)

/-- `HS8` (R128): poll REQACK for 1; code −2. -/
def execHs8 (s : State) : Host.Outcome State Fault Refusal :=
  .next (s.hsPoll .step8 s.c.aS2c s.c.reqackBit true Config.hsT8Us .hs9)

/-- `HS9` (R129): DONE to 0. -/
def execHs9 (s : State) : Host.Outcome State Fault Refusal :=
  .next ((s.clearBit s.c.aC2s s.c.doneBit).goto .hs10)

/-- `HS10` (R130): poll REQACK for 0; code −3. -/
def execHs10 (s : State) : Host.Outcome State Fault Refusal :=
  .next (s.hsPoll .step10 s.c.aS2c s.c.reqackBit false Config.hsT10Us .hs11)

/-- `HS11` (R131): CALREQ to 1, the trigger. -/
def execHs11 (s : State) : Host.Outcome State Fault Refusal :=
  .next ((s.setBit s.c.aGpout s.c.calreqBit).goto .hs12)

/-- `HS12` (R132): poll CALRDY for 0; code −4. -/
def execHs12 (s : State) : Host.Outcome State Fault Refusal :=
  .next (s.hsPoll .step12 s.c.aGpin s.c.calrdyBit false Config.hsT12Us .hs13)

/-- `HS13` (R133): CALREQ to 0. -/
def execHs13 (s : State) : Host.Outcome State Fault Refusal :=
  .next ((s.clearBit s.c.aGpout s.c.calreqBit).goto .hs14)

/-- The end of a successful handshake (R134): DONE to 1, 100 ms, `HSRC` = 0. -/
def State.hsSucceed (s : State) : State :=
  let t := (s.setBit s.c.aC2s s.c.doneBit).delayMs Config.hsFinalMs
  State.goto { t with regs := { t.regs with hsrc := 0 } } .rcStatpoll

/-- `HS14` (R134): poll CALRDY for 1; code −5; on success DONE to 1 again and the final delay. -/
def execHs14 (s : State) : Host.Outcome State Fault Refusal :=
  .next (if (s.pollBit s.c.aGpin s.c.calrdyBit true Config.hsT14Us).1
    then (s.pollBit s.c.aGpin s.c.calrdyBit true Config.hsT14Us).2.hsSucceed
    else (s.pollBit s.c.aGpin s.c.calrdyBit true Config.hsT14Us).2.raise (.hsTimeout .step14))

end Sys2Proof.Machine
end

