-- ==== Sys2Proof/Machine/Primitives.lean ====
section
/-! DEFINITION. Family 0: the register access primitives as commands of the register access unit
(`40_register_primitives.md` R101 to R106). The operands are on the unit's ports (R84), the results go to `rdata` and
`ok`, and `SEQ.op` stays: the unit "returns control" to the current class S operation (R100). The operations of the
sequencer call the same shared operations of `Ops.lean` with their own operands. -/

namespace Sys2Proof.Machine

/-- An access of the unit at its `addr` port; refused where the address is not a multiple of 4 (R63). -/
def State.atPort (s : State) (f : State → State) : Host.Outcome State Fault Refusal :=
  if aligned s.unit.addr then .next (f s) else .refused (.misalignedAddress s.unit.addr)

/-- `RDREG` (R101). -/
def execRdreg (s : State) : Host.Outcome State Fault Refusal :=
  s.atPort (fun s => (s.busRead s.unit.addr).2.putRdata (s.busRead s.unit.addr).1)

/-- `WRREG` (R102). -/
def execWrreg (s : State) : Host.Outcome State Fault Refusal :=
  s.atPort (fun s => s.busWrite s.unit.addr s.unit.data)

/-- `SETBIT` (R103). -/
def execSetbit (s : State) : Host.Outcome State Fault Refusal :=
  s.atPort (fun s => s.setBit s.unit.addr s.unit.bit)

/-- `CLRBIT` (R104). -/
def execClrbit (s : State) : Host.Outcome State Fault Refusal :=
  s.atPort (fun s => s.clearBit s.unit.addr s.unit.bit)

/-- `POLLBIT` (R105). With `timeout_us` = 0 there is no access, so the address does not matter. -/
def execPollbit (s : State) : Host.Outcome State Fault Refusal :=
  if s.unit.timeoutUs = 0 then .next (s.putOk false)
  else s.atPort (fun s =>
    (s.pollBit s.unit.addr s.unit.bit s.unit.expected s.unit.timeoutUs.toNat).2.putOk
      (s.pollBit s.unit.addr s.unit.bit s.unit.expected s.unit.timeoutUs.toNat).1)

/-- `DELAY` (R106). -/
def execDelay (s : State) : Host.Outcome State Fault Refusal :=
  .next (s.delayMs s.unit.ms.toNat)

end Sys2Proof.Machine
end

