-- ==== Sys2Proof/Machine/Retry.lean ====
section
/-! DEFINITION. Family 2: the retry controller and the boot flow (`42_retry_controller.md` R150 to R157). -/

namespace Sys2Proof.Machine

/-- `ATT <- ATT + 1` on its two bits. -/
def State.nextAttempt (s : State) : State := { s with regs := { s.regs with att := s.regs.att + 1 } }

/-- What `RC_GATE` does with the silicon revision it has read (R151). -/
def State.gateOn (s : State) (v : Word) : State :=
  if v ≠ s.c.erratumId then State.goto { s with regs := { s.regs with rcrc := 0 } } .bootReport
  else (State.putCalok { s with regs := { s.regs with att := 0 } } false).goto .rcAttempt

/-- `RC_GATE` (R151): the silicon-revision gate. -/
def execRcGate (s : State) : Host.Outcome State Fault Refusal :=
  .next ((s.busRead s.c.aSiliconid).2.gateOn (s.busRead s.c.aSiliconid).1)

/-- `RC_ATTEMPT` (R152): the head of the retry loop. -/
def execRcAttempt (s : State) : Host.Outcome State Fault Refusal :=
  .next (if s.regs.att.toNat < Config.maxAttempts then State.goto { s with regs := { s.regs with pj := 0 } } .hs1
    else s.goto .rcFinish)

/-- `RC_HSFAIL` (R153): report the code, count the attempt. -/
def execRcHsfail (s : State) : Host.Outcome State Fault Refusal :=
  .next ((s.printMsg 0 s.regs.hsrc).nextAttempt.goto .rcAttempt)

/-- What `RC_STATPOLL` does with the status register it has read (R154). -/
def State.statpollOn (s : State) (v : Word) : State :=
  let t := { s with regs := { s.regs with pj := s.regs.pj + 1 } }
  if bit v s.c.calstatBit then (t.putCalok true).goto .rcFinish
  else if t.regs.pj.toNat = Config.maxStatusPolls then t.goto .rcRetry
  else t.goto .rcStatpoll

/-- `RC_STATPOLL` (R154): the delay, then one read of the status bit. -/
def execRcStatpoll (s : State) : Host.Outcome State Fault Refusal :=
  .next (((s.delayMs Config.statusPollDelayMs).busRead s.c.aCalstat).2.statpollOn
    ((s.delayMs Config.statusPollDelayMs).busRead s.c.aCalstat).1)

/-- `RC_RETRY` (R155): ten status polls without the bit. -/
def execRcRetry (s : State) : Host.Outcome State Fault Refusal :=
  .next ((s.printMsg 1 0).nextAttempt.goto .rcAttempt)

/-- `RC_FINISH` (R156): the result of the controller. -/
def execRcFinish (s : State) : Host.Outcome State Fault Refusal :=
  .next (if s.regs.calok then State.goto { s with regs := { s.regs with rcrc := 0 } } .bootReport
    else s.raise .calExhausted)

/-- `BOOT_REPORT` (R157): go on, or halt with cause 1. -/
def execBootReport (s : State) : Host.Outcome State Fault Refusal :=
  .next (if s.regs.rcrc = 0 then (s.printMsg 4 0).goto .tcLoad else (s.printMsg 3 0).haltWith .calExhaust)

end Sys2Proof.Machine
end

