-- ==== Sys2Proof/Machine/System.lean ====
section
/-! DEFINITION. Family 7: the system operations (`46_system_ops.md` R240 to R246). -/

namespace Sys2Proof.Machine

/-- `IDLE` (R240): wait for `START`. -/
def execIdle (s : State) : Host.Outcome State Fault Refusal :=
  .next (if s.inp.start then s.goto .rcGate else s.goto .idle)

/-- `ARM` (R241): arm the ECC handler; no bus transaction. -/
def execArm (s : State) : Host.Outcome State Fault Refusal :=
  .next (s.setArmed.goto .steady)

/-- `STEADY` (R242): accept the interrupt (R267, R269) or stay. -/
def execSteady (s : State) : Host.Outcome State Fault Refusal :=
  .next (if s.irqAcceptable then s.irqEnter else s.goto .steady)

/-- `HALT` (R243): absorbing; no event of any kind. -/
def execHalt (s : State) : Host.Outcome State Fault Refusal :=
  .next (s.goto .halt)

/-- `PRINT m` (R244), with the operand port `parg`. -/
def execPrint (m : BitVec 8) (s : State) : Host.Outcome State Fault Refusal :=
  if m.toNat < 8 then .next (s.printMsg m.toNat s.unit.parg) else .refused .reservedArgument

/-- `SETENV` (R245), with the operand port `data`. -/
def execSetenv (s : State) : Host.Outcome State Fault Refusal :=
  .next (s.setEnv s.unit.data.toNat)

/-- `WDKICK` (R246). -/
def execWdkick (s : State) : Host.Outcome State Fault Refusal :=
  .next s.wdKick

end Sys2Proof.Machine
end

