-- ==== Sys2Proof/Machine/Timing.lean ====
section
/-! DEFINITION. Family 3: the timing configurator and the DRAM size (`43_timing_configurator.md` R170 to R186). -/

namespace Sys2Proof.Machine

/-- One read of `TC_LOAD` (R171): the register of field `f` is read and the field latched. -/
def State.loadRaw (s : State) (f : RawField) : State :=
  let r := s.busRead (rawGet s.c.raw f).addr
  { r.2 with regs := { r.2.regs with raw := rawSet r.2.regs.raw f (extract (rawGet s.c.raw f) r.1) } }

/-- `TC_LOAD` (R171): 19 reads, one for each field, in the order of table T4. -/
def execTcLoad (s : State) : Host.Outcome State Fault Refusal :=
  .next ((rawFieldOrder.foldl State.loadRaw s).goto .tcGeom)

/-- `GEOMIDX <- idx`, and the field `O_DDRCONF` written unless the index is 0 (R172). -/
def State.applyGeom (s : State) (idx : Word) : State :=
  let t := { s with regs := { s.regs with geomidx := idx } }
  if idx ≠ 0 then t.wrField s.c.out.ddrconf idx else t

/-- `TC_GEOM` (R172): select the addressing configuration. -/
def execTcGeom (s : State) : Host.Outcome State Fault Refusal :=
  .next ((s.applyGeom (geomLookup (geomKey s.regs.raw) s.c.geomTable)).goto .tcRd2miss)

/-- `TC_RD2MISS` (R173): read-to-precharge-miss. -/
def execTcRd2miss (s : State) : Host.Outcome State Fault Refusal :=
  .next ((State.wrField { s with regs := { s.regs with derRd2miss := rd2missValue s.regs.raw } }
    s.c.out.rd2miss (rd2missValue s.regs.raw)).goto .tcWr2miss)

/-- `TC_WR2MISS` (R174): write-to-precharge-miss. -/
def execTcWr2miss (s : State) : Host.Outcome State Fault Refusal :=
  .next ((State.wrField { s with regs := { s.regs with derWr2miss := wr2missValue s.regs.raw } }
    s.c.out.wr2miss (wr2missValue s.regs.raw)).goto .tcAct2act)

/-- `TC_ACT2ACT` (R175): a copy (R185). -/
def execTcAct2act (s : State) : Host.Outcome State Fault Refusal :=
  .next ((s.wrField s.c.out.act2act s.regs.raw.act2act).goto .tcBusrd2rd)

/-- `TC_BUSRD2RD` (R176): a copy. -/
def execTcBusrd2rd (s : State) : Host.Outcome State Fault Refusal :=
  .next ((s.wrField s.c.out.busrd2rd s.regs.raw.rd2rdDd).goto .tcBusrd2wr)

/-- `TC_BUSRD2WR` (R177): a copy. -/
def execTcBusrd2wr (s : State) : Host.Outcome State Fault Refusal :=
  .next ((s.wrField s.c.out.busrd2wr s.regs.raw.rd2wrDd).goto .tcBuswr2rd)

/-- `TC_BUSWR2RD` (R178): a copy. -/
def execTcBuswr2rd (s : State) : Host.Outcome State Fault Refusal :=
  .next ((s.wrField s.c.out.buswr2rd s.regs.raw.wr2rdDd).goto .tcBwratio)

/-- `TC_BWRATIO` (R179): a copy. -/
def execTcBwratio (s : State) : Host.Outcome State Fault Refusal :=
  .next ((s.wrField s.c.out.bwratio s.regs.raw.bwratio).goto .tcBwratioext)

/-- `TC_BWRATIOEXT` (R180): a copy. -/
def execTcBwratioext (s : State) : Host.Outcome State Fault Refusal :=
  .next ((s.wrField s.c.out.bwratioext s.regs.raw.bwratioext).goto .tcFaw)

/-- `TC_FAW` (R181): a copy. -/
def execTcFaw (s : State) : Host.Outcome State Fault Refusal :=
  .next ((s.wrField s.c.out.faw s.regs.raw.faw).goto .tcFawbank)

/-- `TC_FAWBANK` (R182): the constant 1. -/
def execTcFawbank (s : State) : Host.Outcome State Fault Refusal :=
  .next ((s.wrField s.c.out.fawbank Config.fawBankCount).goto .tcSize)

/-- `TC_SIZE` (R183): the DRAM size and its default substitution; no bus transaction. -/
def execTcSize (s : State) : Host.Outcome State Fault Refusal :=
  .next (State.goto
    { s with regs := { s.regs with
        size := sizeValue s.c.sizeW.bits s.regs.raw
        sizeOut := sizeOutValue s.c.sizeW.bits s.c.defaultDramSize (sizeValue s.c.sizeW.bits s.regs.raw) } } .fwDeny)

end Sys2Proof.Machine
end

