-- ==== Sys2Proof/Machine/Dispatch.lean ====
section
/-! DEFINITION. The meaning of each operation of table T11: one arm per constructor of `Instr`, each one call. -/

namespace Sys2Proof.Machine

-- One whole operation, run on a state (R15, R69).
def exec (i : Instr) (s : State) : Host.Outcome State Fault Refusal :=
  match i with
  | .rdreg => Sys2Proof.Machine.execRdreg s
  | .wrreg => Sys2Proof.Machine.execWrreg s
  | .setbit => Sys2Proof.Machine.execSetbit s
  | .clrbit => Sys2Proof.Machine.execClrbit s
  | .pollbit => Sys2Proof.Machine.execPollbit s
  | .delay => Sys2Proof.Machine.execDelay s
  | .hs1 => Sys2Proof.Machine.execHs1 s
  | .hs2 => Sys2Proof.Machine.execHs2 s
  | .hs3 => Sys2Proof.Machine.execHs3 s
  | .hs4 => Sys2Proof.Machine.execHs4 s
  | .hs5 => Sys2Proof.Machine.execHs5 s
  | .hs6 => Sys2Proof.Machine.execHs6 s
  | .hs7 => Sys2Proof.Machine.execHs7 s
  | .hs8 => Sys2Proof.Machine.execHs8 s
  | .hs9 => Sys2Proof.Machine.execHs9 s
  | .hs10 => Sys2Proof.Machine.execHs10 s
  | .hs11 => Sys2Proof.Machine.execHs11 s
  | .hs12 => Sys2Proof.Machine.execHs12 s
  | .hs13 => Sys2Proof.Machine.execHs13 s
  | .hs14 => Sys2Proof.Machine.execHs14 s
  | .rcGate => Sys2Proof.Machine.execRcGate s
  | .rcAttempt => Sys2Proof.Machine.execRcAttempt s
  | .rcHsfail => Sys2Proof.Machine.execRcHsfail s
  | .rcStatpoll => Sys2Proof.Machine.execRcStatpoll s
  | .rcRetry => Sys2Proof.Machine.execRcRetry s
  | .rcFinish => Sys2Proof.Machine.execRcFinish s
  | .bootReport => Sys2Proof.Machine.execBootReport s
  | .tcLoad => Sys2Proof.Machine.execTcLoad s
  | .tcGeom => Sys2Proof.Machine.execTcGeom s
  | .tcRd2miss => Sys2Proof.Machine.execTcRd2miss s
  | .tcWr2miss => Sys2Proof.Machine.execTcWr2miss s
  | .tcAct2act => Sys2Proof.Machine.execTcAct2act s
  | .tcBusrd2rd => Sys2Proof.Machine.execTcBusrd2rd s
  | .tcBusrd2wr => Sys2Proof.Machine.execTcBusrd2wr s
  | .tcBuswr2rd => Sys2Proof.Machine.execTcBuswr2rd s
  | .tcBwratio => Sys2Proof.Machine.execTcBwratio s
  | .tcBwratioext => Sys2Proof.Machine.execTcBwratioext s
  | .tcFaw => Sys2Proof.Machine.execTcFaw s
  | .tcFawbank => Sys2Proof.Machine.execTcFawbank s
  | .tcSize => Sys2Proof.Machine.execTcSize s
  | .fwDeny => Sys2Proof.Machine.execFwDeny s
  | .fwCheck => Sys2Proof.Machine.execFwCheck s
  | .fwRegion e => Sys2Proof.Machine.execFwRegion e s
  | .fwReport => Sys2Proof.Machine.execFwReport s
  | .eccEntry => Sys2Proof.Machine.execEccEntry s
  | .eccSbe => Sys2Proof.Machine.execEccSbe s
  | .eccDbe => Sys2Proof.Machine.execEccDbe s
  | .eccClear => Sys2Proof.Machine.execEccClear s
  | .eccExit => Sys2Proof.Machine.execEccExit s
  | .idle => Sys2Proof.Machine.execIdle s
  | .arm => Sys2Proof.Machine.execArm s
  | .steady => Sys2Proof.Machine.execSteady s
  | .halt => Sys2Proof.Machine.execHalt s
  | .print m => Sys2Proof.Machine.execPrint m s
  | .setenv => Sys2Proof.Machine.execSetenv s
  | .wdkick => Sys2Proof.Machine.execWdkick s

end Sys2Proof.Machine
end

