-- ==== Sys2Proof/Machine/Fetch.lean ====
section
/-! DEFINITION. Which operation the next step runs (`10_state.md` R23; `30_encoding.md` R80, R85; `40_register_primitives.md`
R100). DDRCAL fetches nothing from the address space (R73): the operation word stands in `SEQ.op`, or, for a class U
command, on the command port of the register access unit. -/

namespace Sys2Proof.Machine

/-- The unit has taken the command off its port. -/
def State.clearCmd (s : State) : State := { s with unit := { s.unit with cmd := none } }

/-- The operation that a class U word on the command port stands for and the state it runs on, or why there is none (R100). -/
def State.fetchCommand (s : State) (w : OpWord) : Except Refusal (Instr × State) :=
  match decode w with
  | .error _ => .error (.reservedWord w)
  | .ok i =>
    match i.opClass with
    | .unitCommand => .ok (i, s.clearCmd)
    | .sequencerState => .error (.sequencerStateOnCommandPort w)

/-- The operation the next step runs and the state it runs on, or why there is none. A state whose `SEQ.op` holds a reserved
word or the word of a class U operation is refused, whatever else it holds (R85, I4). A halted block runs `HALT` (table T8:
`HALTED` is read by every step; R243; log entry 8). A pending command comes before the sequencer's next operation (R100;
log entry 23). -/
def State.fetch (s : State) : Except Refusal (Instr × State) :=
  match decode s.regs.seqOp with
  | .error _ => .error (.reservedWord s.regs.seqOp)
  | .ok i =>
    match i.opClass with
    | .unitCommand => .error (.unitCommandInSeqOp s.regs.seqOp)
    | .sequencerState =>
      if s.regs.halted then .ok (.halt, s)
      else
        match s.unit.cmd with
        | some w => s.fetchCommand w
        | none => .ok (i, s)

/-- `SEQ.op` if it holds the word of a class S operation, else the word of `IDLE`: what a command on the port needs beside it to
be fetched. -/
def State.runnableSeqOp (s : State) : OpWord :=
  match decode s.regs.seqOp with
  | .ok i =>
    match i.opClass with
    | .sequencerState => s.regs.seqOp
    | .unitCommand => encode .idle
  | .error _ => encode .idle

/-- The state with operation word `w` where the next step looks for it: on the command port for a class U word, in
`SEQ.op` for any other; `rst` low and the block not halted. -/
def State.placeWord (s : State) (w : OpWord) : State :=
  let t := { s with inp := { s.inp with rst := false }, regs := { s.regs with halted := false } }
  match decode w with
  | .ok i =>
    match i.opClass with
    | .unitCommand => { t with unit := { t.unit with cmd := some w }, regs := { t.regs with seqOp := s.runnableSeqOp } }
    | .sequencerState => { t with unit := { t.unit with cmd := none }, regs := { t.regs with seqOp := w } }
  | .error _ => { t with unit := { t.unit with cmd := none }, regs := { t.regs with seqOp := w } }

end Sys2Proof.Machine
end

