-- ==== Sys2Proof/Machine/Step.lean ====
section
/-! DEFINITION. One step of the machine: one whole operation (R15, R69), or one step in reset (R290). -/

namespace Sys2Proof.Machine

/-- One step. With `rst` at 1 the block is held in reset; otherwise the next operation runs and the environment then has an
opportunity (`State.endStep`). -/
def step (s : State) : Host.Outcome State Fault Refusal :=
  if s.inp.rst then .next s.holdReset
  else
    match s.fetch with
    | .error r => .refused r
    | .ok (i, s1) =>
      match exec i s1 with
      | .next t => .next t.endStep
      | .fault f => .fault f
      | .refused r => .refused r

/-- `s` with the operation word of the `nbits` low bits of `w` placed where `step` looks for its next operation. -/
def State.withFetchWord (s : State) (nbits w : Nat) : State := s.placeWord (BitVec.ofNat 16 (w % 2 ^ nbits))

end Sys2Proof.Machine
end

