-- ==== Sys2Proof/Safety.lean ====
section
/-! DEFINITION. The notions that claims about the machine are stated in: which bytes the environment may change, contexts and
the registers each may access (`60_exceptions.md` R273, R274), the successor relation (`30_encoding.md` R94), the invariant of
reachable states, what an operation did and what it left alone, and the end of a run with its observable result
(`46_system_ops.md` R249). No definition of the machine uses them. -/

namespace Sys2Proof

/-! ## Kinds of operation -/

/-- A handshake step. -/
def Instr.isHandshake : Instr → Bool
  | .hs1 | .hs2 | .hs3 | .hs4 | .hs5 | .hs6 | .hs7 | .hs8 | .hs9 | .hs10 | .hs11 | .hs12 | .hs13 | .hs14 => true
  | _ => false

/-- An operation of the retry loop. -/
def Instr.inRetryLoop : Instr → Bool
  | .rcAttempt | .rcHsfail | .rcStatpoll | .rcRetry => true
  | i => i.isHandshake

/-- An operation of an attempt that has started and is not yet counted in `ATT`. -/
def Instr.inAttempt : Instr → Bool
  | .rcHsfail | .rcStatpoll | .rcRetry => true
  | i => i.isHandshake

/-- An operation after which another status poll of the attempt may come. -/
def Instr.pollsAhead : Instr → Bool
  | .rcStatpoll => true
  | i => i.isHandshake

/-- An operation of the interrupt handler. -/
def Instr.isHandler : Instr → Bool
  | .eccEntry | .eccSbe | .eccDbe | .eccClear | .eccExit => true
  | _ => false

/-- The steady state and the handler: the operations that run with the handler armed. -/
def Instr.isArmed : Instr → Bool
  | .steady => true
  | i => i.isHandler

/-- The operations that run only after a reported success. -/
def Instr.afterSuccess : Instr → Bool
  | .tcLoad | .tcGeom | .tcRd2miss | .tcWr2miss | .tcAct2act | .tcBusrd2rd | .tcBusrd2wr | .tcBuswr2rd | .tcBwratio
  | .tcBwratioext | .tcFaw | .tcFawbank | .tcSize => true
  | .fwDeny | .fwCheck | .fwRegion _ | .fwReport | .arm => true
  | i => i.isArmed

end Sys2Proof

namespace Sys2Proof.Machine

/-! ## Ownership -/

/-- Byte address `x` belongs to a register that some environment agent may change while `rst` is 0 (R68). -/
def envByte (c : CfgData) (x : Nat) : Bool :=
  (envAddrs c).any (fun a => [0, 1, 2, 3].any (fun k => byteAddr a k == x))

/-- Byte address `x` is one of the four bytes of the register at `a`. -/
def byteOfReg (a : Addr) (x : Nat) : Bool := [0, 1, 2, 3].any (fun k => byteAddr a k == x)

/-- The registers owned by HOST (table T3, R68). -/
def hostAddrs (c : CfgData) : List Addr :=
  [c.aC2s, c.aGpout] ++ c.out.toList.map FieldLoc.addr ++ [c.aFwen0, c.aFwen1] ++ c.fwTable.map FwEntry.aCfg ++
  [c.aEccctrl]

/-- The registers of table T3 that are neither scheduler registers nor environment-owned. -/
def hostSingles (c : CfgData) : List Addr :=
  [c.aC2s, c.aGpout, c.aFwen0, c.aFwen1, c.aEccctrl, c.aSiliconid] ++ c.fwTable.map FwEntry.aCfg

/-- The environment-owned registers of table T3 but for the raw configuration registers and the two fault addresses. -/
def envSingles (c : CfgData) : List Addr := [c.aS2c, c.aGpin, c.aCalstat, c.aIntstat, c.aSbeCnt, c.aErrinten]

/-- The registers of which table T3 has exactly one at an address of its own. -/
def singleAddrs (c : CfgData) : List Addr := hostSingles c ++ envSingles c

/-- The record keeps the registers of table T3 at different addresses, but that the raw fields may share registers among
themselves, the output fields among themselves, and SBEADDR may be DBEADDR (R35): "a fixed set of non-overlapping physical
address windows" (R26). R9 asks this of the handshake set only. -/
def separated (c : CfgData) : Bool :=
  decide (singleAddrs c).Nodup &&
  (c.raw.toList.map FieldLoc.addr).all (fun a => !(singleAddrs c).contains a) &&
  [c.aSbeAddr, c.aDbeAddr].all (fun a => !(singleAddrs c ++ c.raw.toList.map FieldLoc.addr).contains a) &&
  (c.out.toList.map FieldLoc.addr).all
    (fun a => !(singleAddrs c ++ c.raw.toList.map FieldLoc.addr ++ [c.aSbeAddr, c.aDbeAddr]).contains a)

/-! ## The event history -/

/-- The address of a bus transaction. -/
def Event.busAddr : Event → Option Addr
  | .busRead a _ => some a
  | .busWrite a _ => some a
  | _ => none

/-- The addresses of the bus transactions of a list of events. -/
def busAddrs (es : List Event) : List Addr := es.filterMap Event.busAddr

/-- The addresses written by a list of events. -/
def writeAddrs (es : List Event) : List Addr :=
  es.filterMap (fun e => match e with | .busWrite a _ => some a | _ => none)

/-- The events of a poll whose reads returned `vs` (R105): each iteration waits 100 microseconds, refreshes the watchdog and
reads. -/
def pollEvents (a : Addr) (vs : List Word) : List Event := vs.flatMap (fun v => [.wait 100, .kick, .busRead a v])

/-- The events of a delay of `ms` milliseconds (R106). -/
def delayEvents (ms : Nat) : List Event := (List.replicate ms [Event.wait 1000, .kick]).flatten

/-- `vs` are the values a poll of bit `b` for `expected` read before it ended with result `ok` (R105): none but the last
matches, and the last matches exactly when the result is true; with the result false there were `n` of them. -/
def PollRan (b : BitNo) (expected : Bool) (n : Nat) (ok : Bool) (vs : List Word) : Prop :=
  vs.length ≤ n ∧ (∀ v ∈ vs.dropLast, bit v b ≠ expected) ∧
  (ok = true → ∃ v ∈ vs.getLast?, bit v b = expected) ∧
  (ok = false → vs.length = n ∧ ∀ v ∈ vs, bit v b ≠ expected)

/-! ## Contexts (R273, R274) -/

/-- The context that runs an operation of class S (R274). -/
def contextOf : Instr → Context
  | .eccEntry | .eccSbe | .eccDbe | .eccClear | .eccExit => .irq
  | .halt => .halted
  | _ => .main

/-- The registers a context accesses (R274). -/
def contextAddrs (c : CfgData) : Context → List Addr
  | .main =>
    [c.aC2s, c.aS2c, c.aGpout, c.aGpin, c.aSiliconid, c.aCalstat] ++ c.raw.toList.map FieldLoc.addr ++
    c.out.toList.map FieldLoc.addr ++ [c.aFwen0, c.aFwen1] ++ c.fwTable.map FwEntry.aCfg
  | .irq => [c.aIntstat, c.aSbeAddr, c.aDbeAddr, c.aSbeCnt, c.aEccctrl, c.aErrinten]
  | .halted => []

/-! ## The sequencer -/

/-- The operation in `SEQ.op`, if its word is not reserved. -/
def State.op? (s : State) : Option Instr :=
  match decode s.regs.seqOp with
  | .ok i => some i
  | .error _ => none

/-- The successors of table T12, whatever their conditions. Class U operations are not in the table: they leave `SEQ.op`
alone. -/
def successors : Instr → List Instr
  | .idle => [.rcGate, .idle]
  | .rcGate => [.bootReport, .rcAttempt]
  | .rcAttempt => [.hs1, .rcFinish]
  | .hs1 => [.hs2]
  | .hs2 => [.hs3]
  | .hs3 => [.hs4]
  | .hs4 => [.hs5]
  | .hs5 => [.hs6]
  | .hs6 => [.hs7, .rcHsfail]
  | .hs7 => [.hs8]
  | .hs8 => [.hs9, .rcHsfail]
  | .hs9 => [.hs10]
  | .hs10 => [.hs11, .rcHsfail]
  | .hs11 => [.hs12]
  | .hs12 => [.hs13, .rcHsfail]
  | .hs13 => [.hs14]
  | .hs14 => [.rcStatpoll, .rcHsfail]
  | .rcHsfail => [.rcAttempt]
  | .rcStatpoll => [.rcFinish, .rcStatpoll, .rcRetry]
  | .rcRetry => [.rcAttempt]
  | .rcFinish => [.bootReport]
  | .bootReport => [.tcLoad, .halt]
  | .tcLoad => [.tcGeom]
  | .tcGeom => [.tcRd2miss]
  | .tcRd2miss => [.tcWr2miss]
  | .tcWr2miss => [.tcAct2act]
  | .tcAct2act => [.tcBusrd2rd]
  | .tcBusrd2rd => [.tcBusrd2wr]
  | .tcBusrd2wr => [.tcBuswr2rd]
  | .tcBuswr2rd => [.tcBwratio]
  | .tcBwratio => [.tcBwratioext]
  | .tcBwratioext => [.tcFaw]
  | .tcFaw => [.tcFawbank]
  | .tcFawbank => [.tcSize]
  | .tcSize => [.fwDeny]
  | .fwDeny => [.fwCheck]
  | .fwCheck => [.fwRegion 0, .fwReport]
  | .fwRegion e => if e.toNat < 23 then [.fwRegion (e + 1)] else [.fwReport]
  | .fwReport => [.arm]
  | .arm => [.steady]
  | .steady => [.eccEntry, .steady]
  | .eccEntry => [.eccSbe]
  | .eccSbe => [.eccDbe]
  | .eccDbe => [.eccClear]
  | .eccClear => [.eccExit]
  | .eccExit => [.steady, .halt]
  | .halt => [.halt]
  | .rdreg | .wrreg | .setbit | .clrbit | .pollbit | .delay | .print _ | .setenv | .wdkick => []

/-! ## The invariant of reachable states -/

/-- What the block's registers satisfy in every reachable state whose `SEQ.op` holds operation `i`. -/
structure RegsInv (c : CfgData) (i : Instr) (r : Regs) : Prop where
  /-- `PJ` is 0..10, and below 10 where a status poll is still to come (table T7, R154). -/
  pjRange      : r.pj.toNat ≤ 10 ∧ (i.pollsAhead = true → r.pj.toNat < 10)
  /-- `ATT` is below 3 inside an attempt, so that counting it never passes 3 (R153). -/
  attRange     : i.inAttempt = true → r.att.toNat < 3
  /-- `CALOK` is 0 in the retry loop (R152). -/
  calokClear   : i.inRetryLoop = true → r.calok = false
  /-- `RC_FINISH` with `CALOK` = 0 comes with `ATT` = 3 (R156). -/
  exhausted    : i = .rcFinish → r.calok = false → r.att.toNat = 3
  /-- `HSRC` is 0 or a code −1 to −5 (table T14). -/
  hsrcRange    : r.hsrc = 0 ∨ (stepOfCode r.hsrc).isSome = true
  /-- `RCRC` is 0 or −1 (table T14). -/
  rcrcRange    : r.rcrc = 0 ∨ r.rcrc = 0xFFFFFFFF
  /-- After a reported success `RCRC` is 0 (R157). -/
  rcrcSuccess  : i.afterSuccess = true → r.rcrc = 0
  /-- `FWRC` is 0, 1 or 2 (table T14). -/
  fwrcRange    : r.fwrc = 0 ∨ r.fwrc = 1 ∨ r.fwrc = 2
  /-- Each latched raw field is below 2^w (R171). -/
  rawRange     : ∀ f, (rawGet r.raw f).toNat < 2 ^ (rawGet c.raw f).width
  /-- `SIZE` is a signed value of `SIZE_W` bits (table T7). -/
  sizeRange    : -2 ^ (c.sizeW.bits - 1) ≤ r.size ∧ r.size < 2 ^ (c.sizeW.bits - 1)
  /-- `SIZE_OUT` is a signed value of `SIZE_W` bits (table T7). -/
  sizeOutRange : -2 ^ (c.sizeW.bits - 1) ≤ r.sizeOut ∧ r.sizeOut < 2 ^ (c.sizeW.bits - 1)
  /-- `CNT` and `DBE_CNT_L` are unsigned values of `CNT_W` bits (table T7). -/
  cntRange     : r.cnt < 2 ^ c.cntW ∧ r.dbeCntL < 2 ^ c.cntW
  /-- `HALTED` is 1 exactly in `HALT`, and then there is a cause (R243). -/
  haltedOp     : (r.halted = true ↔ i = .halt) ∧ (r.haltCause ≠ .none ↔ i = .halt)
  /-- Cause 1 comes with `RCRC` = −1 (R261). -/
  haltCal      : r.haltCause = .calExhaust → r.rcrc = 0xFFFFFFFF ∧ r.armed = false
  /-- Cause 2 leaves the block armed, with a calibration that succeeded (R225). -/
  haltDbe      : r.haltCause = .eccDbe → r.rcrc = 0 ∧ r.armed = true
  /-- `SEQ.ctx` is IRQ exactly in the handler and where the handler halted (R24, R225). -/
  ctxOp        : r.ctx = .irq ↔ (i.isHandler = true ∨ r.haltCause = .eccDbe)
  /-- `INSVC` is 1 exactly in context IRQ (R269, R270). -/
  insvcCtx     : r.insvc = true ↔ r.ctx = .irq
  /-- `ARMED` is 1 exactly from `ARM` on (R241). -/
  armedOp      : r.armed = true ↔ (i.isArmed = true ∨ r.haltCause = .eccDbe)

/-- The invariant of reachable states: the Register Space is in canonical form, the hidden counters are 0 between operations
(R38), `SEQ.op` holds the word of a class S operation (R23), and the registers are as `RegsInv` says. -/
structure Inv (s : State) : Prop where
  spaceWf    : s.space.wf = true
  counters   : s.unit.pollIter = 0 ∧ s.unit.delayIter = 0
  sequencer  : ∃ i, decode s.regs.seqOp = .ok i ∧ i.opClass = .sequencerState ∧ RegsInv s.c i s.regs

/-! ## What an operation did -/

/-- The effect of an operation, apart from the values that registers of the Register Space come to hold: the block's registers
and the access unit afterwards, the bytes appended to the console, the environment variable afterwards, the events appended to
`TRACE`, and the registers stored to. -/
structure Effect where
  regs    : Regs
  unit    : AccessUnit
  console : List Byte
  envVar  : Option Nat
  events  : List Event
  stored  : List Addr
deriving DecidableEq, Repr

/-- The effect of doing nothing in state `s`. -/
def State.effect (s : State) : Effect where
  regs := s.regs
  unit := s.unit
  console := []
  envVar := s.out.envVar
  events := []
  stored := []

/-- `t` is what an operation with effect `e` makes of `s`. What concerns the bus holds unless `rst` rose during the operation
(R290): the board configuration, the event history, and every byte that belongs to no register stored to and that the
environment has no right to (R68). -/
structure Performed (s t : State) (e : Effect) : Prop where
  cfg     : t.cfg = s.cfg
  regs    : t.regs = e.regs
  unit    : t.unit = e.unit
  console : t.out.console = s.out.console ++ e.console
  envVar  : t.out.envVar = e.envVar
  board   : t.inp.rst = false → t.board = s.board
  trace   : t.inp.rst = false → t.trace = s.trace ++ e.events
  frame   : t.inp.rst = false → ∀ x, envByte s.c x = false → (∀ a ∈ e.stored, byteOfReg a x = false) →
    t.space.readByte x = s.space.readByte x

/-- `Performed` for one read and one write of the register at `a`, the value written being `f` of the value `v` read, then the
events of `e`. A register that the environment has no right to reads as it stood before the operation. After the operation the
register holds `f v`, but for INTSTAT, whose flags the write clears where it has ones and otherwise leaves as they stood at the
write, in a value `w` (R76; the other bits are as `f v` has them, log entry 24). -/
def RmwPerformed (s t : State) (a : Addr) (f : Word → Word) (e : Effect) : Prop :=
  ∃ v, Performed s t { e with events := [.busRead a v, .busWrite a (f v)] ++ e.events, stored := [a] } ∧
    (t.inp.rst = false →
      (a ∉ envAddrs s.c → v = s.space.readWord a) ∧
      (a ≠ s.c.aIntstat → (a = s.c.aEccctrl → a ≠ s.c.aSbeCnt) → t.space.readWord a = f v) ∧
      (a = s.c.aIntstat → ∃ w, t.space.readWord a =
        (f v &&& ~~~intFlagMask s.c) ||| (w &&& intFlagMask s.c &&& ~~~f v)))

/-- What a read-modify-write of INTSTAT, the value written being `f` of the value read, leaves in its two flags (R76 (a)): a flag is
1 in `t` exactly if it was 1 at the write, in the value the environment's opportunity before the write left, and the value written
has a zero for it; so a flag that was set before the operation stays set where a zero is written. -/
def IntstatFlagsAfterRmw (s t : State) (f : Word → Word) : Prop :=
  ∀ b, b = s.c.sbeBit ∨ b = s.c.dbeBit →
    (bit (t.space.readWord s.c.aIntstat) b = true ↔
      bit ((s.busRead s.c.aIntstat).2.envPoint.space.readWord s.c.aIntstat) b = true ∧
      bit (f (s.envPoint.space.readWord s.c.aIntstat)) b = false) ∧
    (s.c.aIntstat ∉ partnerAddrs s.c → bit (s.space.readWord s.c.aIntstat) b = true →
      bit (f (s.envPoint.space.readWord s.c.aIntstat)) b = false → bit (t.space.readWord s.c.aIntstat) b = true)

/-- `Performed` for one read and one write of a register that the environment has no right to, the value written being `f` of
the value the register held before. -/
def HostRmwPerformed (s t : State) (a : Addr) (f : Word → Word) (e : Effect) : Prop :=
  Performed s t
      { e with
        events := [.busRead a (s.space.readWord a), .busWrite a (f (s.space.readWord a))] ++ e.events
        stored := [a] } ∧
    (t.inp.rst = false → t.space.readWord a = f (s.space.readWord a))

/-- Operation `i`, which polls bit `b` of the register at `a` for `expected` with a budget of `n` reads, goes to the operation
word `nxt` when the poll succeeds and otherwise records `code` in `HSRC` and goes to `RC_HSFAIL` (R260); it stores nothing, and
the last value it read is what the register holds. -/
def PollStep (i : Instr) (a : Addr) (b : BitNo) (expected : Bool) (n : Nat) (code : Word) (nxt : OpWord) (s : State) :
    Prop :=
  ∃ t vs ok, exec i s = .next t ∧ PollRan b expected n ok vs ∧ vs.getLast? = some (t.space.readWord a) ∧
    Performed s t
      { s.effect with
        regs := if ok = true then { s.regs with seqOp := nxt } else { s.regs with hsrc := code, seqOp := 0x4200 }
        unit := { s.unit with pollIter := 0 }
        events := pollEvents a vs }

/-- Operation `i` writes the value `v` into the field `f` by one read and one write of its register (R107) and goes to the
operation word `nxt`. -/
def FieldStep (i : Instr) (f : FieldLoc) (v : Word) (nxt : OpWord) (s : State) : Prop :=
  ∃ t, exec i s = .next t ∧
    RmwPerformed s t f.addr (fun r => insertField f r v) { s.effect with regs := { s.regs with seqOp := nxt } }

/-- The ASCII bytes of a text. -/
def textBytes (x : String) : List Byte := x.toList.map (fun ch => BitVec.ofNat 8 ch.toNat)

/-- The number of waits in a list of events. -/
def waitCount (es : List Event) : Nat := es.countP (fun e => match e with | .wait _ => true | _ => false)

/-- The number of watchdog refreshes in a list of events. -/
def kickCount (es : List Event) : Nat := es.countP (fun e => match e with | .kick => true | _ => false)

/-- The number that a list of ASCII decimal digits denotes. -/
def decimalValue (ds : List Byte) : Nat := ds.foldl (fun n d => 10 * n + (d.toNat - 0x30)) 0

/-- The value of an ASCII lower-case hexadecimal digit. -/
def hexDigitValue (d : Byte) : Nat := if d.toNat < 0x61 then d.toNat - 0x30 else d.toNat - 0x61 + 10

/-- The number that a list of ASCII lower-case hexadecimal digits denotes. -/
def hexValue (ds : List Byte) : Nat := ds.foldl (fun n d => 16 * n + hexDigitValue d) 0

/-- The firewall registers after the entries below `n` have been visited (R206): a bit of a master-enable register is 1 exactly
if it is the enable bit of a visited entry that the board configuration has, and each such entry's configuration register holds
its region word. -/
def FirewallUpTo (n : Nat) (s : State) : Prop :=
  (∀ en ∈ [s.c.aFwen0, s.c.aFwen1], ∀ b : BitNo,
    bit (s.space.readWord en) b = true ↔
      ∃ e ∈ s.c.fwTable.take n, e.aEn = en ∧ e.enBit = b ∧ (boardLookup s.board e.name).isSome = true) ∧
  (∀ e ∈ s.c.fwTable.take n, ∀ st fin, boardLookup s.board e.name = some (st, fin) →
    s.space.readWord e.aCfg = fwWord s.c st fin)

/-! ## The end of a run and its result (R249) -/

/-- A bring-up run has ended: `STEADY` with `ecc_irq` = 0, or `HALT`. -/
def State.runEnded (s : State) : Bool :=
  s.op? == some .halt || (s.op? == some .steady && !s.inp.eccIrq)

/-- The bring-up passed: it reached `STEADY`. `ARM` makes `ARMED` 1 as it moves the sequencer to `STEADY` (R241), and nothing but
a reset clears it, so `ARMED` tells that `STEADY` has been reached, also in the handler and after its halt. -/
def State.runPassed (s : State) : Bool := s.regs.armed

/-- The bring-up failed: `HALT` with `HALT_CAUSE` = 1. -/
def State.runFailed (s : State) : Bool := s.op? == some .halt && s.regs.haltCause == .calExhaust

/-- The observable result of a run. -/
structure Result where
  console   : List Byte
  bootEnv   : List (String × Nat)
  halt      : Bool
  haltCause : HaltCause
  rcrc      : Word
  fwrc      : Word
  sizeOut   : Int
  geomidx   : Word
  hostRegs  : List (Addr × Word)
  trace     : List Event
deriving DecidableEq, Repr

/-- The observable result of a state (R249). -/
def State.result (s : State) : Result where
  console := s.out.console
  bootEnv := s.bootEnv
  halt := s.haltOut
  haltCause := s.regs.haltCause
  rcrc := s.regs.rcrc
  fwrc := s.regs.fwrc
  sizeOut := s.regs.sizeOut
  geomidx := s.regs.geomidx
  hostRegs := (hostAddrs s.c).map (fun a => (a, s.space.readWord a))
  trace := s.trace

end Sys2Proof.Machine
end

