-- ==== Sys2Proof/Certificates/Slice0/Obligations.lean ====
section
/-! DEFINITION. The statements about DDRCAL that are to be proved or refuted, one proposition each. `OBLIGATIONS.json` gives the
rule of the specification behind each.

Two things recur. `s.space.wf = true` says that the Register Space is in canonical form, which holds at reset and is kept by
every step (`ResetMeetsTheInvariant`, `StepKeepsTheCanonicalForm`). What concerns the bus is stated for operations during which
`rst` did not rise: once it has risen the block makes no transaction and is reset (R290). -/

open Sys2Proof Sys2Proof.Machine

/-! ## Encoding -/

/-- R80, R82: decoding the word of a well-formed operation gives the operation back. -/
def Obligations.DecodeOfEncode : Prop := ∀ i : Instr, i.wellFormed = true → decode (encode i) = .ok i

/-- R80, R82: a word that decodes is the word of the well-formed operation it decodes to. -/
def Obligations.EncodeOfDecode : Prop :=
  ∀ (w : OpWord) (i : Instr), decode w = .ok i → i.wellFormed = true ∧ encode i = w

/-- R85, the list of reserved words: `W[15:13]` is the family, `W[12:8]` the index, `W[7:0]` the argument (R80). -/
def Obligations.ReservedWordsAreExactlyTheListed : Prop :=
  ∀ w : OpWord, ∀ fam idx arg : Nat,
    fam = (w.extractLsb' 13 3).toNat → idx = (w.extractLsb' 8 5).toNat → arg = (w.extractLsb' 0 8).toNat →
    ((∃ r, decode w = .error r) ↔
      fam = 6 ∨ (fam = 0 ∧ 5 < idx) ∨ (fam = 1 ∧ (idx = 0 ∨ 14 < idx)) ∨ (fam = 2 ∧ 6 < idx) ∨ (fam = 3 ∧ 12 < idx) ∨
      (fam = 4 ∧ 3 < idx) ∨ (fam = 5 ∧ 4 < idx) ∨ (fam = 7 ∧ 6 < idx) ∨
      (arg ≠ 0 ∧ ¬(fam = 4 ∧ idx = 2) ∧ ¬(fam = 7 ∧ idx = 4)) ∨
      (fam = 4 ∧ idx = 2 ∧ 23 < arg) ∨ (fam = 7 ∧ idx = 4 ∧ 7 < arg))

/-- R85, I4: a block not in reset whose `SEQ.op` holds a reserved word or the word of a class U operation is refused, whatever else
it holds; so is a block that is not halted with a reserved word or the word of a class S operation on the command port (R100). That
a halted block ignores its command port and that a pending command comes before the operation in `SEQ.op` are the model's choices
(log entries 8 and 23). -/
def Obligations.UnrunnableWordsAreRefused : Prop :=
  ∀ s : State, s.inp.rst = false →
    (∀ r, decode s.regs.seqOp = .error r → step s = .refused (.reservedWord s.regs.seqOp)) ∧
    (∀ i, decode s.regs.seqOp = .ok i → i.opClass = .unitCommand → step s = .refused (.unitCommandInSeqOp s.regs.seqOp)) ∧
    (∀ i w, decode s.regs.seqOp = .ok i → i.opClass = .sequencerState → s.regs.halted = false → s.unit.cmd = some w →
      (∀ r, decode w = .error r → step s = .refused (.reservedWord w)) ∧
      (∀ j, decode w = .ok j → j.opClass = .sequencerState → step s = .refused (.sequencerStateOnCommandPort w)))

/-- Words of table T11, one of each family, and what each decodes to. -/
def Obligations.TableWordsDecode : Prop :=
  decode 0x0400 = .ok .pollbit ∧ decode 0x2E00 = .ok .hs14 ∧ decode 0x4600 = .ok .bootReport ∧ decode 0x6C00 = .ok .tcSize ∧
  decode 0x8217 = .ok (.fwRegion 23) ∧ decode 0xA400 = .ok .eccExit ∧ decode 0xE407 = .ok (.print 7) ∧
  decode 0x0600 = .error .index ∧ decode 0x0001 = .error .argument ∧ decode 0xC000 = .error .family

/-! ## Steps, reset, invariants -/

/-- A step outside reset, `SEQ.op` holding the word of a class S operation (R23), runs the decoded operation: the command of the
register access unit if there is one (which leaves the port), else the operation in `SEQ.op`; a halted block runs `HALT` (R243,
table T8). After it the environment has an opportunity (`endStep`). A step in reset holds the block in reset. The model's choices
are that a halted block runs `HALT` also where `SEQ.op` holds another class S word or a command is pending (log entry 8), and that
a pending command comes before the operation in `SEQ.op` (log entry 23). -/
def Obligations.StepRunsTheDecodedOperation : Prop :=
  ∀ s : State,
    (s.inp.rst = true → step s = .next s.holdReset) ∧
    (∀ i, s.inp.rst = false → decode s.regs.seqOp = .ok i → i.opClass = .sequencerState →
      (s.regs.halted = true → step s = .next (State.endStep (s.goto .halt))) ∧
      (s.regs.halted = false → s.unit.cmd = none →
        (∀ t, exec i s = .next t → step s = .next t.endStep) ∧ (∀ r, exec i s = .refused r → step s = .refused r)) ∧
      (∀ w j, s.regs.halted = false → s.unit.cmd = some w → decode w = .ok j → j.opClass = .unitCommand →
        (∀ t, exec j s.clearCmd = .next t → step s = .next t.endStep) ∧
        (∀ r, exec j s.clearCmd = .refused r → step s = .refused r)))

/-- What the end of a step adds to the operation (R68, R69, R290): with `rst` low afterwards nothing but the environment acts,
which leaves the block, its outputs and every byte it has no right to alone; with `rst` high the block is in its reset state
(R291). That an operation during which `rst` rose ends so, with all its outputs erased, is the model's choice (log entry 5), and so
are the zeros of the access unit's ports, for which R291 gives no reset value (log entry 6). -/
def Obligations.EndOfStepIsTheEnvironments : Prop :=
  ∀ s : State,
    s.endStep.cfg = s.cfg ∧
    (s.endStep.inp.rst = false →
      s.inp.rst = false ∧ s.endStep.regs = s.regs ∧ s.endStep.unit = s.unit ∧ s.endStep.out = s.out ∧
      s.endStep.board = s.board ∧ ∀ x, envByte s.c x = false → s.endStep.space.readByte x = s.space.readByte x) ∧
    (s.endStep.inp.rst = true →
      s.endStep.regs = Regs.reset ∧ s.endStep.unit = AccessUnit.reset ∧ s.endStep.out = Outputs.reset)

/-- R291, the table of reset values, at `State.reset` and after every step made with `rst` high. -/
def Obligations.ResetStateIsTheStated : Prop :=
  ∀ t : State, (t = State.reset ∨ ∃ s, s.inp.rst = true ∧ step s = .next t) →
    t.regs.seqOp = 0xE000 ∧ t.regs.ctx = .main ∧ t.regs.cnt = 0 ∧ t.regs.att = 0 ∧ t.regs.pj = 0 ∧ t.regs.hsrc = 0 ∧
    t.regs.rcrc = 0 ∧ (∀ f, rawGet t.regs.raw f = 0) ∧ t.regs.geomidx = 0 ∧ t.regs.derRd2miss = 0 ∧ t.regs.derWr2miss = 0 ∧
    t.regs.size = 0 ∧ t.regs.sizeOut = 0 ∧ t.regs.fwrc = 0 ∧ t.regs.istat = 0 ∧ t.regs.sbeAddrL = 0 ∧ t.regs.dbeAddrL = 0 ∧
    t.regs.dbeCntL = 0 ∧ t.regs.haltCause.code = 0 ∧ t.regs.calok = false ∧ t.regs.armed = false ∧ t.regs.insvc = false ∧
    t.regs.halted = false ∧ t.unit.pollIter = 0 ∧ t.unit.delayIter = 0 ∧ t.out.console = [] ∧ t.out.envVar = none ∧
    t.trace = [] ∧ t.haltOut = false

/-- R27, R292: after reset a register of the Register Space holds an unspecified value: each byte reads as a free value of the
model (log entry 3). -/
def Obligations.ResetLeavesTheRegisterSpaceUnspecified : Prop :=
  State.reset.space.wf = true ∧ ∀ x, State.reset.space.readByte x = Config.powerOnByte x

/-- Every step keeps the invariant of reachable states. -/
def Obligations.StepKeepsTheInvariant : Prop := ∀ s t : State, Inv s → step s = .next t → Inv t

/-- The invariant holds at reset. -/
def Obligations.ResetMeetsTheInvariant : Prop := Inv State.reset

/-- Every step keeps the canonical form of the Register Space. -/
def Obligations.StepKeepsTheCanonicalForm : Prop :=
  ∀ s t : State, s.space.wf = true → step s = .next t → t.space.wf = true

/-- R94, table T12: every operation of class S that completes leaves in `SEQ.op` the word of a successor of the table; an
operation of class U leaves `SEQ.op` as it was. -/
def Obligations.SequencerFollowsTheSuccessorTable : Prop :=
  ∀ (i : Instr) (s t : State), exec i s = .next t →
    (i.opClass = .sequencerState → ∃ j ∈ successors i, t.regs.seqOp = encode j) ∧
    (i.opClass = .unitCommand → t.regs.seqOp = s.regs.seqOp)

/-- R304, R310: from every reachable state with no command pending the block reaches `IDLE`, `STEADY` or `HALT` within 130 steps,
whatever the environment does. -/
def Obligations.BlockReachesARestingOperation : Prop :=
  ∀ s : State, Inv s → s.unit.cmd = none →
    ∃ n ≤ 130, ∃ t : State, Sys2Proof.core.run n s = .next t ∧
      (t.op? = some .idle ∨ t.op? = some .steady ∨ t.op? = some .halt)

/-- Tables T7 and T8, the columns "written by", "set by" and "cleared by": an operation that changes a working register or a flag
is one of those named there (entry to the handler is `STEADY`'s, entry to `HALT` is `BOOT_REPORT`'s and `ECC_EXIT`'s). -/
def Obligations.RegistersChangeOnlyInTheirWriters : Prop :=
  ∀ (i : Instr) (s t : State), exec i s = .next t →
    (t.regs.att ≠ s.regs.att → i ∈ [.rcGate, .rcHsfail, .rcRetry]) ∧
    (t.regs.pj ≠ s.regs.pj → i ∈ [.rcAttempt, .rcStatpoll]) ∧
    (t.regs.hsrc ≠ s.regs.hsrc → i ∈ [.hs6, .hs8, .hs10, .hs12, .hs14]) ∧
    (t.regs.rcrc ≠ s.regs.rcrc → i ∈ [.rcGate, .rcFinish]) ∧
    (t.regs.raw ≠ s.regs.raw → i = .tcLoad) ∧ (t.regs.geomidx ≠ s.regs.geomidx → i = .tcGeom) ∧
    (t.regs.derRd2miss ≠ s.regs.derRd2miss → i = .tcRd2miss) ∧ (t.regs.derWr2miss ≠ s.regs.derWr2miss → i = .tcWr2miss) ∧
    (t.regs.size ≠ s.regs.size → i = .tcSize) ∧ (t.regs.sizeOut ≠ s.regs.sizeOut → i = .tcSize) ∧
    (t.regs.fwrc ≠ s.regs.fwrc → i = .fwCheck) ∧ (t.regs.istat ≠ s.regs.istat → i = .eccEntry) ∧
    (t.regs.cnt ≠ s.regs.cnt → i = .eccSbe) ∧ (t.regs.sbeAddrL ≠ s.regs.sbeAddrL → i = .eccSbe) ∧
    (t.regs.dbeAddrL ≠ s.regs.dbeAddrL → i = .eccDbe) ∧ (t.regs.dbeCntL ≠ s.regs.dbeCntL → i = .eccDbe) ∧
    (t.regs.haltCause ≠ s.regs.haltCause → i ∈ [.bootReport, .eccExit]) ∧
    (t.regs.calok ≠ s.regs.calok → i ∈ [.rcGate, .rcStatpoll]) ∧ (t.regs.armed ≠ s.regs.armed → i = .arm) ∧
    (t.regs.insvc ≠ s.regs.insvc → i ∈ [.steady, .eccExit]) ∧ (t.regs.halted ≠ s.regs.halted → i ∈ [.bootReport, .eccExit]) ∧
    (t.regs.ctx ≠ s.regs.ctx → i ∈ [.steady, .eccExit])

/-! ## Register access primitives -/

/-- R101: `RDREG` returns the value of the register at the port `addr` at the instant of its one transaction and changes no
register; an address that is not a multiple of 4 is refused (R63). -/
def Obligations.RdregReadsItsRegister : Prop :=
  ∀ s : State,
    (s.unit.addr.toNat % 4 ≠ 0 → exec .rdreg s = .refused (.misalignedAddress s.unit.addr)) ∧
    (s.unit.addr.toNat % 4 = 0 → ∃ t v, exec .rdreg s = .next t ∧
      Performed s t { s.effect with unit := { s.unit with rdata := v }, events := [.busRead s.unit.addr v] } ∧
      v = t.space.readWord s.unit.addr ∧
      (t.inp.rst = false → s.unit.addr ∉ envAddrs s.c → v = s.space.readWord s.unit.addr))

/-- R102, R76: `WRREG` makes one write of the port `data`. It stores the value, but for INTSTAT: there a flag is 1 afterwards exactly
if it was 1 at the write, in the value the environment's opportunity before the write left, and `data` has a zero for it, and the
other bits take the value written (the model's choice between R28 and R102, log entry 24). A write that takes CNTRST of ECCCTRL
from 0 to 1 makes SBECNT 0 (log entry 11). An address outside table T3 is plain storage (the model's choice, log entry 9). -/
def Obligations.WrregWritesItsRegister : Prop :=
  ∀ s : State, s.space.wf = true →
    (s.unit.addr.toNat % 4 ≠ 0 → exec .wrreg s = .refused (.misalignedAddress s.unit.addr)) ∧
    (s.unit.addr.toNat % 4 = 0 → ∃ t, exec .wrreg s = .next t ∧
      Performed s t { s.effect with events := [.busWrite s.unit.addr s.unit.data], stored := [s.unit.addr] } ∧
      (t.inp.rst = false →
        (s.unit.addr ≠ s.c.aIntstat → (s.unit.addr = s.c.aEccctrl → s.unit.addr ≠ s.c.aSbeCnt) →
          t.space.readWord s.unit.addr = s.unit.data) ∧
        (s.unit.addr = s.c.aIntstat → ∀ b : BitNo,
          (b ≠ s.c.sbeBit → b ≠ s.c.dbeBit → bit (t.space.readWord s.unit.addr) b = bit s.unit.data b) ∧
          (b = s.c.sbeBit ∨ b = s.c.dbeBit →
            (bit (t.space.readWord s.unit.addr) b = true ↔
              bit (s.envPoint.space.readWord s.unit.addr) b = true ∧ bit s.unit.data b = false) ∧
            (s.unit.addr ∉ partnerAddrs s.c → bit (s.space.readWord s.unit.addr) b = true → bit s.unit.data b = false →
              bit (t.space.readWord s.unit.addr) b = true))) ∧
        (s.unit.addr = s.c.aEccctrl → s.unit.addr ∉ envAddrs s.c → bit (s.space.readWord s.unit.addr) s.c.cntrstBit = false →
          bit s.unit.data s.c.cntrstBit = true → t.space.readWord s.c.aSbeCnt = 0)))

/-- R103, R104: `SETBIT` and `CLRBIT` make one read and one write of the register at the port `addr`, the written value being the
value read with the bit of the port `bit` made 1 or 0. At INTSTAT a flag is 1 afterwards exactly if it was 1 at the write and the
value written has a zero for it (R76), and the unlisted bits take the value written (the model's choice between R28 and R102, log
entry 24). That an address outside table T3 is plain storage (log entry 9) and that the read leaves the port `rdata` alone (log entry
6) are the model's choices too. -/
def Obligations.SetbitAndClrbitModifyOneBit : Prop :=
  ∀ s : State, s.space.wf = true →
    (s.unit.addr.toNat % 4 ≠ 0 →
      exec .setbit s = .refused (.misalignedAddress s.unit.addr) ∧ exec .clrbit s = .refused (.misalignedAddress s.unit.addr)) ∧
    (s.unit.addr.toNat % 4 = 0 →
      (∃ t, exec .setbit s = .next t ∧ RmwPerformed s t s.unit.addr (fun v => v ||| 1#32 <<< s.unit.bit.val) s.effect ∧
        (t.inp.rst = false → s.unit.addr = s.c.aIntstat → IntstatFlagsAfterRmw s t (fun v => v ||| 1#32 <<< s.unit.bit.val))) ∧
      (∃ t, exec .clrbit s = .next t ∧ RmwPerformed s t s.unit.addr (fun v => v &&& ~~~(1#32 <<< s.unit.bit.val)) s.effect ∧
        (t.inp.rst = false → s.unit.addr = s.c.aIntstat → IntstatFlagsAfterRmw s t (fun v => v &&& ~~~(1#32 <<< s.unit.bit.val)))))

/-- R105: `POLLBIT` makes at most ceil(timeout_us / 100) iterations of wait, refresh, read, stops at the first matching read, and
returns whether there was one; the last value read is what the register holds afterwards; it writes nothing, and its counter is 0
afterwards (R38). A timeout of 0 does nothing. That the reads leave the port `rdata` alone is the model's choice (log entry 6). -/
def Obligations.PollbitPollsWithinItsBudget : Prop :=
  ∀ s : State,
    (s.unit.timeoutUs = 0 → exec .pollbit s = .next { s with unit := { s.unit with ok := false } }) ∧
    (s.unit.timeoutUs ≠ 0 → s.unit.addr.toNat % 4 ≠ 0 → exec .pollbit s = .refused (.misalignedAddress s.unit.addr)) ∧
    (s.unit.timeoutUs ≠ 0 → s.unit.addr.toNat % 4 = 0 → ∃ t vs ok, exec .pollbit s = .next t ∧
      PollRan s.unit.bit s.unit.expected ((s.unit.timeoutUs.toNat + 99) / 100) ok vs ∧
      vs.getLast? = some (t.space.readWord s.unit.addr) ∧
      Performed s t
        { s.effect with unit := { s.unit with ok := ok, pollIter := 0 }, events := pollEvents s.unit.addr vs })

/-- R106: `DELAY` waits one millisecond and refreshes the watchdog `ms` times, and changes nothing else; its counter is 0
afterwards (R38). That the environment, which R106 lets act during the delay, does so at its next opportunity and not inside the
operation is the model's choice (log entry 4). -/
def Obligations.DelayOnlyWaitsAndRefreshes : Prop :=
  ∀ s : State, ∃ t, exec .delay s = .next t ∧
    t = { s with
      unit := { s.unit with delayIter := 0 }
      out := { s.out with history := (delayEvents s.unit.ms.toNat).reverse ++ s.out.history } }

/-- R244 to R246: `PRINT m` appends the message's bytes and its event, `SETENV` stores the port `data` and appends its event,
`WDKICK` appends its event; nothing else changes. A message id above 7 is refused. -/
def Obligations.ServicesActOnTheirOutputsOnly : Prop :=
  ∀ (s : State) (m : BitVec 8),
    (m.toNat < 8 → exec (.print m) s = .next { s with
      out := { s.out with
        console := s.out.console ++ messageBytes m.toNat s.unit.parg
        history := .print (messageBytes m.toNat s.unit.parg) :: s.out.history } }) ∧
    (8 ≤ m.toNat → exec (.print m) s = .refused .reservedArgument) ∧
    exec .setenv s = .next { s with
      out := { s.out with envVar := some s.unit.data.toNat, history := .setEnv s.unit.data.toNat :: s.out.history } } ∧
    exec .wdkick s = .next { s with out := { s.out with history := .kick :: s.out.history } }

/-- R90, table T13: the exact strings; ids 0 and 6 have one directive, expanded as `fmtD` and `fmt08x` say. -/
def Obligations.MessagesAreTheExactStrings : Prop :=
  ∀ v : Word,
    messageBytes 0 v = textBytes "DDRCAL: Failure: " ++ fmtD v ++ textBytes "\n" ∧
    messageBytes 1 v = textBytes "DDRCAL: Retry\n" ∧
    messageBytes 2 v = textBytes "Error: Could Not Calibrate SDRAM\n" ∧
    messageBytes 3 v = textBytes "DDRCAL: Failed\n" ∧
    messageBytes 4 v = textBytes "DDRCAL: Success\n" ∧
    messageBytes 5 v = textBytes "FW: Error Configuring Firewall\n" ∧
    messageBytes 6 v = textBytes "Info: SDRAM ECC SBE @ 0x" ++ fmt08x v ++ textBytes "\n" ∧
    messageBytes 7 v = textBytes "Error: SDRAM ECC DBE occurred\n"

/-- R91: `%d` is the argument as a signed number in decimal with a leading `-` for a negative value and no padding; `%08x` is the
argument in eight lower-case hexadecimal digits. The rule marks these as the C convention, from outside its source (log entry
16). -/
def Obligations.DirectivesPrintTheArgument : Prop :=
  ∀ v : Word,
    (∃ ds : List Byte, fmtD v = (if v.toInt < 0 then [0x2D] else []) ++ ds ∧ ds ≠ [] ∧
      (∀ d ∈ ds, 0x30 ≤ d.toNat ∧ d.toNat ≤ 0x39) ∧ (ds.head? = some 0x30 → ds = [0x30]) ∧
      decimalValue ds = v.toInt.natAbs) ∧
    (fmt08x v).length = 8 ∧
    (∀ d ∈ fmt08x v, (0x30 ≤ d.toNat ∧ d.toNat ≤ 0x39) ∨ (0x61 ≤ d.toNat ∧ d.toNat ≤ 0x66)) ∧
    hexValue (fmt08x v) = v.toNat

/-! ## The handshake -/

/-- R121: `HS1` waits 500 ms and goes to `HS2`; no register is read or written. That the environment, which R121 (with R106 and
R300) lets act during the delay, does so at its next opportunity and not inside the operation, so that the Register Space and the
inputs are as before, is the model's choice (log entry 4, DESIGN CHOICE). -/
def Obligations.Hs1WaitsTheSettleTime : Prop :=
  decode 0x2100 = .ok .hs1 ∧
  ∀ s : State, ∃ t, exec .hs1 s = .next t ∧
    t = { s with
      regs := { s.regs with seqOp := 0x2200 }
      unit := { s.unit with delayIter := 0 }
      out := { s.out with history := (delayEvents 500).reverse ++ s.out.history } }

/-- R122, R124, R129, R133: `HS2` clears RSTOVR, `HS4` and `HS13` clear CALREQ, `HS9` clears DONE, each by one read and one write
that keep every other bit. -/
def Obligations.HandshakeStepsThatClearASignal : Prop :=
  decode 0x2200 = .ok .hs2 ∧ decode 0x2400 = .ok .hs4 ∧ decode 0x2900 = .ok .hs9 ∧ decode 0x2D00 = .ok .hs13 ∧
  ∀ s : State, s.space.wf = true →
    (∃ t, exec .hs2 s = .next t ∧ HostRmwPerformed s t s.c.aGpout (fun v => v &&& ~~~(1#32 <<< s.c.rstovrBit.val))
      { s.effect with regs := { s.regs with seqOp := 0x2300 } }) ∧
    (∃ t, exec .hs4 s = .next t ∧ HostRmwPerformed s t s.c.aGpout (fun v => v &&& ~~~(1#32 <<< s.c.calreqBit.val))
      { s.effect with regs := { s.regs with seqOp := 0x2500 } }) ∧
    (∃ t, exec .hs9 s = .next t ∧ HostRmwPerformed s t s.c.aC2s (fun v => v &&& ~~~(1#32 <<< s.c.doneBit.val))
      { s.effect with regs := { s.regs with seqOp := 0x2A00 } }) ∧
    (∃ t, exec .hs13 s = .next t ∧ HostRmwPerformed s t s.c.aGpout (fun v => v &&& ~~~(1#32 <<< s.c.calreqBit.val))
      { s.effect with regs := { s.regs with seqOp := 0x2E00 } })

/-- R125, R127, R131: `HS5` sets RSTOVR, `HS7` sets DONE, `HS11` sets CALREQ, each by one read and one write that keep every
other bit. -/
def Obligations.HandshakeStepsThatSetASignal : Prop :=
  decode 0x2500 = .ok .hs5 ∧ decode 0x2700 = .ok .hs7 ∧ decode 0x2B00 = .ok .hs11 ∧
  ∀ s : State, s.space.wf = true →
    (∃ t, exec .hs5 s = .next t ∧ HostRmwPerformed s t s.c.aGpout (fun v => v ||| 1#32 <<< s.c.rstovrBit.val)
      { s.effect with regs := { s.regs with seqOp := 0x2600 } }) ∧
    (∃ t, exec .hs7 s = .next t ∧ HostRmwPerformed s t s.c.aC2s (fun v => v ||| 1#32 <<< s.c.doneBit.val)
      { s.effect with regs := { s.regs with seqOp := 0x2800 } }) ∧
    (∃ t, exec .hs11 s = .next t ∧ HostRmwPerformed s t s.c.aGpout (fun v => v ||| 1#32 <<< s.c.calreqBit.val)
      { s.effect with regs := { s.regs with seqOp := 0x2C00 } })

/-- R123: `HS3` makes all 32 bits of C2S 0 by one plain write, with no read. -/
def Obligations.Hs3ZeroesTheOutboundRegister : Prop :=
  decode 0x2300 = .ok .hs3 ∧
  ∀ s : State, s.space.wf = true → ∃ t, exec .hs3 s = .next t ∧
    Performed s t
      { s.effect with regs := { s.regs with seqOp := 0x2400 }, events := [.busWrite s.c.aC2s 0], stored := [s.c.aC2s] } ∧
    (t.inp.rst = false → t.space.readWord s.c.aC2s = 0)

/-- R126, R128, R130, R132, with R260: the polls of steps 6, 8, 10 and 12, their budgets in reads, their codes −1 to −4, and their
successors; the last value read is what the register holds afterwards; no write occurs. -/
def Obligations.HandshakePollsSucceedOrAbortWithTheirCode : Prop :=
  decode 0x2600 = .ok .hs6 ∧ decode 0x2800 = .ok .hs8 ∧ decode 0x2A00 = .ok .hs10 ∧ decode 0x2C00 = .ok .hs12 ∧
  ∀ s : State,
    PollStep .hs6 s.c.aGpin s.c.calrdyBit true 10000 0xFFFFFFFF 0x2700 s ∧
    PollStep .hs8 s.c.aS2c s.c.reqackBit true 20000 0xFFFFFFFE 0x2900 s ∧
    PollStep .hs10 s.c.aS2c s.c.reqackBit false 20000 0xFFFFFFFD 0x2B00 s ∧
    PollStep .hs12 s.c.aGpin s.c.calrdyBit false 10 0xFFFFFFFC 0x2D00 s

/-- R134: `HS14` polls CALRDY for 1 with a budget of 2,000 reads; on a timeout, the last value read being what GPIN holds, it
aborts with code −5 and does nothing else; on success it sets DONE by one read and one write, waits 100 ms, makes `HSRC` 0 and goes
to `RC_STATPOLL`. -/
def Obligations.Hs14EndsTheHandshake : Prop :=
  decode 0x2E00 = .ok .hs14 ∧
  ∀ s : State, s.space.wf = true → ∃ t vs ok, exec .hs14 s = .next t ∧ PollRan s.c.calrdyBit true 2000 ok vs ∧
    (ok = false → vs.getLast? = some (t.space.readWord s.c.aGpin) ∧ Performed s t
      { s.effect with
        regs := { s.regs with hsrc := 0xFFFFFFFB, seqOp := 0x4200 }
        unit := { s.unit with pollIter := 0 }
        events := pollEvents s.c.aGpin vs }) ∧
    (ok = true →
      Performed s t
        { s.effect with
          regs := { s.regs with hsrc := 0, seqOp := 0x4300 }
          unit := { s.unit with pollIter := 0, delayIter := 0 }
          events := pollEvents s.c.aGpin vs ++
            [.busRead s.c.aC2s (s.space.readWord s.c.aC2s),
             .busWrite s.c.aC2s (s.space.readWord s.c.aC2s ||| 1#32 <<< s.c.doneBit.val)] ++ delayEvents 100
          stored := [s.c.aC2s] } ∧
      (t.inp.rst = false →
        t.space.readWord s.c.aC2s = s.space.readWord s.c.aC2s ||| 1#32 <<< s.c.doneBit.val))

/-- R136, R137: a handshake step accesses only the handshake set, writes only C2S and GPOUT, writes no flag of table T8, and
leaves every byte alone that belongs to neither of them nor to a register the environment may change. -/
def Obligations.HandshakeTouchesOnlyTheHandshakeSet : Prop :=
  ∀ (i : Instr) (s t : State), i.isHandshake = true → exec i s = .next t →
    (∃ es, t.trace = s.trace ++ es ∧ (∀ a ∈ busAddrs es, a ∈ s.c.handshakeAddrs) ∧
      (∀ a ∈ writeAddrs es, a = s.c.aC2s ∨ a = s.c.aGpout)) ∧
    (t.inp.rst = false → ∀ x, envByte s.c x = false → byteOfReg s.c.aC2s x = false → byteOfReg s.c.aGpout x = false →
      t.space.readByte x = s.space.readByte x) ∧
    t.regs = { s.regs with hsrc := t.regs.hsrc, seqOp := t.regs.seqOp }

/-! ## The retry controller and the boot flow -/

/-- R151: `RC_GATE` makes one read of SILICONID and no write. On a match of all 32 bits it clears `ATT` and `CALOK` and goes to
`RC_ATTEMPT`; otherwise it makes `RCRC` 0 and goes to `BOOT_REPORT`. -/
def Obligations.GateComparesTheWholeSiliconId : Prop :=
  decode 0x4000 = .ok .rcGate ∧
  ∀ s : State, ∃ t v, exec .rcGate s = .next t ∧
    Performed s t
      { s.effect with
        regs := if v = s.c.erratumId then { s.regs with att := 0, calok := false, seqOp := 0x4100 }
          else { s.regs with rcrc := 0, seqOp := 0x4600 }
        events := [.busRead s.c.aSiliconid v] } ∧
    (t.inp.rst = false → s.c.aSiliconid ∉ envAddrs s.c → v = s.space.readWord s.c.aSiliconid)

/-- R152, R153, R155, R156 with R261, R157 with R243: the operations of the retry controller and of the boot flow that make no bus
transaction, in full. -/
def Obligations.RetryControllerDecisions : Prop :=
  ∀ s : State,
    exec .rcAttempt s = .next { s with
      regs := if s.regs.att.toNat < 3 then { s.regs with pj := 0, seqOp := 0x2100 } else { s.regs with seqOp := 0x4500 } } ∧
    exec .rcHsfail s = .next { s with
      regs := { s.regs with att := s.regs.att + 1, seqOp := 0x4100 }
      out := { s.out with
        console := s.out.console ++ messageBytes 0 s.regs.hsrc
        history := .print (messageBytes 0 s.regs.hsrc) :: s.out.history } } ∧
    exec .rcRetry s = .next { s with
      regs := { s.regs with att := s.regs.att + 1, seqOp := 0x4100 }
      out := { s.out with
        console := s.out.console ++ messageBytes 1 0
        history := .print (messageBytes 1 0) :: s.out.history } } ∧
    (s.regs.calok = true → exec .rcFinish s = .next { s with regs := { s.regs with rcrc := 0, seqOp := 0x4600 } }) ∧
    (s.regs.calok = false → exec .rcFinish s = .next { s with
      regs := { s.regs with rcrc := 0xFFFFFFFF, seqOp := 0x4600 }
      out := { s.out with
        console := s.out.console ++ messageBytes 2 0
        history := .print (messageBytes 2 0) :: s.out.history } }) ∧
    (s.regs.rcrc = 0 → exec .bootReport s = .next { s with
      regs := { s.regs with seqOp := 0x6000 }
      out := { s.out with
        console := s.out.console ++ messageBytes 4 0
        history := .print (messageBytes 4 0) :: s.out.history } }) ∧
    (s.regs.rcrc ≠ 0 → exec .bootReport s = .next { s with
      regs := { s.regs with halted := true, haltCause := .calExhaust, seqOp := 0xE300 }
      out := { s.out with
        console := s.out.console ++ messageBytes 3 0
        history := .halt .calExhaust :: .print (messageBytes 3 0) :: s.out.history } })

/-- R154: `RC_STATPOLL` waits 500 ms, reads CALSTAT once, counts the poll, and goes on by the bit read and then by the count. -/
def Obligations.StatusPollWaitsReadsAndDecides : Prop :=
  decode 0x4300 = .ok .rcStatpoll ∧
  ∀ s : State, ∃ t v, exec .rcStatpoll s = .next t ∧
    Performed s t
      { s.effect with
        regs :=
          if bit v s.c.calstatBit = true then { s.regs with pj := s.regs.pj + 1, calok := true, seqOp := 0x4500 }
          else if s.regs.pj + 1 = 10 then { s.regs with pj := s.regs.pj + 1, seqOp := 0x4400 }
          else { s.regs with pj := s.regs.pj + 1, seqOp := 0x4300 }
        unit := { s.unit with delayIter := 0 }
        events := delayEvents 500 ++ [.busRead s.c.aCalstat v] } ∧
    v = t.space.readWord s.c.aCalstat

/-! ## The timing configurator -/

/-- R171: `TC_LOAD` makes 19 reads, one for each field in the order of table T4, latches of each value read the field's bits, and
goes to `TC_GEOM`; it writes no register. -/
def Obligations.LoadLatchesEveryRawField : Prop :=
  decode 0x6000 = .ok .tcLoad ∧
  ∀ s : State, ∃ (t : State) (vs : RawTable Word) (raw : RawTable Word), exec .tcLoad s = .next t ∧
    Performed s t
      { s.effect with
        regs := { s.regs with raw := raw, seqOp := 0x6100 }
        events := rawFieldOrder.map (fun f => .busRead (rawGet s.c.raw f).addr (rawGet vs f)) } ∧
    ∀ f, (rawGet raw f).toNat =
      (rawGet vs f).toNat / 2 ^ (rawGet s.c.raw f).lsb % 2 ^ (rawGet s.c.raw f).width

/-- R186: the lookup gives the index of the first pair with the key, in table order, and 0 if there is none. -/
def Obligations.GeometryLookupTakesTheFirstMatch : Prop :=
  ∀ (k : GeomKey) (table : List (GeomKey × Word)),
    ((∀ p ∈ table, p.1 ≠ k) → geomLookup k table = 0) ∧
    (∀ before after idx, table = before ++ (k, idx) :: after → (∀ p ∈ before, p.1 ≠ k) → geomLookup k table = idx)

/-- R172: `TC_GEOM` looks the key of the latched fields up, its bank component the sum of the two widths, and writes the field
`O_DDRCONF` with the index; with index 0 there is no bus transaction. -/
def Obligations.GeometrySelectsTheConfiguration : Prop :=
  decode 0x6100 = .ok .tcGeom ∧
  ∀ (s : State) (idx : Word), s.space.wf = true →
    idx = geomLookup
      ⟨s.regs.raw.order.toNat, s.regs.raw.bankw.toNat + s.regs.raw.bgw.toNat, s.regs.raw.colw.toNat, s.regs.raw.roww.toNat⟩
      s.c.geomTable →
    (idx = 0 → exec .tcGeom s = .next { s with regs := { s.regs with geomidx := 0, seqOp := 0x6200 } }) ∧
    (idx ≠ 0 → ∃ t, exec .tcGeom s = .next t ∧
      RmwPerformed s t s.c.out.ddrconf.addr (fun r => insertField s.c.out.ddrconf r idx)
        { s.effect with regs := { s.regs with geomidx := idx, seqOp := 0x6200 } })

/-- R173, R174, R184: the two derived timing values, on 32 bits with wrap and with quotients rounded down, each kept whole in its
working register and written to its field. -/
def Obligations.DerivedTimingValues : Prop :=
  decode 0x6200 = .ok .tcRd2miss ∧ decode 0x6300 = .ok .tcWr2miss ∧
  ∀ (s : State) (v h w : Word), s.space.wf = true →
    v = s.regs.raw.rd2pch + s.regs.raw.pch2valid + s.regs.raw.act2rdwr - s.regs.raw.burstlen / 4 →
    h = (s.regs.raw.rdlat + 2 + 15 + s.regs.raw.burstlen / 2) / 2 →
    w = h - s.regs.raw.rd2wr + s.regs.raw.act2rdwr + s.regs.raw.pch2valid →
    (∃ t, exec .tcRd2miss s = .next t ∧
      RmwPerformed s t s.c.out.rd2miss.addr (fun r => insertField s.c.out.rd2miss r v)
        { s.effect with regs := { s.regs with derRd2miss := v, seqOp := 0x6300 } }) ∧
    (∃ t, exec .tcWr2miss s = .next t ∧
      RmwPerformed s t s.c.out.wr2miss.addr (fun r => insertField s.c.out.wr2miss r w)
        { s.effect with regs := { s.regs with derWr2miss := w, seqOp := 0x6400 } })

/-- R175 to R182, R185: the copied fields and the constant bank count, each by one read and one write of its register. -/
def Obligations.CopiedTimingFields : Prop :=
  decode 0x6400 = .ok .tcAct2act ∧ decode 0x6500 = .ok .tcBusrd2rd ∧ decode 0x6600 = .ok .tcBusrd2wr ∧
  decode 0x6700 = .ok .tcBuswr2rd ∧ decode 0x6800 = .ok .tcBwratio ∧ decode 0x6900 = .ok .tcBwratioext ∧
  decode 0x6A00 = .ok .tcFaw ∧ decode 0x6B00 = .ok .tcFawbank ∧
  ∀ s : State, s.space.wf = true →
    FieldStep .tcAct2act s.c.out.act2act s.regs.raw.act2act 0x6500 s ∧
    FieldStep .tcBusrd2rd s.c.out.busrd2rd s.regs.raw.rd2rdDd 0x6600 s ∧
    FieldStep .tcBusrd2wr s.c.out.busrd2wr s.regs.raw.rd2wrDd 0x6700 s ∧
    FieldStep .tcBuswr2rd s.c.out.buswr2rd s.regs.raw.wr2rdDd 0x6800 s ∧
    FieldStep .tcBwratio s.c.out.bwratio s.regs.raw.bwratio 0x6900 s ∧
    FieldStep .tcBwratioext s.c.out.bwratioext s.regs.raw.bwratioext 0x6A00 s ∧
    FieldStep .tcFaw s.c.out.faw s.regs.raw.faw 0x6B00 s ∧
    FieldStep .tcFawbank s.c.out.fawbank 1 0x6C00 s

/-- R96: extraction reads the field's bits and nothing else; insertion replaces exactly the field's bits by the low bits of the
value. -/
def Obligations.FieldsAreExtractedAndInserted : Prop :=
  ∀ (f : FieldLoc) (r v : Word), f.fits = true →
    (∀ j < 32, (extract f r).getLsbD j = (decide (j < f.width) && r.getLsbD (f.lsb + j))) ∧
    (∀ j < 32, (insertField f r v).getLsbD j =
      if f.lsb ≤ j ∧ j < f.lsb + f.width then v.getLsbD (j - f.lsb) else r.getLsbD j)

/-- R183, table T7: `TC_SIZE` computes 2^e, reads it as a signed number of `SIZE_W` bits, and replaces a non-positive size by the
platform default; `SIZE_OUT` is a signed number of `SIZE_W` bits for every default, one that does not fit leaving an unstated number
(the model's choice, log entry 17); no bus transaction. The last three clauses are the rule's cases of e. -/
def Obligations.SizeIsSignedAndDefaulted : Prop :=
  decode 0x6C00 = .ok .tcSize ∧
  ∀ (s : State) (e W : Nat) (size : Int),
    e = s.regs.raw.colw.toNat + s.regs.raw.roww.toNat + s.regs.raw.bankw.toNat + s.regs.raw.bgw.toNat +
      s.regs.raw.iowidth.toNat + 1 →
    W = s.c.sizeW.bits → size = Int.bmod (2 ^ e) (2 ^ W) →
    (∃ out : Int,
      exec .tcSize s = .next { s with regs := { s.regs with size := size, sizeOut := out, seqOp := 0x8000 } } ∧
      (0 < size → out = size) ∧
      (size ≤ 0 → -2 ^ (W - 1) ≤ s.c.defaultDramSize → s.c.defaultDramSize < 2 ^ (W - 1) → out = s.c.defaultDramSize) ∧
      -2 ^ (W - 1) ≤ out ∧ out < 2 ^ (W - 1)) ∧
    (e < W - 1 → size = 2 ^ e) ∧ (e = W - 1 → size = -2 ^ (W - 1)) ∧ (W ≤ e → size = 0)

/-! ## The firewall configurator -/

/-- R202: `FW_DENY` writes 0 to FWEN0 and then to FWEN1, with no read; both then read 0. -/
def Obligations.DenyClosesBothBlocks : Prop :=
  decode 0x8000 = .ok .fwDeny ∧
  ∀ s : State, s.space.wf = true → ∃ t, exec .fwDeny s = .next t ∧
    Performed s t
      { s.effect with
        regs := { s.regs with seqOp := 0x8100 }
        events := [.busWrite s.c.aFwen0 0, .busWrite s.c.aFwen1 0]
        stored := [s.c.aFwen0, s.c.aFwen1] } ∧
    (t.inp.rst = false → (s.c.aFwen0 ∉ envAddrs s.c → t.space.readWord s.c.aFwen0 = 0) ∧
      (s.c.aFwen1 ∉ envAddrs s.c → t.space.readWord s.c.aFwen1 = 0))

/-- R203, R205, R262: `FW_CHECK` sets the status by the shape of the board configuration, `FW_REPORT` prints message 5 exactly for a
non-zero status and goes on to `ARM`; neither makes a bus transaction. -/
def Obligations.FirewallStatusIsSetAndReported : Prop :=
  decode 0x8100 = .ok .fwCheck ∧ decode 0x8300 = .ok .fwReport ∧
  ∀ s : State,
    (s.board = .noNode → exec .fwCheck s = .next { s with regs := { s.regs with fwrc := 2, seqOp := 0x8300 } }) ∧
    (s.board = .noChild → exec .fwCheck s = .next { s with regs := { s.regs with fwrc := 1, seqOp := 0x8300 } }) ∧
    (∀ m, s.board = .regions m → exec .fwCheck s = .next { s with regs := { s.regs with fwrc := 0, seqOp := 0x8200 } }) ∧
    (s.regs.fwrc = 0 → exec .fwReport s = .next { s with regs := { s.regs with seqOp := 0xE100 } }) ∧
    (s.regs.fwrc ≠ 0 → exec .fwReport s = .next { s with
      regs := { s.regs with seqOp := 0xE100 }
      out := { s.out with
        console := s.out.console ++ messageBytes 5 0
        history := .print (messageBytes 5 0) :: s.out.history } })

/-- R201: a region is present exactly if the board configuration has the third shape and its value for the name is a pair; a value
of another length is absent. The model's choices are that every name is absent in the other two shapes (log entry 13) and that the
first entry with the name counts (log entry 14). -/
def Obligations.BoardLookupFindsPairsOnly : Prop :=
  ∀ (name : RegionName) (before after : List (RegionName × List Word)) (vals : List Word),
    boardLookup .noNode name = none ∧ boardLookup .noChild name = none ∧
    ((∀ p ∈ before, p.1 ≠ name) → boardLookup (.regions before) name = none) ∧
    ((∀ p ∈ before, p.1 ≠ name) →
      (∀ st fin, vals = [st, fin] → boardLookup (.regions (before ++ (name, vals) :: after)) name = some (st, fin)) ∧
      (vals.length ≠ 2 → boardLookup (.regions (before ++ (name, vals) :: after)) name = none))

/-- R204, R88: `FW_REGION e` of an absent entry does nothing but go on; of a present one it writes the region word to the entry's
configuration register and then sets the entry's enable bit by one read and one write. An index above 23 is refused. -/
def Obligations.RegionIsProgrammedIfPresent : Prop :=
  ∀ (s : State) (e : BitVec 8), s.space.wf = true →
    (24 ≤ e.toNat → exec (.fwRegion e) s = .refused .reservedArgument) ∧
    (e.toNat < 24 → ∃ (E : FwEntry) (nxt : OpWord), s.c.fwTable[e.toNat]? = some E ∧
      nxt.toNat = (if e.toNat < 23 then 0x8200 + (e.toNat + 1) else 0x8300) ∧
      (boardLookup s.board E.name = none →
        exec (.fwRegion e) s = .next { s with regs := { s.regs with seqOp := nxt } }) ∧
      (∀ st fin word, boardLookup s.board E.name = some (st, fin) →
        word = (st &&& s.c.fwStartMask) ||| (fin <<< s.c.fwEndShift.val) →
        ∃ t v, exec (.fwRegion e) s = .next t ∧
          Performed s t
            { s.effect with
              regs := { s.regs with seqOp := nxt }
              events := [.busWrite E.aCfg word, .busRead E.aEn v, .busWrite E.aEn (v ||| 1#32 <<< E.enBit.val)]
              stored := [E.aCfg, E.aEn] } ∧
          (t.inp.rst = false →
            (E.aCfg ∉ envAddrs s.c → t.space.readWord E.aCfg = word) ∧
            (E.aEn ∉ envAddrs s.c → v = s.space.readWord E.aEn ∧
              t.space.readWord E.aEn = s.space.readWord E.aEn ||| 1#32 <<< E.enBit.val))))

/-- R206: in a record whose registers do not overlap, `FW_DENY` leaves both blocks closed, and each `FW_REGION e` extends what
holds of the entries below e to entry e, so that at `FW_REPORT` exactly the present entries are enabled, with their words. -/
def Obligations.FirewallEnablesExactlyThePresentEntries : Prop :=
  ∀ s t : State, s.space.wf = true → separated s.c = true → s.inp.rst = false → step s = .next t → t.inp.rst = false →
    (s.fetch = .ok (.fwDeny, s) → FirewallUpTo 0 t) ∧
    (s.fetch = .ok (.fwCheck, s) → FirewallUpTo 0 s → FirewallUpTo 0 t) ∧
    (∀ e, s.fetch = .ok (.fwRegion e, s) → FirewallUpTo e.toNat s → FirewallUpTo (e.toNat + 1) t)

/-! ## The ECC handler -/

/-- R221: `ECC_ENTRY` reads INTSTAT once and latches the whole value; a flag that was set before the operation is set in the
value read, since the hardware sets flags and never clears them (R68). -/
def Obligations.EntryLatchesTheStatus : Prop :=
  decode 0xA000 = .ok .eccEntry ∧
  ∀ s : State, ∃ t v, exec .eccEntry s = .next t ∧
    Performed s t
      { s.effect with regs := { s.regs with istat := v, seqOp := 0xA100 }, events := [.busRead s.c.aIntstat v] } ∧
    (s.space.wf = true → t.inp.rst = false → s.c.aIntstat ∉ partnerAddrs s.c → ∀ b, b = s.c.sbeBit ∨ b = s.c.dbeBit →
      bit (s.space.readWord s.c.aIntstat) b = true → bit v b = true)

/-- R222, R223: with its flag clear in the latch, `ECC_SBE` and `ECC_DBE` only go on. With its flag set, `ECC_SBE` reads and
latches the address, as the register stands at that read, prints it, adds the count it reads modulo 2^`CNT_W` and persists the
counter; `ECC_DBE` prints message 7, reads and latches the address, and reports the counter. -/
def Obligations.ErrorPathsCountAndReport : Prop :=
  decode 0xA100 = .ok .eccSbe ∧ decode 0xA200 = .ok .eccDbe ∧
  ∀ s : State,
    (bit s.regs.istat s.c.sbeBit = false → exec .eccSbe s = .next { s with regs := { s.regs with seqOp := 0xA200 } }) ∧
    (bit s.regs.istat s.c.sbeBit = true → ∃ (t : State) (a n : Word) (total : Nat), exec .eccSbe s = .next t ∧
      total = (s.regs.cnt + n.toNat) % 2 ^ s.c.cntW ∧
      Performed s t
        { s.effect with
          regs := { s.regs with sbeAddrL := a, cnt := total, seqOp := 0xA200 }
          console := messageBytes 6 a
          envVar := some total
          events := [.busRead s.c.aSbeAddr a, .print (messageBytes 6 a), .busRead s.c.aSbeCnt n, .setEnv total] } ∧
      a = s.envPoint.space.readWord s.c.aSbeAddr ∧ n = t.space.readWord s.c.aSbeCnt) ∧
    (bit s.regs.istat s.c.dbeBit = false → exec .eccDbe s = .next { s with regs := { s.regs with seqOp := 0xA300 } }) ∧
    (bit s.regs.istat s.c.dbeBit = true → ∃ (t : State) (a : Word), exec .eccDbe s = .next t ∧
      Performed s t
        { s.effect with
          regs := { s.regs with dbeAddrL := a, dbeCntL := s.regs.cnt, seqOp := 0xA300 }
          console := messageBytes 7 0
          events := [.print (messageBytes 7 0), .busRead s.c.aDbeAddr a] } ∧
      a = t.space.readWord s.c.aDbeAddr)

/-- R224, R89: `ECC_CLEAR` runs whatever the latch holds: a pulse of CNTRST, two reads and two writes of ECCCTRL, then one write to
INTSTAT with ones in the two flag positions, after which both flags are 0. -/
def Obligations.ClearSequenceRunsWhateverTheFlags : Prop :=
  decode 0xA300 = .ok .eccClear ∧
  ∀ (s : State) (m flags : Word), s.space.wf = true → m = 1#32 <<< s.c.cntrstBit.val →
    flags = (1#32 <<< s.c.sbeBit.val) ||| (1#32 <<< s.c.dbeBit.val) →
    ∃ t v w, exec .eccClear s = .next t ∧
      Performed s t
        { s.effect with
          regs := { s.regs with seqOp := 0xA400 }
          events := [.busRead s.c.aEccctrl v, .busWrite s.c.aEccctrl (v ||| m), .busRead s.c.aEccctrl w,
            .busWrite s.c.aEccctrl (w &&& ~~~m), .busWrite s.c.aIntstat flags]
          stored := [s.c.aEccctrl] } ∧
      (t.inp.rst = false →
        bit (t.space.readWord s.c.aIntstat) s.c.sbeBit = false ∧ bit (t.space.readWord s.c.aIntstat) s.c.dbeBit = false ∧
        (s.c.aEccctrl ∉ envAddrs s.c → v = s.space.readWord s.c.aEccctrl ∧ w = v ||| m ∧
          t.space.readWord s.c.aEccctrl = w &&& ~~~m))

/-- R225, R270: `ECC_EXIT` with the double-bit flag not latched returns to `STEADY` with nothing restored; with it latched it clears
the bits of `ECC_INTEN_MASK` in ERRINTEN by one read and one write and halts with cause 2, `SEQ.ctx` staying IRQ. In context IRQ
(R273) PLATFORM does not write ERRINTEN (R68, R301). -/
def Obligations.ExitReturnsOrDisablesAndHalts : Prop :=
  decode 0xA400 = .ok .eccExit ∧
  ∀ s : State, s.space.wf = true →
    (bit s.regs.istat s.c.dbeBit = false → exec .eccExit s = .next { s with
      regs := { s.regs with insvc := false, ctx := .main, seqOp := 0xE200 }
      out := { s.out with history := .irqReturn :: s.out.history } }) ∧
    (bit s.regs.istat s.c.dbeBit = true → ∃ t, exec .eccExit s = .next t ∧
      RmwPerformed s t s.c.aErrinten (fun v => v &&& ~~~s.c.eccIntenMask)
        { s.effect with
          regs := { s.regs with halted := true, haltCause := .eccDbe, seqOp := 0xE300 }
          events := [.halt .eccDbe] } ∧
      (t.inp.rst = false → s.context = .irq → s.c.aErrinten ∉ partnerAddrs s.c → s.c.aErrinten ≠ s.c.aIntstat →
        s.c.aErrinten ≠ s.c.aEccctrl →
        t.space.readWord s.c.aErrinten = s.space.readWord s.c.aErrinten &&& ~~~s.c.eccIntenMask))

/-! ## System operations, the interrupt, contexts -/

/-- R240 to R243, R267, R269: `IDLE`, `ARM`, `STEADY` and `HALT` in full; none makes a bus transaction. -/
def Obligations.SystemOperationsWaitArmAndHalt : Prop :=
  decode 0xE000 = .ok .idle ∧ decode 0xE100 = .ok .arm ∧ decode 0xE200 = .ok .steady ∧ decode 0xE300 = .ok .halt ∧
  ∀ s : State,
    exec .idle s = .next { s with regs := { s.regs with seqOp := if s.inp.start = true then 0x4000 else 0xE000 } } ∧
    exec .arm s = .next { s with regs := { s.regs with armed := true, seqOp := 0xE200 } } ∧
    (s.inp.eccIrq = true ∧ s.regs.armed = true ∧ s.regs.insvc = false ∧ s.regs.halted = false →
      exec .steady s = .next { s with
        regs := { s.regs with insvc := true, ctx := .irq, seqOp := 0xA000 }
        out := { s.out with history := .irqEnter :: s.out.history } }) ∧
    (¬(s.inp.eccIrq = true ∧ s.regs.armed = true ∧ s.regs.insvc = false ∧ s.regs.halted = false) →
      exec .steady s = .next { s with regs := { s.regs with seqOp := 0xE200 } }) ∧
    exec .halt s = .next { s with regs := { s.regs with seqOp := 0xE300 } }

/-- R267, R271: an operation appends `IrqEnter` exactly if it is `STEADY` with `ecc_irq` and `ARMED` 1 and `INSVC` and `HALTED`
0; so the interrupt is never accepted inside the handler. -/
def Obligations.InterruptIsAcceptedExactlyInSteady : Prop :=
  ∀ (i : Instr) (s t : State), exec i s = .next t →
    ∃ es, t.trace = s.trace ++ es ∧
      (.irqEnter ∈ es ↔
        i = .steady ∧ s.inp.eccIrq = true ∧ s.regs.armed = true ∧ s.regs.insvc = false ∧ s.regs.halted = false)

/-- R264: the only two ways into the halted state are `BOOT_REPORT` with `RCRC` ≠ 0, with cause 1, and `ECC_EXIT` with the
double-bit flag latched, with cause 2. -/
def Obligations.HaltIsEnteredInTwoWaysOnly : Prop :=
  ∀ s t : State, step s = .next t → s.regs.halted = false → t.regs.halted = true →
    (s.fetch = .ok (.bootReport, s) ∧ s.regs.rcrc ≠ 0 ∧ t.regs.haltCause = .calExhaust) ∨
    (s.fetch = .ok (.eccExit, s) ∧ bit s.regs.istat s.c.dbeBit = true ∧ t.regs.haltCause = .eccDbe)

/-- R243: `HALT` is absorbing: while `rst` stays low a halted block whose `SEQ.op` holds the word of a class S operation (which it
always does, R23; `StepKeepsTheInvariant`) keeps every working register, flag and output, appends no event and stores nothing. That
it does so also where that word is not `HALT`'s is the model's choice (log entry 8). -/
def Obligations.HaltIsAbsorbingUntilReset : Prop :=
  ∀ (s : State) (i : Instr), s.regs.halted = true → s.inp.rst = false → decode s.regs.seqOp = .ok i →
    i.opClass = .sequencerState → ∃ t, step s = .next t ∧
    (t.inp.rst = false →
      t.regs = { s.regs with seqOp := 0xE300 } ∧ t.unit = s.unit ∧ t.out = s.out ∧ t.haltOut = true ∧
      ∀ x, envByte s.c x = false → t.space.readByte x = s.space.readByte x)

/-- R21: the counter is 0 at reset; a step changes it only by running `ECC_SBE`, which adds to it, modulo 2^`CNT_W`, the value of its
read of SBECNT and nothing else, or by a reset. -/
def Obligations.CounterIsWrittenByTheHandlerOnly : Prop :=
  State.reset.regs.cnt = 0 ∧
  ∀ s t : State, step s = .next t → t.regs.cnt ≠ s.regs.cnt →
    (t.inp.rst = true ∧ t.regs.cnt = 0) ∨ (s.inp.rst = true ∧ t.regs.cnt = 0) ∨
    (s.fetch = .ok (.eccSbe, s) ∧ bit s.regs.istat s.c.sbeBit = true ∧
      ∃ a n : Word, t.regs.cnt = (s.regs.cnt + n.toNat) % 2 ^ s.c.cntW ∧
        t.trace = s.trace ++
          [.busRead s.c.aSbeAddr a, .print (messageBytes 6 a), .busRead s.c.aSbeCnt n, .setEnv t.regs.cnt])

/-- R274: an operation of class S accesses only registers of its context's set. -/
def Obligations.ContextsKeepToTheirRegisters : Prop :=
  ∀ (i : Instr) (s t : State), i.opClass = .sequencerState → exec i s = .next t →
    ∃ es, t.trace = s.trace ++ es ∧ ∀ a ∈ busAddrs es, a ∈ contextAddrs s.c (contextOf i)

/-- R68: at one opportunity with `rst` low, the environment leaves every register alone that it has no right to, sets but never
clears the two flags of INTSTAT, and sets but never clears bits of ERRINTEN, and those only outside context IRQ (R273; that a block
halted from the handler is in context HALTED here is the model's choice, log entry 25). -/
def Obligations.EnvironmentKeepsToItsRights : Prop :=
  ∀ s : State, s.space.wf = true → s.inp.rst = false →
    (∀ a : Addr, a.toNat % 4 = 0 → a ∉ envAddrs s.c → s.envPoint.space.readWord a = s.space.readWord a) ∧
    (s.c.aIntstat ∉ partnerAddrs s.c → ∀ b, b = s.c.sbeBit ∨ b = s.c.dbeBit →
      bit (s.space.readWord s.c.aIntstat) b = true → bit (s.envPoint.space.readWord s.c.aIntstat) b = true) ∧
    (s.c.aErrinten ∉ partnerAddrs s.c → s.c.aErrinten ≠ s.c.aIntstat →
      (∀ b, bit (s.space.readWord s.c.aErrinten) b = true → bit (s.envPoint.space.readWord s.c.aErrinten) b = true) ∧
      (s.context = .irq → s.envPoint.space.readWord s.c.aErrinten = s.space.readWord s.c.aErrinten))

/-- R26, R68, R274: in a record whose registers do not overlap, the environment has a right to no HOST-owned register and not to
SILICONID, and the registers of contexts MAIN and IRQ are disjoint. -/
def Obligations.SeparatedRecordsKeepOwnersApart : Prop :=
  ∀ c : Cfg, separated c.data = true →
    (∀ a ∈ hostAddrs c.data, a ∉ envAddrs c.data) ∧ c.data.aSiliconid ∉ envAddrs c.data ∧
    (∀ a ∈ contextAddrs c.data .main, a ∉ contextAddrs c.data .irq)

/-- R299, R309: an operation of class S refreshes the watchdog as often as it waits, only the delays and the polls wait, and `HS1`
and `RC_STATPOLL` wait 500 times. -/
def Obligations.EveryWaitRefreshesTheWatchdog : Prop :=
  ∀ (i : Instr) (s t : State), i.opClass = .sequencerState → exec i s = .next t →
    ∃ es, t.trace = s.trace ++ es ∧ waitCount es = kickCount es ∧
      (waitCount es ≠ 0 → i ∈ [.hs1, .hs6, .hs8, .hs10, .hs12, .hs14, .rcStatpoll]) ∧
      (i = .hs1 ∨ i = .rcStatpoll → waitCount es = 500)

/-- R226: no operation of the handler waits, and each makes a bounded number of bus transactions: 1 at entry, 2 on the single-bit
path, 1 on the double-bit path, 5 in the clear sequence, 2 in the disable. -/
def Obligations.HandlerNeverWaits : Prop :=
  ∀ (i : Instr) (s t : State), i.isHandler = true → exec i s = .next t →
    ∃ es, t.trace = s.trace ++ es ∧ waitCount es = 0 ∧
      (busAddrs es).length ≤ (match i with | .eccSbe => 2 | .eccDbe => 1 | .eccClear => 5 | .eccExit => 2 | _ => 1)

/-- R249: a bring-up run that has ended either passed or failed, and not both: it failed exactly if it ended in `HALT` with cause 1,
and a run that ended in `STEADY`, or in `HALT` with cause 2, passed. -/
def Obligations.EndedRunsPassedOrFailed : Prop :=
  ∀ s : State, Inv s → s.runEnded = true →
    s.runPassed = !s.runFailed ∧ (s.runFailed = true ↔ s.op? = some .halt ∧ s.regs.haltCause = .calExhaust) ∧
    (s.op? = some .steady → s.runPassed = true) ∧ (s.regs.haltCause = .eccDbe → s.runPassed = true)
end

