-- ==== Sys2Proof/Laws/Memory.lean ====
section
/-! SUPPORT. The Register Space: a read after a write to the same place gives the value written, a write leaves every other
place alone, and every memory operation keeps the canonical form. -/

namespace Sys2Proof.Machine

/-! ## The list of cells -/

theorem cellsGet_cellsPut_ne (dflt : Byte) {a x : Nat} (b : Byte) (h : x ≠ a) (l : List Host.Cell) :
    cellsGet x (cellsPut dflt a b l) = cellsGet x l := by
  induction l with
  | nil => by_cases hb : b = dflt <;> simp [cellsPut, cellsGet, hb, Ne.symm h]
  | cons c rest ih =>
    simp only [cellsPut]
    split
    · split <;> simp [cellsGet, Ne.symm h]
    · split
      · rename_i hac
        split <;> simp [cellsGet, ← hac, Ne.symm h]
      · simp [cellsGet, ih]

theorem cellsRising_mono {lo lo' : Nat} (h : lo' ≤ lo) {l : List Host.Cell} (hl : cellsRising lo l = true) :
    cellsRising lo' l = true := by
  cases l with
  | nil => rfl
  | cons c rest =>
    simp only [cellsRising, Bool.and_eq_true, decide_eq_true_eq] at hl ⊢
    exact ⟨by omega, hl.2⟩

theorem cellsGet_of_lt {lo a : Nat} (h : a < lo) {l : List Host.Cell} (hl : cellsRising lo l = true) :
    cellsGet a l = none := by
  induction l generalizing lo with
  | nil => rfl
  | cons c rest ih =>
    simp only [cellsRising, Bool.and_eq_true, decide_eq_true_eq] at hl
    have : c.1 ≠ a := by omega
    simp only [cellsGet, this, if_false]
    exact ih (by omega) hl.2

theorem cellsGet_cellsPut_same (dflt : Byte) (a : Nat) (b : Byte) {lo : Nat} {l : List Host.Cell}
    (hl : cellsRising lo l = true) : (cellsGet a (cellsPut dflt a b l)).getD dflt = b := by
  induction l generalizing lo with
  | nil => by_cases hb : b = dflt <;> simp [cellsPut, cellsGet, hb]
  | cons c rest ih =>
    simp only [cellsRising, Bool.and_eq_true, decide_eq_true_eq] at hl
    simp only [cellsPut]
    split
    · rename_i hlt
      split
      · rename_i hb
        have : cellsGet a (c :: rest) = none :=
          cellsGet_of_lt (lo := c.1) hlt (by simp [cellsRising, hl.2])
        simp [this, hb]
      · simp [cellsGet]
    · split
      · rename_i hac
        split
        · rename_i hb
          have : cellsGet a rest = none := cellsGet_of_lt (lo := c.1 + 1) (by omega) hl.2
          simp [this, hb]
        · simp [cellsGet]
      · rename_i hlt hac
        have : c.1 ≠ a := fun e => hac e.symm
        simp only [cellsGet, this, if_false]
        exact ih hl.2

theorem cellsRising_cellsPut (dflt : Byte) {a lo : Nat} (b : Byte) {l : List Host.Cell} (ha : lo ≤ a)
    (hl : cellsRising lo l = true) : cellsRising lo (cellsPut dflt a b l) = true := by
  induction l generalizing lo with
  | nil => by_cases hb : b = dflt <;> simp [cellsPut, cellsRising, hb, ha]
  | cons c rest ih =>
    simp only [cellsRising, Bool.and_eq_true, decide_eq_true_eq] at hl
    simp only [cellsPut]
    split
    · rename_i hlt
      split
      · simp [cellsRising, hl]
      · simp only [cellsRising, Bool.and_eq_true, decide_eq_true_eq]
        exact ⟨ha, by omega, hl.2⟩
    · split
      · rename_i hac
        split
        · exact cellsRising_mono (by omega) hl.2
        · simp only [cellsRising, Bool.and_eq_true, decide_eq_true_eq]
          exact ⟨ha, hac ▸ hl.2⟩
      · simp only [cellsRising, Bool.and_eq_true, decide_eq_true_eq]
        exact ⟨hl.1, ih (by omega) hl.2⟩

theorem mem_cellsPut {dflt : Byte} {a : Nat} {b : Byte} {x : Host.Cell} {l : List Host.Cell}
    (h : x ∈ cellsPut dflt a b l) : x ∈ l ∨ (x = (a, b) ∧ b ≠ dflt) := by
  induction l with
  | nil => by_cases hb : b = dflt <;> simp_all [cellsPut]
  | cons c rest ih =>
    simp only [cellsPut] at h
    split at h
    · split at h
      · exact .inl h
      · rename_i hb
        rcases List.mem_cons.mp h with rfl | h
        · exact .inr ⟨rfl, hb⟩
        · exact .inl h
    · split at h
      · split at h
        · exact .inl (List.mem_cons_of_mem _ h)
        · rename_i hb
          rcases List.mem_cons.mp h with rfl | h
          · exact .inr ⟨rfl, hb⟩
          · exact .inl (List.mem_cons_of_mem _ h)
      · rcases List.mem_cons.mp h with rfl | h
        · exact .inl List.mem_cons_self
        · rcases ih h with h | h
          · exact .inl (List.mem_cons_of_mem _ h)
          · exact .inr h

namespace Memory

variable (m : Memory)

/-! ## Bytes -/

@[simp] theorem writeByte_powerOn (a : Nat) (b : Byte) : (m.writeByte a b).powerOn = m.powerOn := rfl

@[simp] theorem fill_writeByte (a : Nat) (b : Byte) (x : Nat) : (m.writeByte a b).fill x = m.fill x := rfl

theorem readByte_writeByte_ne {a x : Nat} (b : Byte) (h : x ≠ a) : (m.writeByte a b).readByte x = m.readByte x := by
  unfold readByte
  rw [show (m.writeByte a b).cells = cellsPut (m.fill a) a b m.cells from rfl, cellsGet_cellsPut_ne _ _ h]
  rfl

theorem wf_rising (h : m.wf = true) : cellsRising 0 m.cells = true := by
  unfold wf at h
  exact (Bool.and_eq_true _ _ ▸ h).1

theorem readByte_writeByte_same (h : m.wf = true) (a : Nat) (b : Byte) : (m.writeByte a b).readByte a = b := by
  have hs := cellsGet_cellsPut_same (m.fill a) a b (m.wf_rising h)
  unfold readByte
  rw [show (m.writeByte a b).cells = cellsPut (m.fill a) a b m.cells from rfl, fill_writeByte]
  cases hc : cellsGet a (cellsPut (m.fill a) a b m.cells) <;> simp_all

/-- Every byte write inside the address space keeps the canonical form. -/
theorem writeByte_wf (h : m.wf = true) {a : Nat} (ha : a < 2 ^ 32) (b : Byte) : (m.writeByte a b).wf = true := by
  have hr := cellsRising_cellsPut (m.fill a) b (Nat.zero_le a) (m.wf_rising h)
  unfold wf at h ⊢
  simp only [Bool.and_eq_true, List.all_eq_true, decide_eq_true_eq] at h ⊢
  refine ⟨hr, fun c hc => ?_⟩
  rcases mem_cellsPut hc with hc | ⟨rfl, hb⟩
  · exact h.2 c hc
  · exact ⟨ha, hb⟩

/-! ## Registers -/

theorem byteAddr_lt (a : Addr) (k : Nat) : byteAddr a k < 2 ^ 32 := BitVec.isLt _

theorem byteAddr_inj (a : Addr) {j k : Nat} (hj : j < 4) (hk : k < 4) (h : byteAddr a j = byteAddr a k) : j = k := by
  have h := BitVec.eq_of_toNat_eq h
  have : BitVec.ofNat 32 j = BitVec.ofNat 32 k := by bv_omega
  have := congrArg BitVec.toNat this
  simp only [BitVec.toNat_ofNat] at this
  omega

/-- The bytes of two different aligned registers are different. -/
theorem byteAddr_ne {a b : Addr} (ha : aligned a = true) (hb : aligned b = true) (h : a ≠ b) {j k : Nat} (hj : j < 4)
    (hk : k < 4) : byteAddr a j ≠ byteAddr b k := by
  simp only [aligned, beq_iff_eq] at ha hb
  intro e
  apply h
  unfold byteAddr at e
  simp only [BitVec.toNat_add, BitVec.toNat_ofNat] at e
  apply BitVec.eq_of_toNat_eq
  have := a.isLt
  have := b.isLt
  omega

/-- A register write leaves every byte outside the register alone. -/
theorem readByte_writeWord_ne {a : Addr} (v : Word) {x : Nat} (h : ∀ k < 4, x ≠ byteAddr a k) :
    (m.writeWord a v).readByte x = m.readByte x := by
  unfold writeWord
  rw [readByte_writeByte_ne _ _ (h 3 (by omega)), readByte_writeByte_ne _ _ (h 2 (by omega)),
    readByte_writeByte_ne _ _ (h 1 (by omega)), readByte_writeByte_ne _ _ (h 0 (by omega))]

/-- Every register write keeps the canonical form. -/
theorem writeWord_wf (h : m.wf = true) (a : Addr) (v : Word) : (m.writeWord a v).wf = true :=
  writeByte_wf _ (writeByte_wf _ (writeByte_wf _ (writeByte_wf _ h (byteAddr_lt a 0) _) (byteAddr_lt a 1) _)
    (byteAddr_lt a 2) _) (byteAddr_lt a 3) _

theorem readByte_writeWord_byteAddr (h : m.wf = true) (a : Addr) (v : Word) {k : Nat} (hk : k < 4) :
    (m.writeWord a v).readByte (byteAddr a k) = byteOf v k := by
  have w0 := writeByte_wf _ h (byteAddr_lt a 0) (byteOf v 0)
  have w1 := writeByte_wf _ w0 (byteAddr_lt a 1) (byteOf v 1)
  have w2 := writeByte_wf _ w1 (byteAddr_lt a 2) (byteOf v 2)
  have ne (j i : Nat) (hj : j < 4) (hi : i < 4) (hne : j ≠ i) : byteAddr a j ≠ byteAddr a i :=
    fun e => hne (byteAddr_inj a hj hi e)
  unfold writeWord
  match k, hk with
  | 0, _ =>
    rw [readByte_writeByte_ne _ _ (ne 0 3 (by omega) (by omega) (by omega)),
      readByte_writeByte_ne _ _ (ne 0 2 (by omega) (by omega) (by omega)),
      readByte_writeByte_ne _ _ (ne 0 1 (by omega) (by omega) (by omega)), readByte_writeByte_same _ h]
  | 1, _ =>
    rw [readByte_writeByte_ne _ _ (ne 1 3 (by omega) (by omega) (by omega)),
      readByte_writeByte_ne _ _ (ne 1 2 (by omega) (by omega) (by omega)), readByte_writeByte_same _ w0]
  | 2, _ =>
    rw [readByte_writeByte_ne _ _ (ne 2 3 (by omega) (by omega) (by omega)), readByte_writeByte_same _ w1]
  | 3, _ => rw [readByte_writeByte_same _ w2]

theorem bytes_append (v : Word) : byteOf v 3 ++ byteOf v 2 ++ byteOf v 1 ++ byteOf v 0 = v := by
  apply BitVec.eq_of_getLsbD_eq
  intro i hi
  have hi : i < 32 := hi
  simp only [byteOf, BitVec.getLsbD_append, BitVec.getLsbD_extractLsb']
  by_cases h0 : i < 8
  · simp [h0]
  · by_cases h1 : i < 16
    · simp [h0, show i - 8 < 8 by omega, show 8 + (i - 8) = i by omega]
    · by_cases h2 : i < 24
      · simp [h0, show ¬ i - 8 < 8 by omega, show i - 8 - 8 < 8 by omega, show 16 + (i - 8 - 8) = i by omega]
      · simp [h0, show ¬ i - 8 < 8 by omega, show ¬ i - 8 - 8 < 8 by omega, show i - 8 - 8 - 8 < 8 by omega,
          show 24 + (i - 8 - 8 - 8) = i by omega]

/-- A read of a register after a write to it gives the value written. -/
theorem readWord_writeWord_same (h : m.wf = true) (a : Addr) (v : Word) : (m.writeWord a v).readWord a = v := by
  unfold readWord
  rw [readByte_writeWord_byteAddr _ h _ _ (by omega), readByte_writeWord_byteAddr _ h _ _ (by omega),
    readByte_writeWord_byteAddr _ h _ _ (by omega), readByte_writeWord_byteAddr _ h _ _ (by omega), bytes_append]

/-- Two spaces that agree on a register's four bytes agree on the register. -/
theorem readWord_congr {m m' : Memory} {a : Addr} (h : ∀ k < 4, m.readByte (byteAddr a k) = m'.readByte (byteAddr a k)) :
    m.readWord a = m'.readWord a := by
  unfold readWord
  rw [h 3 (by omega), h 2 (by omega), h 1 (by omega), h 0 (by omega)]

/-- A write to one aligned register leaves every other aligned register alone. -/
theorem readWord_writeWord_ne {a b : Addr} (ha : aligned a = true) (hb : aligned b = true) (h : b ≠ a) (v : Word) :
    (m.writeWord a v).readWord b = m.readWord b :=
  readWord_congr (fun _ hj => readByte_writeWord_ne _ _ (fun _ hk => byteAddr_ne hb ha h hj hk))

/-! ## The block's writes -/

/-- Every write of the block keeps the canonical form. -/
theorem regWrite_wf (h : m.wf = true) (c : CfgData) (a : Addr) (v : Word) : (regWrite c m a v).wf = true := by
  unfold regWrite
  split
  · exact writeWord_wf _ h _ _
  · split
    · exact writeWord_wf _ (writeWord_wf _ h _ _) _ _
    · exact writeWord_wf _ h _ _

/-- A write of the block to a register other than INTSTAT and ECCCTRL stores the value. -/
theorem regWrite_plain {c : CfgData} {a : Addr} (h1 : a ≠ c.aIntstat) (h2 : a ≠ c.aEccctrl) (v : Word) :
    regWrite c m a v = m.writeWord a v := by simp [regWrite, h1, h2]

/-- A write of the block to INTSTAT clears the flags it has ones for, keeps the others, and stores the other bits (R76, R28). -/
theorem regWrite_intstat (c : CfgData) (v : Word) :
    regWrite c m c.aIntstat v = m.writeWord c.aIntstat (w1cValue (intFlagMask c) (m.readWord c.aIntstat) v) := by
  simp [regWrite]

/-- A write of the block changes no byte outside the register written and SBECNT. -/
theorem readByte_regWrite_ne (c : CfgData) {a : Addr} (v : Word) {x : Nat} (h : ∀ k < 4, x ≠ byteAddr a k)
    (hs : ∀ k < 4, x ≠ byteAddr c.aSbeCnt k) : (regWrite c m a v).readByte x = m.readByte x := by
  unfold regWrite
  split
  · rw [readByte_writeWord_ne _ _ h]
  · split
    · rw [readByte_writeWord_ne _ _ hs, readByte_writeWord_ne _ _ h]
    · rw [readByte_writeWord_ne _ _ h]

end Memory

end Sys2Proof.Machine
end

