-- ==== Sys2Proof/Laws/State.lean ====
section
/-! SUPPORT. One lemma per field of `State` for each update of the machine: what it makes of that field. Each is true by
unfolding once, so that no later proof unfolds a record update. -/

namespace Sys2Proof.Machine.State

variable (s : State)


@[simp] theorem emit_cfg (e : Event) : (s.emit e).cfg = s.cfg := rfl
@[simp] theorem emit_board (e : Event) : (s.emit e).board = s.board := rfl
@[simp] theorem emit_regs (e : Event) : (s.emit e).regs = s.regs := rfl
@[simp] theorem emit_unit (e : Event) : (s.emit e).unit = s.unit := rfl
@[simp] theorem emit_space (e : Event) : (s.emit e).space = s.space := rfl
@[simp] theorem emit_env (e : Event) : (s.emit e).env = s.env := rfl
@[simp] theorem emit_inp (e : Event) : (s.emit e).inp = s.inp := rfl
@[simp] theorem emit_out (e : Event) : (s.emit e).out = { s.out with history := e :: s.out.history } := rfl
@[simp] theorem emit_c (e : Event) : (s.emit e).c = s.c := rfl

@[simp] theorem goto_cfg (i : Instr) : (s.goto i).cfg = s.cfg := rfl
@[simp] theorem goto_board (i : Instr) : (s.goto i).board = s.board := rfl
@[simp] theorem goto_regs (i : Instr) : (s.goto i).regs = { s.regs with seqOp := encode i } := rfl
@[simp] theorem goto_unit (i : Instr) : (s.goto i).unit = s.unit := rfl
@[simp] theorem goto_space (i : Instr) : (s.goto i).space = s.space := rfl
@[simp] theorem goto_env (i : Instr) : (s.goto i).env = s.env := rfl
@[simp] theorem goto_inp (i : Instr) : (s.goto i).inp = s.inp := rfl
@[simp] theorem goto_out (i : Instr) : (s.goto i).out = s.out := rfl
@[simp] theorem goto_c (i : Instr) : (s.goto i).c = s.c := rfl

@[simp] theorem wait_cfg (us : Nat) : (s.wait us).cfg = s.cfg := rfl
@[simp] theorem wait_board (us : Nat) : (s.wait us).board = s.board := rfl
@[simp] theorem wait_regs (us : Nat) : (s.wait us).regs = s.regs := rfl
@[simp] theorem wait_unit (us : Nat) : (s.wait us).unit = s.unit := rfl
@[simp] theorem wait_space (us : Nat) : (s.wait us).space = s.space := rfl
@[simp] theorem wait_env (us : Nat) : (s.wait us).env = s.env := rfl
@[simp] theorem wait_inp (us : Nat) : (s.wait us).inp = s.inp := rfl
@[simp] theorem wait_out (us : Nat) : (s.wait us).out = { s.out with history := .wait us :: s.out.history } := rfl
@[simp] theorem wait_c (us : Nat) : (s.wait us).c = s.c := rfl

@[simp] theorem wdKick_cfg : (s.wdKick).cfg = s.cfg := rfl
@[simp] theorem wdKick_board : (s.wdKick).board = s.board := rfl
@[simp] theorem wdKick_regs : (s.wdKick).regs = s.regs := rfl
@[simp] theorem wdKick_unit : (s.wdKick).unit = s.unit := rfl
@[simp] theorem wdKick_space : (s.wdKick).space = s.space := rfl
@[simp] theorem wdKick_env : (s.wdKick).env = s.env := rfl
@[simp] theorem wdKick_inp : (s.wdKick).inp = s.inp := rfl
@[simp] theorem wdKick_out : (s.wdKick).out = { s.out with history := .kick :: s.out.history } := rfl
@[simp] theorem wdKick_c : (s.wdKick).c = s.c := rfl

@[simp] theorem printMsg_cfg (m : Nat) (v : Word) : (s.printMsg m v).cfg = s.cfg := by simp [State.printMsg]
@[simp] theorem printMsg_board (m : Nat) (v : Word) : (s.printMsg m v).board = s.board := by simp [State.printMsg]
@[simp] theorem printMsg_regs (m : Nat) (v : Word) : (s.printMsg m v).regs = s.regs := by simp [State.printMsg]
@[simp] theorem printMsg_unit (m : Nat) (v : Word) : (s.printMsg m v).unit = s.unit := by simp [State.printMsg]
@[simp] theorem printMsg_space (m : Nat) (v : Word) : (s.printMsg m v).space = s.space := by simp [State.printMsg]
@[simp] theorem printMsg_env (m : Nat) (v : Word) : (s.printMsg m v).env = s.env := by simp [State.printMsg]
@[simp] theorem printMsg_inp (m : Nat) (v : Word) : (s.printMsg m v).inp = s.inp := by simp [State.printMsg]
@[simp] theorem printMsg_out (m : Nat) (v : Word) :
    (s.printMsg m v).out =
      { s.out with console := s.out.console ++ messageBytes m v, history := .print (messageBytes m v) :: s.out.history } := by simp [State.printMsg]
@[simp] theorem printMsg_c (m : Nat) (v : Word) : (s.printMsg m v).c = s.c := by simp [State.printMsg]

@[simp] theorem setEnv_cfg (v : Nat) : (s.setEnv v).cfg = s.cfg := by simp [State.setEnv]
@[simp] theorem setEnv_board (v : Nat) : (s.setEnv v).board = s.board := by simp [State.setEnv]
@[simp] theorem setEnv_regs (v : Nat) : (s.setEnv v).regs = s.regs := by simp [State.setEnv]
@[simp] theorem setEnv_unit (v : Nat) : (s.setEnv v).unit = s.unit := by simp [State.setEnv]
@[simp] theorem setEnv_space (v : Nat) : (s.setEnv v).space = s.space := by simp [State.setEnv]
@[simp] theorem setEnv_env (v : Nat) : (s.setEnv v).env = s.env := by simp [State.setEnv]
@[simp] theorem setEnv_inp (v : Nat) : (s.setEnv v).inp = s.inp := by simp [State.setEnv]
@[simp] theorem setEnv_out (v : Nat) :
    (s.setEnv v).out =
      { s.out with envVar := some v, history := .setEnv v :: s.out.history } := by simp [State.setEnv]
@[simp] theorem setEnv_c (v : Nat) : (s.setEnv v).c = s.c := by simp [State.setEnv]

@[simp] theorem putCalok_cfg (b : Bool) : (s.putCalok b).cfg = s.cfg := rfl
@[simp] theorem putCalok_board (b : Bool) : (s.putCalok b).board = s.board := rfl
@[simp] theorem putCalok_regs (b : Bool) : (s.putCalok b).regs = { s.regs with calok := b } := rfl
@[simp] theorem putCalok_unit (b : Bool) : (s.putCalok b).unit = s.unit := rfl
@[simp] theorem putCalok_space (b : Bool) : (s.putCalok b).space = s.space := rfl
@[simp] theorem putCalok_env (b : Bool) : (s.putCalok b).env = s.env := rfl
@[simp] theorem putCalok_inp (b : Bool) : (s.putCalok b).inp = s.inp := rfl
@[simp] theorem putCalok_out (b : Bool) : (s.putCalok b).out = s.out := rfl
@[simp] theorem putCalok_c (b : Bool) : (s.putCalok b).c = s.c := rfl

@[simp] theorem setArmed_cfg : (s.setArmed).cfg = s.cfg := rfl
@[simp] theorem setArmed_board : (s.setArmed).board = s.board := rfl
@[simp] theorem setArmed_regs : (s.setArmed).regs = { s.regs with armed := true } := rfl
@[simp] theorem setArmed_unit : (s.setArmed).unit = s.unit := rfl
@[simp] theorem setArmed_space : (s.setArmed).space = s.space := rfl
@[simp] theorem setArmed_env : (s.setArmed).env = s.env := rfl
@[simp] theorem setArmed_inp : (s.setArmed).inp = s.inp := rfl
@[simp] theorem setArmed_out : (s.setArmed).out = s.out := rfl
@[simp] theorem setArmed_c : (s.setArmed).c = s.c := rfl

@[simp] theorem putInsvc_cfg (b : Bool) : (s.putInsvc b).cfg = s.cfg := rfl
@[simp] theorem putInsvc_board (b : Bool) : (s.putInsvc b).board = s.board := rfl
@[simp] theorem putInsvc_regs (b : Bool) : (s.putInsvc b).regs = { s.regs with insvc := b } := rfl
@[simp] theorem putInsvc_unit (b : Bool) : (s.putInsvc b).unit = s.unit := rfl
@[simp] theorem putInsvc_space (b : Bool) : (s.putInsvc b).space = s.space := rfl
@[simp] theorem putInsvc_env (b : Bool) : (s.putInsvc b).env = s.env := rfl
@[simp] theorem putInsvc_inp (b : Bool) : (s.putInsvc b).inp = s.inp := rfl
@[simp] theorem putInsvc_out (b : Bool) : (s.putInsvc b).out = s.out := rfl
@[simp] theorem putInsvc_c (b : Bool) : (s.putInsvc b).c = s.c := rfl

@[simp] theorem setHalted_cfg (k : HaltCause) : (s.setHalted k).cfg = s.cfg := rfl
@[simp] theorem setHalted_board (k : HaltCause) : (s.setHalted k).board = s.board := rfl
@[simp] theorem setHalted_regs (k : HaltCause) :
    (s.setHalted k).regs =
      { s.regs with halted := true, haltCause := k } := rfl
@[simp] theorem setHalted_unit (k : HaltCause) : (s.setHalted k).unit = s.unit := rfl
@[simp] theorem setHalted_space (k : HaltCause) : (s.setHalted k).space = s.space := rfl
@[simp] theorem setHalted_env (k : HaltCause) : (s.setHalted k).env = s.env := rfl
@[simp] theorem setHalted_inp (k : HaltCause) : (s.setHalted k).inp = s.inp := rfl
@[simp] theorem setHalted_out (k : HaltCause) : (s.setHalted k).out = s.out := rfl
@[simp] theorem setHalted_c (k : HaltCause) : (s.setHalted k).c = s.c := rfl

@[simp] theorem haltWith_cfg (k : HaltCause) : (s.haltWith k).cfg = s.cfg := by simp [State.haltWith]
@[simp] theorem haltWith_board (k : HaltCause) : (s.haltWith k).board = s.board := by simp [State.haltWith]
@[simp] theorem haltWith_regs (k : HaltCause) :
    (s.haltWith k).regs =
      { s.regs with halted := true, haltCause := k, seqOp := encode .halt } := by simp [State.haltWith]
@[simp] theorem haltWith_unit (k : HaltCause) : (s.haltWith k).unit = s.unit := by simp [State.haltWith]
@[simp] theorem haltWith_space (k : HaltCause) : (s.haltWith k).space = s.space := by simp [State.haltWith]
@[simp] theorem haltWith_env (k : HaltCause) : (s.haltWith k).env = s.env := by simp [State.haltWith]
@[simp] theorem haltWith_inp (k : HaltCause) : (s.haltWith k).inp = s.inp := by simp [State.haltWith]
@[simp] theorem haltWith_out (k : HaltCause) :
    (s.haltWith k).out =
      { s.out with history := .halt k :: s.out.history } := by simp [State.haltWith]
@[simp] theorem haltWith_c (k : HaltCause) : (s.haltWith k).c = s.c := by simp [State.haltWith]

@[simp] theorem irqEnter_cfg : (s.irqEnter).cfg = s.cfg := by simp [State.irqEnter]
@[simp] theorem irqEnter_board : (s.irqEnter).board = s.board := by simp [State.irqEnter]
@[simp] theorem irqEnter_regs :
    (s.irqEnter).regs =
      { s.regs with insvc := true, ctx := .irq, seqOp := encode .eccEntry } := by simp [State.irqEnter]
@[simp] theorem irqEnter_unit : (s.irqEnter).unit = s.unit := by simp [State.irqEnter]
@[simp] theorem irqEnter_space : (s.irqEnter).space = s.space := by simp [State.irqEnter]
@[simp] theorem irqEnter_env : (s.irqEnter).env = s.env := by simp [State.irqEnter]
@[simp] theorem irqEnter_inp : (s.irqEnter).inp = s.inp := by simp [State.irqEnter]
@[simp] theorem irqEnter_out :
    (s.irqEnter).out =
      { s.out with history := .irqEnter :: s.out.history } := by simp [State.irqEnter]
@[simp] theorem irqEnter_c : (s.irqEnter).c = s.c := by simp [State.irqEnter]

@[simp] theorem irqReturn_cfg : (s.irqReturn).cfg = s.cfg := by simp [State.irqReturn]
@[simp] theorem irqReturn_board : (s.irqReturn).board = s.board := by simp [State.irqReturn]
@[simp] theorem irqReturn_regs :
    (s.irqReturn).regs =
      { s.regs with insvc := false, ctx := .main, seqOp := encode .steady } := by simp [State.irqReturn]
@[simp] theorem irqReturn_unit : (s.irqReturn).unit = s.unit := by simp [State.irqReturn]
@[simp] theorem irqReturn_space : (s.irqReturn).space = s.space := by simp [State.irqReturn]
@[simp] theorem irqReturn_env : (s.irqReturn).env = s.env := by simp [State.irqReturn]
@[simp] theorem irqReturn_inp : (s.irqReturn).inp = s.inp := by simp [State.irqReturn]
@[simp] theorem irqReturn_out :
    (s.irqReturn).out =
      { s.out with history := .irqReturn :: s.out.history } := by simp [State.irqReturn]
@[simp] theorem irqReturn_c : (s.irqReturn).c = s.c := by simp [State.irqReturn]

@[simp] theorem putRdata_cfg (v : Word) : (s.putRdata v).cfg = s.cfg := rfl
@[simp] theorem putRdata_board (v : Word) : (s.putRdata v).board = s.board := rfl
@[simp] theorem putRdata_regs (v : Word) : (s.putRdata v).regs = s.regs := rfl
@[simp] theorem putRdata_unit (v : Word) : (s.putRdata v).unit = { s.unit with rdata := v } := rfl
@[simp] theorem putRdata_space (v : Word) : (s.putRdata v).space = s.space := rfl
@[simp] theorem putRdata_env (v : Word) : (s.putRdata v).env = s.env := rfl
@[simp] theorem putRdata_inp (v : Word) : (s.putRdata v).inp = s.inp := rfl
@[simp] theorem putRdata_out (v : Word) : (s.putRdata v).out = s.out := rfl
@[simp] theorem putRdata_c (v : Word) : (s.putRdata v).c = s.c := rfl

@[simp] theorem putOk_cfg (b : Bool) : (s.putOk b).cfg = s.cfg := rfl
@[simp] theorem putOk_board (b : Bool) : (s.putOk b).board = s.board := rfl
@[simp] theorem putOk_regs (b : Bool) : (s.putOk b).regs = s.regs := rfl
@[simp] theorem putOk_unit (b : Bool) : (s.putOk b).unit = { s.unit with ok := b } := rfl
@[simp] theorem putOk_space (b : Bool) : (s.putOk b).space = s.space := rfl
@[simp] theorem putOk_env (b : Bool) : (s.putOk b).env = s.env := rfl
@[simp] theorem putOk_inp (b : Bool) : (s.putOk b).inp = s.inp := rfl
@[simp] theorem putOk_out (b : Bool) : (s.putOk b).out = s.out := rfl
@[simp] theorem putOk_c (b : Bool) : (s.putOk b).c = s.c := rfl

@[simp] theorem pollTick_cfg : (s.pollTick).cfg = s.cfg := by simp [State.pollTick]
@[simp] theorem pollTick_board : (s.pollTick).board = s.board := by simp [State.pollTick]
@[simp] theorem pollTick_regs : (s.pollTick).regs = s.regs := by simp [State.pollTick]
@[simp] theorem pollTick_unit :
    (s.pollTick).unit =
      { s.unit with pollIter := s.unit.pollIter + 1 } := by simp [State.pollTick]
@[simp] theorem pollTick_space : (s.pollTick).space = s.space := by simp [State.pollTick]
@[simp] theorem pollTick_env : (s.pollTick).env = s.env := by simp [State.pollTick]
@[simp] theorem pollTick_inp : (s.pollTick).inp = s.inp := by simp [State.pollTick]
@[simp] theorem pollTick_out :
    (s.pollTick).out =
      { s.out with history := .kick :: .wait 100 :: s.out.history } := by simp [State.pollTick, Config.pollQuantumUs]
@[simp] theorem pollTick_c : (s.pollTick).c = s.c := by simp [State.pollTick, Config.pollQuantumUs]

@[simp] theorem delayTick_cfg : (s.delayTick).cfg = s.cfg := by simp [State.delayTick]
@[simp] theorem delayTick_board : (s.delayTick).board = s.board := by simp [State.delayTick]
@[simp] theorem delayTick_regs : (s.delayTick).regs = s.regs := by simp [State.delayTick]
@[simp] theorem delayTick_unit :
    (s.delayTick).unit =
      { s.unit with delayIter := s.unit.delayIter + 1 } := by simp [State.delayTick]
@[simp] theorem delayTick_space : (s.delayTick).space = s.space := by simp [State.delayTick]
@[simp] theorem delayTick_env : (s.delayTick).env = s.env := by simp [State.delayTick]
@[simp] theorem delayTick_inp : (s.delayTick).inp = s.inp := by simp [State.delayTick]
@[simp] theorem delayTick_out :
    (s.delayTick).out =
      { s.out with history := .kick :: .wait 1000 :: s.out.history } := by simp [State.delayTick]
@[simp] theorem delayTick_c : (s.delayTick).c = s.c := by simp [State.delayTick]

@[simp] theorem clearPollIter_cfg : (s.clearPollIter).cfg = s.cfg := rfl
@[simp] theorem clearPollIter_board : (s.clearPollIter).board = s.board := rfl
@[simp] theorem clearPollIter_regs : (s.clearPollIter).regs = s.regs := rfl
@[simp] theorem clearPollIter_unit : (s.clearPollIter).unit = { s.unit with pollIter := 0 } := rfl
@[simp] theorem clearPollIter_space : (s.clearPollIter).space = s.space := rfl
@[simp] theorem clearPollIter_env : (s.clearPollIter).env = s.env := rfl
@[simp] theorem clearPollIter_inp : (s.clearPollIter).inp = s.inp := rfl
@[simp] theorem clearPollIter_out : (s.clearPollIter).out = s.out := rfl
@[simp] theorem clearPollIter_c : (s.clearPollIter).c = s.c := rfl

@[simp] theorem clearCmd_cfg : (s.clearCmd).cfg = s.cfg := rfl
@[simp] theorem clearCmd_board : (s.clearCmd).board = s.board := rfl
@[simp] theorem clearCmd_regs : (s.clearCmd).regs = s.regs := rfl
@[simp] theorem clearCmd_unit : (s.clearCmd).unit = { s.unit with cmd := none } := rfl
@[simp] theorem clearCmd_space : (s.clearCmd).space = s.space := rfl
@[simp] theorem clearCmd_env : (s.clearCmd).env = s.env := rfl
@[simp] theorem clearCmd_inp : (s.clearCmd).inp = s.inp := rfl
@[simp] theorem clearCmd_out : (s.clearCmd).out = s.out := rfl
@[simp] theorem clearCmd_c : (s.clearCmd).c = s.c := rfl

@[simp] theorem nextAttempt_cfg : (s.nextAttempt).cfg = s.cfg := rfl
@[simp] theorem nextAttempt_board : (s.nextAttempt).board = s.board := rfl
@[simp] theorem nextAttempt_regs : (s.nextAttempt).regs = { s.regs with att := s.regs.att + 1 } := rfl
@[simp] theorem nextAttempt_unit : (s.nextAttempt).unit = s.unit := rfl
@[simp] theorem nextAttempt_space : (s.nextAttempt).space = s.space := rfl
@[simp] theorem nextAttempt_env : (s.nextAttempt).env = s.env := rfl
@[simp] theorem nextAttempt_inp : (s.nextAttempt).inp = s.inp := rfl
@[simp] theorem nextAttempt_out : (s.nextAttempt).out = s.out := rfl
@[simp] theorem nextAttempt_c : (s.nextAttempt).c = s.c := rfl

@[simp] theorem addCount_cfg (n : Word) : (s.addCount n).cfg = s.cfg := rfl
@[simp] theorem addCount_board (n : Word) : (s.addCount n).board = s.board := rfl
@[simp] theorem addCount_regs (n : Word) :
    (s.addCount n).regs =
      { s.regs with cnt := (s.regs.cnt + n.toNat) % 2 ^ s.c.cntW } := rfl
@[simp] theorem addCount_unit (n : Word) : (s.addCount n).unit = s.unit := rfl
@[simp] theorem addCount_space (n : Word) : (s.addCount n).space = s.space := rfl
@[simp] theorem addCount_env (n : Word) : (s.addCount n).env = s.env := rfl
@[simp] theorem addCount_inp (n : Word) : (s.addCount n).inp = s.inp := rfl
@[simp] theorem addCount_out (n : Word) : (s.addCount n).out = s.out := rfl
@[simp] theorem addCount_c (n : Word) : (s.addCount n).c = s.c := rfl

@[simp] theorem blockReset_cfg : (s.blockReset).cfg = s.cfg := rfl
@[simp] theorem blockReset_board : (s.blockReset).board = s.board := rfl
@[simp] theorem blockReset_regs : (s.blockReset).regs = Regs.reset := rfl
@[simp] theorem blockReset_unit : (s.blockReset).unit = AccessUnit.reset := rfl
@[simp] theorem blockReset_space : (s.blockReset).space = s.space := rfl
@[simp] theorem blockReset_env : (s.blockReset).env = s.env := rfl
@[simp] theorem blockReset_inp : (s.blockReset).inp = s.inp := rfl
@[simp] theorem blockReset_out : (s.blockReset).out = Outputs.reset := rfl
@[simp] theorem blockReset_c : (s.blockReset).c = s.c := rfl

end Sys2Proof.Machine.State
end

