-- ==== Sys2Proof/Laws/Env.lean ====
section
/-! SUPPORT. What one opportunity of the environment can do: it changes the Register Space at bytes of environment-owned
registers, the input levels and its own script, and nothing else. -/

namespace Sys2Proof.Machine

/-! ## Ownership -/

theorem envByte_false {c : CfgData} {x : Nat} (h : envByte c x = false) {a : Addr} (ha : a ∈ envAddrs c) {k : Nat}
    (hk : k < 4) : x ≠ byteAddr a k := by
  intro e
  have : envByte c x = true := by
    unfold envByte
    rw [List.any_eq_true]
    refine ⟨a, ha, ?_⟩
    have : k = 0 ∨ k = 1 ∨ k = 2 ∨ k = 3 := by omega
    rcases this with rfl | rfl | rfl | rfl <;> simp [e]
  simp [h] at this

theorem byteOfReg_false {a : Addr} {x : Nat} (h : byteOfReg a x = false) {k : Nat} (hk : k < 4) : x ≠ byteAddr a k := by
  intro e
  have : k = 0 ∨ k = 1 ∨ k = 2 ∨ k = 3 := by omega
  rcases this with rfl | rfl | rfl | rfl <;> simp [byteOfReg, e] at h

/-- Every addr of a well-formed record is aligned (R9 (a)). -/
theorem cfg_addr_aligned (c : Cfg) {a : Addr} (h : a ∈ c.data.handshakeAddrs ++ c.data.otherAddrs) : aligned a = true := by
  have := c.wf
  simp only [CfgData.wellFormed, CfgData.clauseA, Bool.and_eq_true, List.all_eq_true] at this
  exact this.1.1.1.1.1.1.1.1.1.1.1.1 a h

theorem cfg_envAddr_mem (c : Cfg) {a : Addr} (h : a ∈ envAddrs c.data) : a ∈ c.data.handshakeAddrs ++ c.data.otherAddrs := by
  simp only [envAddrs, partnerAddrs, CfgData.handshakeAddrs, CfgData.otherAddrs, List.mem_append, List.mem_cons,
    List.not_mem_nil, or_false] at h ⊢
  tauto

/-- No byte of an aligned register that is not environment-owned is a byte of one that is. -/
theorem cfg_envByte_of_not_mem (c : Cfg) {a : Addr} (ha : aligned a = true) (h : a ∉ envAddrs c.data) {k : Nat}
    (hk : k < 4) : envByte c.data (byteAddr a k) = false := by
  rw [Bool.eq_false_iff]
  intro e
  unfold envByte at e
  rw [List.any_eq_true] at e
  obtain ⟨b, hb, e⟩ := e
  have hne : a ≠ b := fun e => h (e ▸ hb)
  have hal := cfg_addr_aligned c (cfg_envAddr_mem c hb)
  simp only [List.any_cons, List.any_nil, Bool.or_false, Bool.or_eq_true, beq_iff_eq] at e
  rcases e with e | e | e | e
  · exact Memory.byteAddr_ne ha hal hne hk (by omega) e.symm
  · exact Memory.byteAddr_ne ha hal hne hk (by omega) e.symm
  · exact Memory.byteAddr_ne ha hal hne hk (by omega) e.symm
  · exact Memory.byteAddr_ne ha hal hne hk (by omega) e.symm

/-- R9 (h): a handshake address is no other addr of the record. -/
theorem cfg_handshake_separate (c : Cfg) {a : Addr} (h : a ∈ c.data.handshakeAddrs) : a ∉ c.data.otherAddrs := by
  have := c.wf
  simp only [CfgData.wellFormed, CfgData.clauseH, Bool.and_eq_true, List.all_eq_true] at this
  have := this.1.1.1.2 a h
  simpa using this

theorem cfg_handshake_nodup (c : Cfg) : c.data.handshakeAddrs.Nodup := by
  have := c.wf
  simp only [CfgData.wellFormed, CfgData.clauseB, Bool.and_eq_true, decide_eq_true_eq] at this
  exact this.1.1.1.1.1.1.1.1.1.1.1.2

/-- C2S is HOST-owned (R68, R9 (b), (h)). -/
theorem cfg_c2s_not_env (c : Cfg) : c.data.aC2s ∉ envAddrs c.data := by
  have ho := cfg_handshake_separate c (a := c.data.aC2s) (by simp [CfgData.handshakeAddrs])
  have hn := cfg_handshake_nodup c
  simp only [CfgData.handshakeAddrs, List.nodup_cons, List.mem_cons, List.not_mem_nil, or_false] at hn
  simp only [envAddrs, partnerAddrs, CfgData.otherAddrs, List.mem_append, List.mem_cons, List.not_mem_nil, or_false] at ho ⊢
  tauto

/-- GPOUT is HOST-owned (R68, R9 (b), (h)). -/
theorem cfg_gpout_not_env (c : Cfg) : c.data.aGpout ∉ envAddrs c.data := by
  have ho := cfg_handshake_separate c (a := c.data.aGpout) (by simp [CfgData.handshakeAddrs])
  have hn := cfg_handshake_nodup c
  simp only [CfgData.handshakeAddrs, List.nodup_cons, List.mem_cons, List.not_mem_nil, or_false] at hn
  simp only [envAddrs, partnerAddrs, CfgData.otherAddrs, List.mem_append, List.mem_cons, List.not_mem_nil, or_false] at ho ⊢
  have hne : c.data.aGpout ≠ c.data.aS2c := fun e => hn.2.1 (.inl e.symm)
  tauto

/-- In a separated record no register of `hostSingles` is environment-owned. -/
theorem hostSingle_not_env {c : CfgData} (hs : separated c = true) {a : Addr} (h : a ∈ hostSingles c) :
    a ∉ envAddrs c := by
  simp only [separated, Bool.and_eq_true, decide_eq_true_eq, List.all_eq_true, Bool.not_eq_true', List.contains_eq_mem,
    decide_eq_false_iff_not] at hs
  obtain ⟨⟨⟨hn, hr⟩, hsb⟩, -⟩ := hs
  have hsingle : a ∈ singleAddrs c := List.mem_append_left _ h
  have hne : a ∉ envSingles c := fun he => List.disjoint_of_nodup_append hn h he
  intro he
  simp only [envAddrs, partnerAddrs, List.mem_append, List.mem_cons, List.not_mem_nil, or_false] at he
  simp only [envSingles, List.mem_cons, List.not_mem_nil, or_false, not_or] at hne
  rcases he with (((he | he) | he) | he | he | he | he) | he | he
  · exact hne.1 he
  · exact hne.2.2.1 he
  · exact hr a he hsingle
  · exact hne.2.1 he
  · exact hsb c.aSbeAddr (by simp) (List.mem_append_left _ (he ▸ hsingle))
  · exact hsb c.aDbeAddr (by simp) (List.mem_append_left _ (he ▸ hsingle))
  · exact hne.2.2.2.2.1 he
  · exact hne.2.2.2.1 he
  · exact hne.2.2.2.2.2 he

/-- In a separated record no scheduler register is environment-owned, nor in `hostSingles`. -/
theorem scheduler_not_env {c : CfgData} (hs : separated c = true) {a : Addr}
    (h : a ∈ c.out.toList.map FieldLoc.addr) : a ∉ envAddrs c ∧ a ∉ hostSingles c := by
  simp only [separated, Bool.and_eq_true, decide_eq_true_eq, List.all_eq_true, Bool.not_eq_true', List.contains_eq_mem,
    decide_eq_false_iff_not] at hs
  have ho := hs.2 a h
  simp only [singleAddrs, envSingles, envAddrs, partnerAddrs, List.mem_append, List.mem_cons, List.not_mem_nil,
    or_false, not_or] at ho ⊢
  tauto

/-- In a separated record every HOST-owned register is owned by no environment agent. -/
theorem host_not_env {c : CfgData} (hs : separated c = true) {a : Addr} (h : a ∈ hostAddrs c) : a ∉ envAddrs c := by
  by_cases hout : a ∈ c.out.toList.map FieldLoc.addr
  · exact (scheduler_not_env hs hout).1
  · refine hostSingle_not_env hs ?_
    simp only [hostAddrs, hostSingles, List.mem_append, List.mem_cons, List.not_mem_nil, or_false] at h ⊢
    tauto

/-! ## One poke -/

namespace State

variable (s : State)

@[simp] theorem applyPoke_cfg (p : Addr × Word) : (s.applyPoke p).cfg = s.cfg := by unfold applyPoke; split <;> rfl
@[simp] theorem applyPoke_board (p : Addr × Word) : (s.applyPoke p).board = s.board := by unfold applyPoke; split <;> rfl
@[simp] theorem applyPoke_regs (p : Addr × Word) : (s.applyPoke p).regs = s.regs := by unfold applyPoke; split <;> rfl
@[simp] theorem applyPoke_unit (p : Addr × Word) : (s.applyPoke p).unit = s.unit := by unfold applyPoke; split <;> rfl
@[simp] theorem applyPoke_env (p : Addr × Word) : (s.applyPoke p).env = s.env := by unfold applyPoke; split <;> rfl
@[simp] theorem applyPoke_inp (p : Addr × Word) : (s.applyPoke p).inp = s.inp := by unfold applyPoke; split <;> rfl
@[simp] theorem applyPoke_out (p : Addr × Word) : (s.applyPoke p).out = s.out := by unfold applyPoke; split <;> rfl

@[simp] theorem applyPoke_context (p : Addr × Word) : (s.applyPoke p).context = s.context := by
  unfold context; rw [applyPoke_regs]

theorem applyPoke_wf (h : s.space.wf = true) (p : Addr × Word) : (s.applyPoke p).space.wf = true := by
  unfold applyPoke
  split
  · exact h
  · exact Memory.writeWord_wf _ h _ _

theorem envRight_ne_none {a : Addr} (hr : s.inp.rst = false) (h : s.envRight a ≠ .none) : a ∈ envAddrs s.c := by
  unfold envRight at h
  rw [hr] at h
  simp only [Bool.false_eq_true, if_false] at h
  unfold envAddrs
  rw [List.mem_append]
  split at h
  · rename_i hc
    exact .inl (by simpa using hc)
  · split at h
    · rename_i hc
      simp [hc]
    · split at h
      · rename_i hc
        simp [hc]
      · exact absurd rfl h

theorem applyPoke_readByte (hr : s.inp.rst = false) (p : Addr × Word) {x : Nat} (hx : envByte s.c x = false) :
    (s.applyPoke p).space.readByte x = s.space.readByte x := by
  unfold applyPoke
  split
  · rfl
  · rename_i r hne
    exact Memory.readByte_writeWord_ne _ _ (fun k hk => envByte_false hx (s.envRight_ne_none hr hne) hk)

/-! ## A list of pokes -/

/-- What a list of pokes leaves alone. -/
theorem pokes_spec (ps : List (Addr × Word)) :
    (ps.foldl applyPoke s).cfg = s.cfg ∧ (ps.foldl applyPoke s).regs = s.regs ∧ (ps.foldl applyPoke s).unit = s.unit ∧
    (ps.foldl applyPoke s).out = s.out ∧ (ps.foldl applyPoke s).inp = s.inp ∧ (ps.foldl applyPoke s).board = s.board ∧
    (s.space.wf = true → (ps.foldl applyPoke s).space.wf = true) ∧
    (s.inp.rst = false → ∀ x, envByte s.c x = false → (ps.foldl applyPoke s).space.readByte x = s.space.readByte x) := by
  induction ps generalizing s with
  | nil => simp
  | cons p ps ih =>
    obtain ⟨h1, h2, h3, h4, h5, h6, h7, h8⟩ := ih (s.applyPoke p)
    refine ⟨by simpa using h1, by simpa using h2, by simpa using h3, by simpa using h4, by simpa using h5,
      by simpa using h6, fun hw => h7 (s.applyPoke_wf hw p), fun hr x hx => ?_⟩
    have hc : (s.applyPoke p).c = s.c := by simp [State.c]
    exact (h8 (by simpa using hr) x (by rw [hc]; exact hx)).trans (s.applyPoke_readByte hr p hx)

/-! ## One opportunity -/

@[simp] theorem envPoint_cfg : s.envPoint.cfg = s.cfg := (s.pokes_spec _).1
@[simp] theorem envPoint_c : s.envPoint.c = s.c := congrArg Cfg.data s.envPoint_cfg
@[simp] theorem envPoint_regs : s.envPoint.regs = s.regs := (s.pokes_spec _).2.1
@[simp] theorem envPoint_unit : s.envPoint.unit = s.unit := (s.pokes_spec _).2.2.1
@[simp] theorem envPoint_out : s.envPoint.out = s.out := (s.pokes_spec _).2.2.2.1

theorem envPoint_rst : s.envPoint.inp.rst = (s.inp.rst || s.nextMove.rst) := rfl

/-- `rst`, once seen in an operation, stays. -/
theorem rst_of_envPoint (h : s.envPoint.inp.rst = false) : s.inp.rst = false := by
  rw [envPoint_rst, Bool.or_eq_false_iff] at h
  exact h.1

/-- The board configuration is constant while `rst` is 0 (R201). -/
theorem envPoint_board (h : s.inp.rst = false) : s.envPoint.board = s.board := by
  simp [envPoint, h]

/-- The environment keeps the canonical form. -/
theorem envPoint_wf (h : s.space.wf = true) : s.envPoint.space.wf = true := (s.pokes_spec _).2.2.2.2.2.2.1 h

/-- While `rst` is 0 the environment leaves every byte alone that belongs to no environment-owned register (R68). -/
theorem envPoint_readByte (hr : s.inp.rst = false) {x : Nat} (hx : envByte s.c x = false) :
    s.envPoint.space.readByte x = s.space.readByte x := (s.pokes_spec _).2.2.2.2.2.2.2 hr x hx

/-- While `rst` is 0 the environment leaves every register alone that it does not own (R68). -/
theorem envPoint_readWord (hr : s.inp.rst = false) {a : Addr} (ha : aligned a = true) (h : a ∉ envAddrs s.c) :
    s.envPoint.space.readWord a = s.space.readWord a :=
  Memory.readWord_congr (fun _ hk => s.envPoint_readByte hr (cfg_envByte_of_not_mem s.cfg ha h hk))

end State

end Sys2Proof.Machine
end

