-- ==== Sys2Proof/Laws/Ops.lean ====
section
/-! SUPPORT. What each shared operation can do, said once: which parts of the state it leaves alone, what it does to the
Register Space, and the events it appends. -/

namespace Sys2Proof.Machine

/-- What every bus operation leaves alone: the block's registers, the access unit, the console and the variable; it keeps the
canonical form, never lowers `rst`, and changes the board configuration only once `rst` has risen. -/
structure BusOnly (s t : State) : Prop where
  cfg     : t.cfg = s.cfg
  regs    : t.regs = s.regs
  unit    : t.unit = s.unit
  console : t.out.console = s.out.console
  envVar  : t.out.envVar = s.out.envVar
  wf      : s.space.wf = true → t.space.wf = true
  rst     : t.inp.rst = false → s.inp.rst = false
  board   : t.inp.rst = false → t.board = s.board

theorem BusOnly.refl (s : State) : BusOnly s s := ⟨rfl, rfl, rfl, rfl, rfl, id, id, fun _ => rfl⟩

theorem BusOnly.trans {s t u : State} (h : BusOnly s t) (k : BusOnly t u) : BusOnly s u where
  cfg := k.cfg.trans h.cfg
  regs := k.regs.trans h.regs
  unit := k.unit.trans h.unit
  console := k.console.trans h.console
  envVar := k.envVar.trans h.envVar
  wf := k.wf ∘ h.wf
  rst := h.rst ∘ k.rst
  board := fun e => (k.board e).trans (h.board (k.rst e))

namespace State

variable (s : State)

/-! ## Event history -/

theorem trace_eq : s.trace = s.out.history.reverse := rfl

@[simp] theorem trace_emit (e : Event) : (s.emit e).trace = s.trace ++ [e] := by simp [trace]
@[simp] theorem trace_goto (i : Instr) : (s.goto i).trace = s.trace := by simp [trace]
@[simp] theorem trace_envPoint : s.envPoint.trace = s.trace := by simp [trace]

/-! ## One transaction -/

theorem busOnly_envPoint : BusOnly s s.envPoint where
  cfg := s.envPoint_cfg
  regs := s.envPoint_regs
  unit := s.envPoint_unit
  console := by simp
  envVar := by simp
  wf := s.envPoint_wf
  rst := s.rst_of_envPoint
  board := fun h => s.envPoint_board (s.rst_of_envPoint h)

@[simp] theorem busRead_fst (a : Addr) : (s.busRead a).1 = s.envPoint.space.readWord a := rfl
@[simp] theorem busRead_regs (a : Addr) : (s.busRead a).2.regs = s.regs := by simp [busRead]
@[simp] theorem busRead_unit (a : Addr) : (s.busRead a).2.unit = s.unit := by simp [busRead]
@[simp] theorem busRead_cfg (a : Addr) : (s.busRead a).2.cfg = s.cfg := by simp [busRead]
@[simp] theorem busRead_c (a : Addr) : (s.busRead a).2.c = s.c := by simp [busRead]
@[simp] theorem busRead_space (a : Addr) : (s.busRead a).2.space = s.envPoint.space := by simp [busRead]
@[simp] theorem busRead_inp (a : Addr) : (s.busRead a).2.inp = s.envPoint.inp := by simp [busRead]
@[simp] theorem busRead_board (a : Addr) : (s.busRead a).2.board = s.envPoint.board := by simp [busRead]
@[simp] theorem busRead_trace (a : Addr) :
    (s.busRead a).2.trace = s.trace ++ [.busRead a (s.envPoint.space.readWord a)] := by simp [busRead]

theorem busOnly_busRead (a : Addr) : BusOnly s (s.busRead a).2 where
  cfg := by simp
  regs := by simp
  unit := by simp
  console := by simp [busRead]
  envVar := by simp [busRead]
  wf := by simpa using s.envPoint_wf
  rst := by simpa using s.rst_of_envPoint
  board := fun h => by simpa using s.envPoint_board (s.rst_of_envPoint (by simpa using h))

/-- A write of the block: nothing where `rst` has risen, otherwise the value stored and the event appended. -/
theorem busWrite_cases (a : Addr) (v : Word) :
    ((s.busWrite a v).inp.rst = true ∧ s.busWrite a v = s.envPoint) ∨
    ((s.busWrite a v).inp.rst = false ∧ s.envPoint.inp.rst = false ∧
      (s.busWrite a v).space = s.envPoint.space.regWrite s.c a v ∧
      (s.busWrite a v).trace = s.trace ++ [.busWrite a v]) := by
  unfold busWrite
  cases h : s.envPoint.inp.rst
  · exact .inr ⟨by simpa using h, rfl, by simp, by simp [trace]⟩
  · exact .inl ⟨by simpa using h, by simp⟩

theorem busOnly_busWrite (a : Addr) (v : Word) : BusOnly s (s.busWrite a v) := by
  unfold busWrite
  split
  · exact s.busOnly_envPoint
  · exact
      { cfg := by simp, regs := by simp, unit := by simp, console := by simp, envVar := by simp
        wf := fun h => by simpa using Memory.regWrite_wf _ (s.envPoint_wf h) _ _ _
        rst := fun h => s.rst_of_envPoint (by simpa using h)
        board := fun h => by simpa using s.envPoint_board (s.rst_of_envPoint (by simpa using h)) }

@[simp] theorem busWrite_regs (a : Addr) (v : Word) : (s.busWrite a v).regs = s.regs := (s.busOnly_busWrite a v).regs
@[simp] theorem busWrite_unit (a : Addr) (v : Word) : (s.busWrite a v).unit = s.unit := (s.busOnly_busWrite a v).unit
@[simp] theorem busWrite_cfg (a : Addr) (v : Word) : (s.busWrite a v).cfg = s.cfg := (s.busOnly_busWrite a v).cfg
@[simp] theorem busWrite_c (a : Addr) (v : Word) : (s.busWrite a v).c = s.c := congrArg Cfg.data (s.busWrite_cfg a v)

/-! ## Read-modify-write -/

/-- One read and one write of the same register, the write's value computed from the read's: the shape of `setBit`, `clearBit`,
`WRFIELD` and the disable of R225. -/
theorem busOnly_rmw (a : Addr) (f : Word → Word) : BusOnly s ((s.busRead a).2.busWrite a (f (s.busRead a).1)) :=
  (s.busOnly_busRead a).trans (State.busOnly_busWrite _ _ _)

/-- A read-modify-write of a register that the environment does not own, other than INTSTAT and ECCCTRL, during which `rst` did
not rise: the register holds the new value computed from its old value, the two transactions are in the history, and every byte
of no environment-owned register and outside this one is as before. -/
theorem rmw_spec {a : Addr} (f : Word → Word) (hw : s.space.wf = true) (ha : aligned a = true) (ho : a ∉ envAddrs s.c)
    (h1 : a ≠ s.c.aIntstat) (h2 : a ≠ s.c.aEccctrl)
    (hr : ((s.busRead a).2.busWrite a (f (s.busRead a).1)).inp.rst = false) :
    ((s.busRead a).2.busWrite a (f (s.busRead a).1)).space.readWord a = f (s.space.readWord a) ∧
    ((s.busRead a).2.busWrite a (f (s.busRead a).1)).trace =
      s.trace ++ [.busRead a (s.space.readWord a), .busWrite a (f (s.space.readWord a))] ∧
    ∀ x, envByte s.c x = false → byteOfReg a x = false →
      ((s.busRead a).2.busWrite a (f (s.busRead a).1)).space.readByte x = s.space.readByte x := by
  have hr0 : (s.busRead a).2.inp.rst = false := (State.busOnly_busWrite _ _ _).rst hr
  have hr1 : s.inp.rst = false := (s.busOnly_busRead a).rst hr0
  have hv : s.envPoint.space.readWord a = s.space.readWord a := s.envPoint_readWord hr1 ha ho
  have hw1 : (s.busRead a).2.envPoint.space.wf = true :=
    State.envPoint_wf _ (by simpa using s.envPoint_wf hw)
  rcases (s.busRead a).2.busWrite_cases a (f (s.busRead a).1) with ⟨h, -⟩ | ⟨-, -, hsp, htr⟩
  · exact absurd (h.symm.trans hr) (by simp)
  rw [hsp, htr]
  rw [busRead_c, Memory.regWrite_plain _ h1 h2]
  refine ⟨?_, ?_, fun x hx hb => ?_⟩
  · rw [Memory.readWord_writeWord_same _ hw1, busRead_fst, hv]
  · simp [hv]
  · rw [Memory.readByte_writeWord_ne _ _ (fun k hk => byteOfReg_false hb hk),
      State.envPoint_readByte _ hr0 (by simpa using hx), busRead_space, s.envPoint_readByte hr1 hx]

theorem setBit_eq (a : Addr) (b : BitNo) :
    s.setBit a b = (s.busRead a).2.busWrite a ((fun v => withBitSet v b) (s.busRead a).1) := rfl
theorem clearBit_eq (a : Addr) (b : BitNo) :
    s.clearBit a b = (s.busRead a).2.busWrite a ((fun v => withBitClear v b) (s.busRead a).1) := rfl
theorem wrField_eq (f : FieldLoc) (v : Word) :
    s.wrField f v = (s.busRead f.addr).2.busWrite f.addr ((fun r => insertField f r v) (s.busRead f.addr).1) := rfl
theorem disableEcc_eq :
    s.disableEcc = (s.busRead s.c.aErrinten).2.busWrite s.c.aErrinten
      ((fun v => v &&& ~~~s.c.eccIntenMask) (s.busRead s.c.aErrinten).1) := rfl

theorem busOnly_setBit (a : Addr) (b : BitNo) : BusOnly s (s.setBit a b) := s.busOnly_rmw a (fun v => withBitSet v b)
theorem busOnly_clearBit (a : Addr) (b : BitNo) : BusOnly s (s.clearBit a b) := s.busOnly_rmw a (fun v => withBitClear v b)
theorem busOnly_wrField (f : FieldLoc) (v : Word) : BusOnly s (s.wrField f v) :=
  s.busOnly_rmw f.addr (fun r => insertField f r v)
theorem busOnly_disableEcc : BusOnly s s.disableEcc := s.busOnly_rmw _ (fun v => v &&& ~~~s.c.eccIntenMask)
theorem busOnly_pulse (a : Addr) (b : BitNo) : BusOnly s (s.pulse a b) :=
  (s.busOnly_setBit a b).trans (State.busOnly_clearBit _ a b)

/-! ## Polls and delays -/

/-- The loop of `POLLBIT` from a state: what it leaves alone, the reads it made and its result (R105). -/
theorem pollLoop_spec (a : Addr) (b : BitNo) (e : Bool) (n : Nat) (s : State) :
    (pollLoop a b e n s).2.cfg = s.cfg ∧ (pollLoop a b e n s).2.regs = s.regs ∧
    (pollLoop a b e n s).2.clearPollIter.unit = s.clearPollIter.unit ∧
    (pollLoop a b e n s).2.out.console = s.out.console ∧ (pollLoop a b e n s).2.out.envVar = s.out.envVar ∧
    (s.space.wf = true → (pollLoop a b e n s).2.space.wf = true) ∧
    ((pollLoop a b e n s).2.inp.rst = false → s.inp.rst = false ∧ (pollLoop a b e n s).2.board = s.board ∧
      ∀ x, envByte s.c x = false → (pollLoop a b e n s).2.space.readByte x = s.space.readByte x) ∧
    ∃ vs, PollRan b e n (pollLoop a b e n s).1 vs ∧ (pollLoop a b e n s).2.trace = s.trace ++ pollEvents a vs ∧
      ∀ v ∈ vs.getLast?, v = (pollLoop a b e n s).2.space.readWord a := by
  induction n generalizing s with
  | zero => simp [pollLoop, PollRan, pollEvents]
  | succ n ih =>
    simp only [pollLoop]
    have hb := s.pollTick.busOnly_busRead a
    split
    · rename_i hm
      refine ⟨by simp, by simp, by simp, by simpa using hb.console, by simpa using hb.envVar,
        fun h => hb.wf (by simpa using h), fun h => ⟨by simpa using hb.rst h, by simpa using hb.board h, fun x hx => ?_⟩,
        [(s.pollTick.busRead a).1], ?_, ?_, by simp⟩
      · have := s.pollTick.envPoint_readByte (hb.rst h) (x := x) (by simpa using hx)
        simpa using this
      · exact ⟨by simp, by simp, fun _ => ⟨_, rfl, hm⟩, by simp⟩
      · rw [busRead_trace]
        simp [pollEvents, trace]
    · rename_i hm
      obtain ⟨h1, h2, h3, h4, h5, h6, h7, vs, h8, h9, h10⟩ := ih (s.pollTick.busRead a).2
      refine ⟨h1.trans (by simp), h2.trans (by simp), h3.trans (by simp), h4.trans (by simpa using hb.console),
        h5.trans (by simpa using hb.envVar), fun h => h6 (hb.wf (by simpa using h)), fun h => ?_,
        (s.pollTick.busRead a).1 :: vs, ?_, ?_, ?_⟩
      · obtain ⟨r1, r2, r3⟩ := h7 h
        refine ⟨by simpa using hb.rst r1, r2.trans (by simpa using hb.board r1), fun x hx => ?_⟩
        rw [r3 x (by simpa using hx)]
        have := s.pollTick.envPoint_readByte (hb.rst r1) (x := x) (by simpa using hx)
        simpa using this
      · obtain ⟨p1, p2, p3, p4⟩ := h8
        refine ⟨by simpa using p1, ?_, ?_, ?_⟩
        · intro v hv
          cases vs with
          | nil => simp at hv
          | cons w ws =>
            rcases List.mem_cons.mp (by simpa using hv) with rfl | hv
            · exact hm
            · exact p2 v hv
        · intro hok
          obtain ⟨v, hv, hmv⟩ := p3 hok
          cases vs with
          | nil => simp at hv
          | cons w ws => exact ⟨v, by simpa using hv, hmv⟩
        · intro hok
          obtain ⟨l, hl⟩ := p4 hok
          refine ⟨by simp [l], fun v hv => ?_⟩
          rcases List.mem_cons.mp hv with rfl | hv
          · exact hm
          · exact hl v hv
      · rw [h9, busRead_trace]
        simp [pollEvents, trace]
      · cases vs with
        | nil =>
          have hn : n = 0 := by
            cases hok : (pollLoop a b e n (s.pollTick.busRead a).2).1
            · simpa using (h8.2.2.2 hok).1.symm
            · obtain ⟨v, hv, -⟩ := h8.2.2.1 hok
              simp at hv
          subst hn
          simp [pollLoop]
        | cons w ws => simpa using h10

/-- `POLLBIT` (R105): what it leaves alone, the reads it made and its result; the hidden counter is 0 afterwards (R38). -/
theorem pollBit_spec (a : Addr) (b : BitNo) (e : Bool) (us : Nat) :
    (s.pollBit a b e us).2.cfg = s.cfg ∧ (s.pollBit a b e us).2.regs = s.regs ∧
    (s.pollBit a b e us).2.unit = { s.unit with pollIter := 0 } ∧
    (s.pollBit a b e us).2.out.console = s.out.console ∧ (s.pollBit a b e us).2.out.envVar = s.out.envVar ∧
    (s.space.wf = true → (s.pollBit a b e us).2.space.wf = true) ∧
    ((s.pollBit a b e us).2.inp.rst = false → s.inp.rst = false ∧ (s.pollBit a b e us).2.board = s.board ∧
      ∀ x, envByte s.c x = false → (s.pollBit a b e us).2.space.readByte x = s.space.readByte x) ∧
    ∃ vs, PollRan b e (pollCount us) (s.pollBit a b e us).1 vs ∧
      (s.pollBit a b e us).2.trace = s.trace ++ pollEvents a vs ∧
      ∀ v ∈ vs.getLast?, v = (s.pollBit a b e us).2.space.readWord a :=
  pollLoop_spec a b e (pollCount us) s

theorem delayLoop_spec (n : Nat) (s : State) :
    (delayLoop n s).cfg = s.cfg ∧ (delayLoop n s).regs = s.regs ∧ (delayLoop n s).space = s.space ∧
    (delayLoop n s).env = s.env ∧ (delayLoop n s).inp = s.inp ∧ (delayLoop n s).board = s.board ∧
    (delayLoop n s).out.console = s.out.console ∧ (delayLoop n s).out.envVar = s.out.envVar ∧
    { (delayLoop n s).unit with delayIter := 0 } = { s.unit with delayIter := 0 } ∧
    (delayLoop n s).trace = s.trace ++ delayEvents n := by
  induction n generalizing s with
  | zero => simp [delayLoop, delayEvents]
  | succ n ih =>
    obtain ⟨h1, h2, h3, h4, h5, h6, h7, h8, h9, h10⟩ := ih s.delayTick
    refine ⟨h1.trans (by simp), h2.trans (by simp), h3.trans (by simp), h4.trans (by simp), h5.trans (by simp),
      h6.trans (by simp), h7.trans (by simp), h8.trans (by simp), h9.trans (by simp), ?_⟩
    rw [show delayLoop (n + 1) s = delayLoop n s.delayTick from rfl, h10]
    simp [trace, delayEvents, List.replicate_succ]

/-- `DELAY` (R106): only the history grows, by one wait and one refresh for each millisecond; the hidden counter is 0
afterwards (R38). -/
theorem delayMs_spec (ms : Nat) :
    (s.delayMs ms).cfg = s.cfg ∧ (s.delayMs ms).regs = s.regs ∧ (s.delayMs ms).space = s.space ∧
    (s.delayMs ms).env = s.env ∧ (s.delayMs ms).inp = s.inp ∧ (s.delayMs ms).board = s.board ∧
    (s.delayMs ms).out.console = s.out.console ∧ (s.delayMs ms).out.envVar = s.out.envVar ∧
    (s.delayMs ms).unit = { s.unit with delayIter := 0 } ∧
    (s.delayMs ms).trace = s.trace ++ delayEvents ms :=
  delayLoop_spec ms s

/-! ## Error conditions and the interrupt -/

/-- Raising an error condition writes one result register and `SEQ.op`, and prints message 2 for `CalExhausted` (R260 to
R262). -/
theorem raise_spec (k : Condition) :
    (s.raise k).cfg = s.cfg ∧ (s.raise k).space = s.space ∧ (s.raise k).unit = s.unit ∧ (s.raise k).env = s.env ∧
    (s.raise k).inp = s.inp ∧ (s.raise k).board = s.board ∧ (s.raise k).out.envVar = s.out.envVar ∧
    (s.raise k).regs =
      (match k with
        | .hsTimeout p => { s.regs with hsrc := p.code, seqOp := encode .rcHsfail }
        | .calExhausted => { s.regs with rcrc := 0xFFFFFFFF, seqOp := encode .bootReport }
        | .fwNoNode => { s.regs with fwrc := 2, seqOp := encode .fwReport }
        | .fwNoChild => { s.regs with fwrc := 1, seqOp := encode .fwReport }) ∧
    (s.raise k).out =
      (match k with
        | .calExhausted => (s.printMsg 2 0).out
        | _ => s.out) := by
  cases k <;> simp [raise]

/-! ## The ends of a step -/

/-- The end of a step: an opportunity for the environment, and the reset of the block where `rst` has risen. -/
theorem endStep_cases :
    (s.endStep.inp.rst = true ∧ s.endStep = s.envPoint.blockReset) ∨
    (s.endStep.inp.rst = false ∧ s.endStep = s.envPoint) := by
  cases h : s.envPoint.inp.rst
  · have e : s.endStep = s.envPoint := by simp [endStep, h]
    exact .inr ⟨by rw [e]; exact h, e⟩
  · have e : s.endStep = s.envPoint.blockReset := by simp [endStep, h]
    exact .inl ⟨by rw [e]; exact h, e⟩

end State

/-! ## One step -/

/-- What a step can do: one step in reset, or the operation fetched and the end of the step. -/
theorem step_next_cases {s t : State} (h : step s = .next t) :
    (s.inp.rst = true ∧ t = s.holdReset) ∨
    (s.inp.rst = false ∧ ∃ i s1 u, s.fetch = .ok (i, s1) ∧ exec i s1 = .next u ∧ t = u.endStep) := by
  unfold step at h
  split at h
  · rename_i hr
    cases h
    exact .inl ⟨hr, rfl⟩
  · rename_i hr
    refine .inr ⟨by simpa using hr, ?_⟩
    split at h
    · cases h
    · rename_i i s1 hf
      split at h
      · rename_i u hu
        cases h
        exact ⟨i, s1, u, hf, hu, rfl⟩
      · cases h
      · cases h

/-- What a fetch can give, `SEQ.op` holding the word of a class S operation: `HALT` in a halted block, a class U command off the
port, or the operation in `SEQ.op`. -/
theorem State.fetch_cases {s s1 : State} {i : Instr} (h : s.fetch = .ok (i, s1)) :
    ∃ j, decode s.regs.seqOp = .ok j ∧ j.opClass = .sequencerState ∧
    ((s.regs.halted = true ∧ i = .halt ∧ s1 = s) ∨
     (s.regs.halted = false ∧ i.opClass = .unitCommand ∧ s1 = s.clearCmd ∧ ∃ w, s.unit.cmd = some w ∧ decode w = .ok i) ∨
     (s.regs.halted = false ∧ i = j ∧ s1 = s ∧ s.unit.cmd = none)) := by
  unfold State.fetch at h
  split at h
  · cases h
  rename_i j hj
  split at h
  · cases h
  rename_i hc
  refine ⟨j, hj, hc, ?_⟩
  split at h
  · rename_i hh
    cases h
    exact .inl ⟨hh, rfl, rfl⟩
  rename_i hh
  refine .inr ?_
  split at h
  · rename_i w hw
    unfold State.fetchCommand at h
    split at h
    · cases h
    rename_i k hk
    split at h
    · rename_i hu
      cases h
      exact .inl ⟨by simpa using hh, hu, rfl, w, hw, hk⟩
    · cases h
  · rename_i hw
    cases h
    exact .inr ⟨by simpa using hh, rfl, rfl, hw⟩

/-- `SIZE_OUT` is a signed number of `W` bits wherever `SIZE` is (table T7). -/
theorem fitsSigned_sizeOutValue {W : Nat} (hW : 0 < W) (dflt : Int) {size : Int} (h : fitsSigned W size = true) :
    fitsSigned W (sizeOutValue W dflt size) = true := by
  unfold sizeOutValue
  split
  · split
    · assumption
    · obtain ⟨n, rfl⟩ : ∃ n, W = n + 1 := ⟨W - 1, by omega⟩
      have hp : (0 : Nat) < 2 ^ (n + 1) := by positivity
      have h1 := Int.le_bmod (x := Config.unfitDefault (n + 1) dflt) hp
      have h2 := Int.bmod_lt (x := Config.unfitDefault (n + 1) dflt) hp
      simp only [fitsSigned, Bool.and_eq_true, decide_eq_true_eq, Nat.add_sub_cancel]
      push_cast [pow_succ] at h1 h2 ⊢
      omega
  · exact h

end Sys2Proof.Machine
end

