-- ==== Sys2Proof/Laws/Effects.lean ====
section
/-! SUPPORT. The effect of each shared bus operation in the terms of `Safety.lean` (`Performed`, `RmwPerformed`), and how effects
compose with the updates that follow them. -/

namespace Sys2Proof.Machine

/-! ## The environment's rights to INTSTAT and ERRINTEN -/

theorem bit_or (v w : Word) (b : BitNo) : bit (v ||| w) b = (bit v b || bit w b) := by simp [bit]

theorem bit_and (v w : Word) (b : BitNo) : bit (v &&& w) b = (bit v b && bit w b) := by simp [bit]

theorem bit_not (v : Word) (b : BitNo) : bit (~~~v) b = !bit v b := by simp [bit, b.isLt]

theorem bit_bitMask (i b : BitNo) : bit (bitMask i) b = decide (b = i) := by
  revert i b
  decide

theorem bit_intFlagMask (c : CfgData) {b : BitNo} (h : b = c.sbeBit ∨ b = c.dbeBit) : bit (intFlagMask c) b = true := by
  simp only [intFlagMask, bit_or, bit_bitMask]
  rcases h with rfl | rfl <;> simp

theorem bit_intFlagMask_other (c : CfgData) {b : BitNo} (h1 : b ≠ c.sbeBit) (h2 : b ≠ c.dbeBit) :
    bit (intFlagMask c) b = false := by
  simp [intFlagMask, bit_or, bit_bitMask, h1, h2]

/-- Each bit of a register with write-1-to-clear flags after a write. -/
theorem bit_w1cValue (flags old v : Word) (b : BitNo) :
    bit (w1cValue flags old v) b = if bit flags b = true then bit old b && !bit v b else bit v b := by
  simp only [w1cValue, bit_or, bit_and, bit_not]
  cases bit flags b <;> simp

namespace State

/-- What one poke does to the register at `a`, an aligned address: nothing, or the value its right allows. -/
theorem applyPoke_readWord (s : State) (hw : s.space.wf = true) (hr : s.inp.rst = false) (p : Addr × Word) {a : Addr}
    (ha : aligned a = true) :
    (s.applyPoke p).space.readWord a = s.space.readWord a ∨
    (p.1 = a ∧ s.envRight a ≠ .none ∧
      (s.applyPoke p).space.readWord a = envValue s.c (s.space.readWord a) p.2 (s.envRight a)) := by
  unfold applyPoke
  split
  · exact .inl rfl
  · rename_i r hne
    by_cases e : p.1 = a
    · refine .inr ⟨e, by rw [← e]; exact hne, ?_⟩
      rw [e, Memory.readWord_writeWord_same _ hw]
    · refine .inl (Memory.readWord_writeWord_ne _ ?_ ha (fun h => e h.symm) _)
      exact cfg_addr_aligned s.cfg (cfg_envAddr_mem s.cfg (s.envRight_ne_none hr hne))

theorem applyPoke_envRight (s : State) (p : Addr × Word) (a : Addr) : (s.applyPoke p).envRight a = s.envRight a := by
  simp only [envRight, applyPoke_context, applyPoke_inp, State.c, applyPoke_cfg]

/-- A relation between old and new values that each allowed poke of the register at `a` respects holds over one opportunity. -/
theorem envPoint_rel (s : State) (hw : s.space.wf = true) (hr : s.inp.rst = false) {a : Addr} (ha : aligned a = true)
    (rel : Word → Word → Prop) (hrefl : ∀ v, rel v v) (htrans : ∀ u v w, rel u v → rel v w → rel u w)
    (hpoke : ∀ old new, s.envRight a ≠ .none → rel old (envValue s.c old new (s.envRight a))) :
    rel (s.space.readWord a) (s.envPoint.space.readWord a) := by
  have key : ∀ (ps : List (Addr × Word)) (t : State), t.space.wf = true → t.inp.rst = false → t.cfg = s.cfg →
      (∀ b, t.envRight b = s.envRight b) → rel (t.space.readWord a) ((ps.foldl applyPoke t).space.readWord a) := by
    intro ps
    induction ps with
    | nil => intro t _ _ _ _; exact hrefl _
    | cons p ps ih =>
      intro t htw htr htc hte
      refine htrans _ _ _ ?_ (ih (t.applyPoke p) (t.applyPoke_wf htw p) (by simpa using htr) (by simpa using htc)
        (fun b => (t.applyPoke_envRight p b).trans (hte b)))
      rcases t.applyPoke_readWord htw htr p ha with h | ⟨-, hn, h⟩
      · rw [h]; exact hrefl _
      · rw [h, hte a]
        rw [hte a] at hn
        have hcc : t.c = s.c := congrArg Cfg.data htc
        rw [hcc]
        exact hpoke _ _ hn
  exact key s.nextMove.pokes s hw hr rfl (fun _ => rfl)

/-- The environment never clears a flag of INTSTAT (R68). -/
theorem envPoint_intstat (s : State) (hw : s.space.wf = true) (hr : s.inp.rst = false) (hp : s.c.aIntstat ∉ partnerAddrs s.c)
    {b : BitNo} (hb : b = s.c.sbeBit ∨ b = s.c.dbeBit) (h : bit (s.space.readWord s.c.aIntstat) b = true) :
    bit (s.envPoint.space.readWord s.c.aIntstat) b = true := by
  have ha : aligned s.c.aIntstat = true := cfg_addr_aligned s.cfg (cfg_envAddr_mem s.cfg (by simp [envAddrs]))
  refine s.envPoint_rel hw hr ha (fun u v => bit u b = true → bit v b = true) (fun _ => id) (fun _ _ _ f g => g ∘ f) ?_ h
  intro old new _ ho
  have : s.envRight s.c.aIntstat = .setFlags := by simp [envRight, hr, hp]
  rw [this]
  simp [envValue, bit_or, bit_and, ho, bit_intFlagMask s.c hb]

/-- The environment never clears a bit of ERRINTEN, and changes none in context IRQ (R68). -/
theorem envPoint_errinten (s : State) (hw : s.space.wf = true) (hr : s.inp.rst = false) (hp : s.c.aErrinten ∉ partnerAddrs s.c)
    (hi : s.c.aErrinten ≠ s.c.aIntstat) :
    (∀ b, bit (s.space.readWord s.c.aErrinten) b = true → bit (s.envPoint.space.readWord s.c.aErrinten) b = true) ∧
    (s.context = .irq → s.envPoint.space.readWord s.c.aErrinten = s.space.readWord s.c.aErrinten) := by
  have ha : aligned s.c.aErrinten = true := cfg_addr_aligned s.cfg (cfg_envAddr_mem s.cfg (by simp [envAddrs]))
  have he : s.envRight s.c.aErrinten = if s.context = .irq then .none else .setBits := by simp [envRight, hr, hp, hi]
  refine ⟨fun b => ?_, fun hc => ?_⟩
  · refine s.envPoint_rel hw hr ha (fun u v => bit u b = true → bit v b = true) (fun _ => id) (fun _ _ _ f g => g ∘ f) ?_
    intro old new hn ho
    rw [he] at hn ⊢
    split at hn
    · exact absurd rfl hn
    · rename_i h; simp [h, envValue, bit_or, ho]
  · refine s.envPoint_rel hw hr ha (fun u v => v = u) (fun _ => rfl) (fun _ _ _ f g => g.trans f) ?_
    intro old new hn
    rw [he, hc] at hn
    exact absurd rfl hn

end State

/-! ## Effects and later updates -/

/-- Moving the sequencer on after an effect. -/
theorem Performed.goto {s t : State} {e : Effect} (h : Performed s t e) (i : Instr) {w : OpWord} (he : encode i = w) :
    Performed s (t.goto i) { e with regs := { e.regs with seqOp := w } } where
  cfg := h.cfg
  regs := by simp [h.regs, he]
  unit := h.unit
  console := h.console
  envVar := h.envVar
  board := h.board
  trace := h.trace
  frame := h.frame

/-- Writing the block's registers after an effect. -/
theorem Performed.setRegs {s t : State} {e : Effect} (h : Performed s t e) (r : Regs) :
    Performed s { t with regs := r } { e with regs := r } where
  cfg := h.cfg
  regs := rfl
  unit := h.unit
  console := h.console
  envVar := h.envVar
  board := h.board
  trace := h.trace
  frame := h.frame

/-- Writing the access unit after an effect. -/
theorem Performed.setUnit {s t : State} {e : Effect} (h : Performed s t e) (u : AccessUnit) :
    Performed s { t with unit := u } { e with unit := u } where
  cfg := h.cfg
  regs := h.regs
  unit := rfl
  console := h.console
  envVar := h.envVar
  board := h.board
  trace := h.trace
  frame := h.frame

/-- Appending an event after an effect. -/
theorem Performed.emit {s t : State} {e : Effect} (h : Performed s t e) (x : Event) :
    Performed s (t.emit x) { e with events := e.events ++ [x] } where
  cfg := h.cfg
  regs := h.regs
  unit := h.unit
  console := h.console
  envVar := h.envVar
  board := h.board
  trace := fun hr => by rw [State.trace_emit, h.trace hr, List.append_assoc]
  frame := h.frame

/-- Two effects, one after the other, the first having kept `rst` low wherever the second does. -/
theorem Performed.trans {s t u : State} {e f : Effect} (h : Performed s t e) (k : Performed t u f)
    (hr : u.inp.rst = false → t.inp.rst = false) :
    Performed s u { f with
      console := e.console ++ f.console
      events := e.events ++ f.events
      stored := e.stored ++ f.stored } where
  cfg := k.cfg.trans h.cfg
  regs := k.regs
  unit := k.unit
  console := by rw [k.console, h.console, List.append_assoc]
  envVar := k.envVar
  board := fun e => (k.board e).trans (h.board (hr e))
  trace := fun e => by rw [k.trace e, h.trace (hr e), List.append_assoc]
  frame := fun e x hx hs => by
    have hc : t.c = s.c := congrArg Cfg.data h.cfg
    rw [k.frame e x (by rw [hc]; exact hx) (fun a ha => hs a (List.mem_append_right _ ha)),
      h.frame (hr e) x hx (fun a ha => hs a (List.mem_append_left _ ha))]

namespace State

variable (s : State)

/-! ## One transaction -/

theorem performed_busRead (a : Addr) :
    Performed s (s.busRead a).2 { s.effect with events := [.busRead a (s.busRead a).1] } where
  cfg := by simp
  regs := by simp [effect]
  unit := by simp [effect]
  console := by simp [effect, (s.busOnly_busRead a).console]
  envVar := by simp [effect, (s.busOnly_busRead a).envVar]
  board := (s.busOnly_busRead a).board
  trace := fun _ => by simp
  frame := fun hr x hx _ => by simpa using s.envPoint_readByte ((s.busOnly_busRead a).rst hr) hx

theorem performed_busWrite (a : Addr) (v : Word) :
    Performed s (s.busWrite a v) { s.effect with events := [.busWrite a v], stored := [a] } where
  cfg := by simp
  regs := by simp [effect]
  unit := by simp [effect]
  console := by simp [effect, (s.busOnly_busWrite a v).console]
  envVar := by simp [effect, (s.busOnly_busWrite a v).envVar]
  board := (s.busOnly_busWrite a v).board
  trace := fun hr => by
    rcases s.busWrite_cases a v with ⟨h, -⟩ | ⟨-, -, -, h⟩
    · exact absurd (h.symm.trans hr) (by simp)
    · exact h
  frame := fun hr x hx hs => by
    rcases s.busWrite_cases a v with ⟨h, -⟩ | ⟨-, -, h, -⟩
    · exact absurd (h.symm.trans hr) (by simp)
    · have hb : byteOfReg a x = false := hs a (by simp)
      rw [h, Memory.readByte_regWrite_ne _ _ _ (fun k hk => byteOfReg_false hb hk)
        (fun k hk => envByte_false hx (by simp [envAddrs, partnerAddrs]) hk)]
      exact s.envPoint_readByte ((s.busOnly_busWrite a v).rst hr) hx

/-- The register written, where `rst` did not rise: the value, but for the flags of INTSTAT (R102, R76). -/
theorem busWrite_readWord (hw : s.space.wf = true) {a : Addr} (ha : aligned a = true) (v : Word)
    (hr : (s.busWrite a v).inp.rst = false) :
    (a ≠ s.c.aIntstat → (a = s.c.aEccctrl → a ≠ s.c.aSbeCnt) → (s.busWrite a v).space.readWord a = v) ∧
    (a = s.c.aIntstat → (s.busWrite a v).space.readWord a =
      w1cValue (intFlagMask s.c) (s.envPoint.space.readWord a) v) := by
  rcases s.busWrite_cases a v with ⟨h, -⟩ | ⟨-, -, h, -⟩
  · exact absurd (h.symm.trans hr) (by simp)
  · have hwe := s.envPoint_wf hw
    rw [h]
    refine ⟨fun h1 h2 => ?_, fun h1 => ?_⟩
    · have hsa : aligned s.c.aSbeCnt = true :=
        cfg_addr_aligned s.cfg (cfg_envAddr_mem s.cfg (by simp [envAddrs, partnerAddrs]))
      unfold Memory.regWrite
      rw [if_neg h1]
      split
      · rename_i hc
        rw [Memory.readWord_writeWord_ne _ hsa ha (h2 hc.1), Memory.readWord_writeWord_same _ hwe]
      · rw [Memory.readWord_writeWord_same _ hwe]
    · subst h1
      rw [Memory.regWrite_intstat, Memory.readWord_writeWord_same _ hwe]

/-! ## Read-modify-write -/

/-- Every read-modify-write of an aligned register. -/
theorem rmwPerformed {a : Addr} (f : Word → Word) (hw : s.space.wf = true) (ha : aligned a = true) :
    RmwPerformed s ((s.busRead a).2.busWrite a (f (s.busRead a).1)) a f s.effect := by
  refine ⟨(s.busRead a).1, ?_, fun hr => ?_⟩
  · have h := (s.performed_busRead a).trans ((s.busRead a).2.performed_busWrite a (f (s.busRead a).1))
      (State.busOnly_busWrite _ _ _).rst
    simpa [effect, (s.busOnly_busRead a).envVar] using h
  · have hr0 := (State.busOnly_busWrite _ _ _).rst hr
    have h := (s.busRead a).2.busWrite_readWord ((s.busOnly_busRead a).wf hw) ha (f (s.busRead a).1) hr
    rw [busRead_c] at h
    exact ⟨fun ho => s.envPoint_readWord ((s.busOnly_busRead a).rst hr0) ha ho, h.1, fun e => ⟨_, h.2 e⟩⟩

/-- The flags of INTSTAT after a read-modify-write of it during which `rst` did not rise (R76). -/
theorem intstatFlagsAfterRmw (f : Word → Word) (hw : s.space.wf = true)
    (hr : ((s.busRead s.c.aIntstat).2.busWrite s.c.aIntstat (f (s.busRead s.c.aIntstat).1)).inp.rst = false) :
    IntstatFlagsAfterRmw s ((s.busRead s.c.aIntstat).2.busWrite s.c.aIntstat (f (s.busRead s.c.aIntstat).1)) f := by
  have ha : aligned s.c.aIntstat = true := cfg_addr_aligned s.cfg (cfg_envAddr_mem s.cfg (by simp [envAddrs]))
  have hr0 := (State.busOnly_busWrite _ _ _).rst hr
  have hw1 := (s.busOnly_busRead s.c.aIntstat).wf hw
  have h := ((s.busRead s.c.aIntstat).2.busWrite_readWord hw1 ha (f (s.busRead s.c.aIntstat).1) hr).2 (by simp)
  intro b hb
  rw [h, bit_w1cValue, State.busRead_c, bit_intFlagMask _ hb, State.busRead_fst]
  refine ⟨by simp, fun hp hs hd => ?_⟩
  have e1 := s.envPoint_intstat hw ((s.busOnly_busRead _).rst hr0) hp hb hs
  have e2 := (s.busRead s.c.aIntstat).2.envPoint_intstat hw1 hr0 (by simpa using hp) (b := b) (by simpa using hb)
    (by simpa using e1)
  simp only [State.busRead_c] at e2
  simp [hd, e2]

end State

/-- A read-modify-write of a register that the environment has no right to. -/
theorem RmwPerformed.host {s t : State} {a : Addr} {f : Word → Word} {e : Effect} (h : RmwPerformed s t a f e)
    (ho : a ∉ envAddrs s.c) : HostRmwPerformed s t a f e := by
  obtain ⟨v, hp, hv⟩ := h
  have hi : a ≠ s.c.aIntstat := fun e => ho (by rw [e]; simp [envAddrs])
  have hsb : a ≠ s.c.aSbeCnt := fun e => ho (by rw [e]; simp [envAddrs, partnerAddrs])
  refine ⟨⟨hp.cfg, hp.regs, hp.unit, hp.console, hp.envVar, hp.board, fun hr => ?_, hp.frame⟩, fun hr => ?_⟩
  · rw [hp.trace hr, (hv hr).1 ho]
  · rw [(hv hr).2.1 hi (fun _ => hsb), (hv hr).1 ho]

/-- Moving the sequencer on after a read-modify-write. -/
theorem RmwPerformed.goto {s t : State} {a : Addr} {f : Word → Word} {e : Effect} (h : RmwPerformed s t a f e) (i : Instr)
    {w : OpWord} (he : encode i = w) : RmwPerformed s (t.goto i) a f { e with regs := { e.regs with seqOp := w } } := by
  obtain ⟨v, hp, hv⟩ := h
  exact ⟨v, hp.goto i he, hv⟩

namespace State

variable (s : State)

/-! ## Polls and delays -/

theorem performed_pollBit (a : Addr) (b : BitNo) (e : Bool) (us : Nat) :
    ∃ vs, PollRan b e (pollCount us) (s.pollBit a b e us).1 vs ∧
      (∀ v ∈ vs.getLast?, v = (s.pollBit a b e us).2.space.readWord a) ∧
      Performed s (s.pollBit a b e us).2
        { s.effect with unit := { s.unit with pollIter := 0 }, events := pollEvents a vs } := by
  obtain ⟨h1, h2, h3, h4, h5, -, h7, vs, h8, h9, h10⟩ := s.pollBit_spec a b e us
  exact ⟨vs, h8, h10,
    { cfg := h1, regs := h2, unit := h3, console := by simp [effect, h4], envVar := h5
      board := fun hr => (h7 hr).2.1, trace := fun _ => h9, frame := fun hr x hx _ => (h7 hr).2.2 x hx }⟩

theorem performed_delayMs (ms : Nat) :
    Performed s (s.delayMs ms)
      { s.effect with unit := { s.unit with delayIter := 0 }, events := delayEvents ms } := by
  obtain ⟨h1, h2, h3, -, h5, h6, h7, h8, h9, h10⟩ := s.delayMs_spec ms
  exact
    { cfg := h1, regs := h2, unit := h9, console := by simp [effect, h7], envVar := h8
      board := fun _ => h6, trace := fun _ => h10, frame := fun _ x _ _ => by rw [h3] }

end State

end Sys2Proof.Machine
end

