-- ==== Sys2Proof/Tests/Slice0.lean ====
section
/-! SUPPORT. Tests on fixed values. Expected results are the words of table T11 (`30_encoding.md`) and the vectors of
`95_test_vectors.md` (A, H, C, T, F, E, Y numbers), which the docstrings name. All use the example binding `EX1`, a Register Space
filled with zero bytes, and a written-down or reference environment. After them stand the witnesses: for each statement of
`Certificates/Slice0/Obligations.lean` with hypotheses, a state and operands that meet them. -/

open Sys2Proof Sys2Proof.Machine

namespace Sys2Proof.Tests

-- The proofs here are many and small: checked one after another, they need the memory of one.
set_option Elab.async false

/-! ## Helpers -/

/-- The example binding as a checked record. -/
def exCfg : Cfg := { data := CfgData.ex1 }

/-- A Register Space of zero bytes but for the registers listed. -/
def spaceOf (l : List (Addr × Word)) : Memory := l.foldl (fun m p => m.writeWord p.1 p.2) ⟨.filled 0, []⟩

/-- A state with the given registers of the block and of the Register Space, and an environment that does nothing. -/
def stateOf (r : Regs) (l : List (Addr × Word)) : State where
  cfg := exCfg
  board := .noNode
  regs := r
  unit := AccessUnit.reset
  space := spaceOf l
  env := ⟨[], .quiet, 0⟩
  inp := ⟨false, false, false⟩
  out := Outputs.reset

/-- A state at reset but for the Register Space. -/
def freshOf (l : List (Addr × Word)) : State := stateOf Regs.reset l

/-- A state with the ports of the access unit set for an access to `a`. -/
def portOf (a : Addr) (d : Word) (b : BitNo) (us : Word) (l : List (Addr × Word)) : State :=
  { freshOf l with unit := { AccessUnit.reset with addr := a, data := d, bit := b, expected := true, timeoutUs := us } }

/-- The environment gives a register a value at each of its next opportunities. -/
def pokeMoves (l : List (Addr × Word)) : List EnvMove := l.map (fun p => { quietMove with pokes := [p] })

/-- What `f` shows of the next state. -/
def shown {α : Type} (o : Host.Outcome State Fault Refusal) (f : State → α) : Option α :=
  match o with
  | .next t => some (f t)
  | _ => none

/-- The name of a refusal. -/
def refusalOf (o : Host.Outcome State Fault Refusal) : Option Refusal :=
  match o with
  | .refused r => some r
  | _ => none

/-- The bus transactions of a trace. -/
def busOf (t : State) : List Event := t.trace.filter (fun e => e.busAddr.isSome)

/-! ## Well-formedness (R9, R85) -/

theorem test_wf_ex1 : CfgData.ex1.check.isSome = true := by decide
theorem test_wf_fwRegion : (Instr.fwRegion 23).wellFormed = true ∧ (Instr.fwRegion 24).wellFormed = false := by decide
theorem test_wf_print : (Instr.print 7).wellFormed = true ∧ (Instr.print 8).wellFormed = false := by decide

/-- A record that the named check refuses. -/
def refusedBy (clause : CfgData → Bool) (d : CfgData) : Bool := !clause d && d.check.isNone

theorem test_wf_clauseA : refusedBy CfgData.clauseA { CfgData.ex1 with aCalstat := 0x3002 } = true := by decide
theorem test_wf_clauseB : refusedBy CfgData.clauseB { CfgData.ex1 with aS2c := 0x1000 } = true := by decide
theorem test_wf_clauseC : refusedBy CfgData.clauseC { CfgData.ex1 with calreqBit := 31 } = true := by decide
theorem test_wf_clauseD :
    refusedBy CfgData.clauseD { CfgData.ex1 with raw := { CfgData.ex1.raw with faw := ⟨0x4014, 27, 6⟩ } } = true := by decide
theorem test_wf_clauseE :
    refusedBy CfgData.clauseE { CfgData.ex1 with out := { CfgData.ex1.out with rd2miss := ⟨0x5004, 5, 6⟩ } } = true := by decide
theorem test_wf_clauseF1 :
    refusedBy CfgData.clauseF1 { CfgData.ex1 with fwTable := (List.range 23).map CfgData.ex1Fw } = true := by decide
theorem test_wf_clauseF2 :
    refusedBy CfgData.clauseF2
      { CfgData.ex1 with
        fwTable := { CfgData.ex1Fw 1 with enBit := 0 } :: (List.range 24).tail.map (fun i => CfgData.ex1Fw (i - 1)) } = true := by
  decide
theorem test_wf_clauseF3 :
    refusedBy CfgData.clauseF3
      { CfgData.ex1 with
        fwTable := { CfgData.ex1Fw 0 with aCfg := 0x7000 } :: (List.range 24).tail.map CfgData.ex1Fw } = true := by decide
theorem test_wf_clauseG : refusedBy CfgData.clauseG { CfgData.ex1 with dbeBit := 0 } = true := by decide
theorem test_wf_clauseH : refusedBy CfgData.clauseH { CfgData.ex1 with aErrinten := 0x1008 } = true := by decide
theorem test_wf_clauseI :
    refusedBy CfgData.clauseI { CfgData.ex1 with geomTable := [(⟨0, 3, 10, 12⟩, 1), (⟨0, 3, 10, 15⟩, 0)] } = true := by decide
theorem test_wf_clauseJ : refusedBy CfgData.clauseJ { CfgData.ex1 with fwEndShift := 15 } = true := by decide
theorem test_wf_clauseCntW : refusedBy CfgData.clauseCntW { CfgData.ex1 with cntW := 0 } = true := by decide

/-! ## Decoding: the word of every operation in table T11 -/

/-- Every word of the list decodes to the operation beside it. -/
def allDecode (l : List (OpWord × Instr)) : Bool := l.all (fun p => decodeTableWord 16 p.1.toNat == some p.2)

theorem test_decode_family0 : allDecode [(0x0000, .rdreg), (0x0100, .wrreg), (0x0200, .setbit), (0x0300, .clrbit),
    (0x0400, .pollbit), (0x0500, .delay)] = true := by decide
theorem test_decode_family1 : allDecode [(0x2100, .hs1), (0x2200, .hs2), (0x2300, .hs3), (0x2400, .hs4), (0x2500, .hs5),
    (0x2600, .hs6), (0x2700, .hs7), (0x2800, .hs8), (0x2900, .hs9), (0x2A00, .hs10), (0x2B00, .hs11), (0x2C00, .hs12),
    (0x2D00, .hs13), (0x2E00, .hs14)] = true := by decide
theorem test_decode_family2 : allDecode [(0x4000, .rcGate), (0x4100, .rcAttempt), (0x4200, .rcHsfail), (0x4300, .rcStatpoll),
    (0x4400, .rcRetry), (0x4500, .rcFinish), (0x4600, .bootReport)] = true := by decide
theorem test_decode_family3 : allDecode [(0x6000, .tcLoad), (0x6100, .tcGeom), (0x6200, .tcRd2miss), (0x6300, .tcWr2miss),
    (0x6400, .tcAct2act), (0x6500, .tcBusrd2rd), (0x6600, .tcBusrd2wr), (0x6700, .tcBuswr2rd), (0x6800, .tcBwratio),
    (0x6900, .tcBwratioext), (0x6A00, .tcFaw), (0x6B00, .tcFawbank), (0x6C00, .tcSize)] = true := by decide
theorem test_decode_family4 : allDecode [(0x8000, .fwDeny), (0x8100, .fwCheck), (0x8200, .fwRegion 0), (0x8217, .fwRegion 23),
    (0x8300, .fwReport)] = true := by decide
theorem test_decode_family5 : allDecode [(0xA000, .eccEntry), (0xA100, .eccSbe), (0xA200, .eccDbe), (0xA300, .eccClear),
    (0xA400, .eccExit)] = true := by decide
theorem test_decode_family7 : allDecode [(0xE000, .idle), (0xE100, .arm), (0xE200, .steady), (0xE300, .halt), (0xE400, .print 0),
    (0xE407, .print 7), (0xE500, .setenv), (0xE600, .wdkick)] = true := by decide

/-- The reserved words of section 3.7 of the vectors. -/
theorem test_decode_reserved : ([0x0600, 0x0001, 0x2000, 0x2F00, 0x4700, 0x6D00, 0x8218, 0x8301, 0xA500, 0xC000, 0xE408, 0xE700,
    0xFFFF] : List Nat).all (fun w => (decodeTableWord 16 w).isNone) = true := by decide

/-! ## Family 0 -/

/-- A1. -/
theorem test_rdreg : shown (exec .rdreg (portOf 0x1004 0 0 0 [(0x1004, 4)])) (fun t => (t.unit.rdata, t.trace)) =
    some (4, [.busRead 0x1004 4]) := by decide
/-- R63. -/
theorem test_rdreg_misaligned : refusalOf (exec .rdreg (portOf 0x1006 0 0 0 [])) = some (.misalignedAddress 0x1006) := by decide
/-- A2. -/
theorem test_wrreg : shown (exec .wrreg (portOf 0x1000 0 0 0 [(0x1000, 0xF)])) (fun t => (t.space.readWord 0x1000, t.trace)) =
    some (0, [.busWrite 0x1000 0]) := by decide
/-- R76 with R28: INTSTAT clears its flags on ones, sets none, and its other bits take the value written. -/
theorem test_wrreg_intstat :
    shown (exec .wrreg (portOf 0x8000 0x21 0 0 [(0x8000, 0x13)])) (fun t => t.space.readWord 0x8000) = some 0x22 ∧
    shown (exec .wrreg (portOf 0x8000 0xFFFFFFFF 0 0 [])) (fun t => t.space.readWord 0x8000) = some 0xFFFFFFFC := by decide
/-- A3. -/
theorem test_setbit : shown (exec .setbit (portOf 0x1000 0 3 0 [])) busOf = some [.busRead 0x1000 0, .busWrite 0x1000 8] := by
  decide
/-- A4. -/
theorem test_setbit_already : shown (exec .setbit (portOf 0x1000 0 3 0 [(0x1000, 8)])) busOf =
    some [.busRead 0x1000 8, .busWrite 0x1000 8] := by decide
/-- A5. -/
theorem test_clrbit : shown (exec .clrbit (portOf 0x1008 0 31 0 [(0x1008, 0xC0000001)])) busOf =
    some [.busRead 0x1008 0xC0000001, .busWrite 0x1008 0x40000001] := by decide
/-- A9 with A10: CALRDY only from the 10th, or only from the 11th, read on. -/
theorem test_pollbit :
    let s := portOf 0x100C 0 31 1000 []
    let at10 := pokeMoves (List.replicate 9 (0x100C, 0) ++ [(0x100C, 0x80000000)])
    let at11 := pokeMoves (List.replicate 10 (0x100C, 0) ++ [(0x100C, 0x80000000)])
    shown (exec .pollbit { s with env := ⟨at10, .quiet, 0⟩ }) (fun t => (t.unit.ok, waitCount t.trace, (busOf t).length)) =
        some (true, 10, 10) ∧
      shown (exec .pollbit { s with env := ⟨at11, .quiet, 0⟩ }) (fun t => (t.unit.ok, kickCount t.trace, (busOf t).length)) =
        some (false, 10, 10) := by decide +kernel
/-- A11 and A12. -/
theorem test_pollbit_budget :
    ([0, 1, 100, 101, 199, 200] : List Word).map (fun us =>
      shown (exec .pollbit (portOf 0x100C 0 31 us [])) (fun t => (t.unit.ok, t.trace.length))) =
    [some (false, 0), some (false, 3), some (false, 3), some (false, 6), some (false, 6), some (false, 6)] := by decide +kernel
/-- A16. -/
theorem test_delay :
    shown (exec .delay { freshOf [] with unit := { AccessUnit.reset with ms := 3 } }) State.trace =
      some [.wait 1000, .kick, .wait 1000, .kick, .wait 1000, .kick] := by decide

/-! ## Family 1: H1, each step on the registers the step before left -/

theorem test_hs1 : shown (exec .hs1 (freshOf [])) (fun t => (t.regs.seqOp, kickCount t.trace)) = some (0x2200, 500) := by
  decide +kernel
theorem test_hs2 : shown (exec .hs2 (freshOf [(0x1008, 0xC0000000)])) (fun t => (t.regs.seqOp, t.trace)) =
    some (0x2300, [.busRead 0x1008 0xC0000000, .busWrite 0x1008 0x40000000]) := by decide
theorem test_hs3 : shown (exec .hs3 (freshOf [(0x1000, 0xF)])) (fun t => (t.regs.seqOp, t.trace)) =
    some (0x2400, [.busWrite 0x1000 0]) := by decide
theorem test_hs4 : shown (exec .hs4 (freshOf [(0x1008, 0x40000000)])) (fun t => (t.regs.seqOp, t.trace)) =
    some (0x2500, [.busRead 0x1008 0x40000000, .busWrite 0x1008 0]) := by decide
theorem test_hs5 : shown (exec .hs5 (freshOf [])) (fun t => (t.regs.seqOp, t.trace)) =
    some (0x2600, [.busRead 0x1008 0, .busWrite 0x1008 0x80000000]) := by decide
theorem test_hs6 : shown (exec .hs6 (freshOf [(0x100C, 0x80000000)])) (fun t => (t.regs.seqOp, t.trace)) =
    some (0x2700, [.wait 100, .kick, .busRead 0x100C 0x80000000]) := by decide
theorem test_hs7 : shown (exec .hs7 (freshOf [])) (fun t => (t.regs.seqOp, t.trace)) =
    some (0x2800, [.busRead 0x1000 0, .busWrite 0x1000 8]) := by decide
theorem test_hs8 : shown (exec .hs8 (freshOf [(0x1004, 4)])) (fun t => (t.regs.seqOp, busOf t)) =
    some (0x2900, [.busRead 0x1004 4]) := by decide
theorem test_hs9 : shown (exec .hs9 (freshOf [(0x1000, 8)])) (fun t => (t.regs.seqOp, t.trace)) =
    some (0x2A00, [.busRead 0x1000 8, .busWrite 0x1000 0]) := by decide
/-- H10: REQACK drops at the second read. -/
theorem test_hs10 :
    shown (exec .hs10 { freshOf [] with env := ⟨pokeMoves [(0x1004, 4), (0x1004, 0)], .quiet, 0⟩ })
      (fun t => (t.regs.seqOp, busOf t)) = some (0x2B00, [.busRead 0x1004 4, .busRead 0x1004 0]) := by decide
theorem test_hs11 : shown (exec .hs11 (freshOf [(0x1008, 0x80000000)])) (fun t => (t.regs.seqOp, t.trace)) =
    some (0x2C00, [.busRead 0x1008 0x80000000, .busWrite 0x1008 0xC0000000]) := by decide
/-- H5: CALRDY never drops. -/
theorem test_hs12 : shown (exec .hs12 (freshOf [(0x100C, 0x80000000)]))
    (fun t => (t.regs.seqOp, t.regs.hsrc, (busOf t).length, kickCount t.trace)) = some (0x4200, 0xFFFFFFFC, 10, 10) := by
  decide +kernel
theorem test_hs12_reference :
    shown (exec .hs12 { freshOf [(0x1008, 0xC0000000)] with env := ⟨[], .reference, 0⟩ })
      (fun t => (t.regs.seqOp, busOf t)) = some (0x2D00, [.busRead 0x100C 0]) := by decide
theorem test_hs13 : shown (exec .hs13 (freshOf [(0x1008, 0xC0000000)])) (fun t => (t.regs.seqOp, t.trace)) =
    some (0x2E00, [.busRead 0x1008 0xC0000000, .busWrite 0x1008 0x80000000]) := by decide
theorem test_hs14 : shown (exec .hs14 (freshOf [(0x100C, 0x80000000)])) (fun t => (t.regs.seqOp, busOf t, kickCount t.trace)) =
    some (0x4300, [.busRead 0x100C 0x80000000, .busRead 0x1000 0, .busWrite 0x1000 8], 101) := by decide +kernel

/-! ## Family 2 -/

/-- C2. -/
theorem test_rcGate : shown (exec .rcGate (stateOf { Regs.reset with att := 3, calok := true } [(0x2000, 1)]))
    (fun t => (t.regs.seqOp, t.regs.att, t.regs.calok, t.trace)) = some (0x4100, 0, false, [.busRead 0x2000 1]) := by decide
/-- C3. -/
theorem test_rcGate_mismatch : shown (exec .rcGate (stateOf { Regs.reset with rcrc := 9 } [(0x2000, 0x80000001)]))
    (fun t => (t.regs.seqOp, t.regs.rcrc, t.trace)) = some (0x4600, 0, [.busRead 0x2000 0x80000001]) := by decide
/-- C4. -/
theorem test_rcAttempt : shown (exec .rcAttempt (stateOf { Regs.reset with att := 2, pj := 10 } []))
    (fun t => (t.regs.seqOp, t.regs.pj, t.regs.att)) = some (0x2100, 0, 2) := by decide
/-- C5. -/
theorem test_rcAttempt_done : shown (exec .rcAttempt (stateOf { Regs.reset with att := 3, pj := 10 } []))
    (fun t => (t.regs.seqOp, t.regs.pj)) = some (0x4500, 10) := by decide
/-- C6. -/
theorem test_rcHsfail : shown (exec .rcHsfail (stateOf { Regs.reset with hsrc := 0xFFFFFFFD, att := 1 } []))
    (fun t => (t.regs.seqOp, t.regs.att, t.out.console)) = some (0x4100, 2, textBytes "DDRCAL: Failure: -3\n") := by decide +kernel
/-- C8. -/
theorem test_rcStatpoll : shown (exec .rcStatpoll (stateOf { Regs.reset with pj := 9 } [(0x3000, 0xFFFFFFFE)]))
    (fun t => (t.regs.seqOp, t.regs.pj, t.regs.calok, kickCount t.trace)) = some (0x4400, 10, false, 500) := by decide +kernel
/-- C9. -/
theorem test_rcStatpoll_set : shown (exec .rcStatpoll (stateOf { Regs.reset with pj := 9 } [(0x3000, 1)]))
    (fun t => (t.regs.seqOp, t.regs.pj, t.regs.calok)) = some (0x4500, 10, true) := by decide +kernel
/-- C11. -/
theorem test_rcRetry : shown (exec .rcRetry (stateOf { Regs.reset with att := 2 } []))
    (fun t => (t.regs.seqOp, t.regs.att, t.out.console)) = some (0x4100, 3, textBytes "DDRCAL: Retry\n") := by decide +kernel
/-- C12. -/
theorem test_rcFinish : shown (exec .rcFinish (stateOf { Regs.reset with calok := true, rcrc := 7 } []))
    (fun t => (t.regs.seqOp, t.regs.rcrc, t.trace)) = some (0x4600, 0, []) := by decide
/-- C13. -/
theorem test_rcFinish_exhausted : shown (exec .rcFinish (freshOf []))
    (fun t => (t.regs.seqOp, t.regs.rcrc, t.out.console)) =
      some (0x4600, 0xFFFFFFFF, textBytes "Error: Could Not Calibrate SDRAM\n") := by decide +kernel
/-- C14. -/
theorem test_bootReport : shown (exec .bootReport (freshOf []))
    (fun t => (t.regs.seqOp, t.regs.halted, t.out.console)) = some (0x6000, false, textBytes "DDRCAL: Success\n") := by
  decide +kernel
/-- C15. -/
theorem test_bootReport_failed : shown (exec .bootReport (stateOf { Regs.reset with rcrc := 0xFFFFFFFF } []))
    (fun t => (t.regs.seqOp, t.regs.halted, t.regs.haltCause.code, t.out.console)) =
      some (0xE300, true, 1, textBytes "DDRCAL: Failed\n") := by decide +kernel

/-! ## Family 3 -/

/-- The raw fields of T20. -/
def t20 : RawTable Word where
  order := 0
  colw := 10
  roww := 15
  bankw := 2
  bgw := 1
  burstlen := 8
  rdlat := 10
  rd2pch := 5
  pch2valid := 6
  act2rdwr := 7
  rd2wr := 4
  act2act := 12
  rd2rdDd := 2
  rd2wrDd := 3
  wr2rdDd := 2
  bwratio := 1
  bwratioext := 0
  faw := 16
  iowidth := 1

/-- A state with latched raw fields. -/
def rawOf (r : RawTable Word) (l : List (Addr × Word)) : State := stateOf { Regs.reset with raw := r } l

/-- T20: the latches. -/
theorem test_tcLoad : shown (exec .tcLoad (freshOf [(0x4004, 0x49EA), (0x4008, 0x148), (0x400C, 0x0C107185), (0x4010, 0x29A),
    (0x4014, 0x10), (0x4018, 1)])) (fun t => (t.regs.seqOp, t.regs.raw, (busOf t).length)) = some (0x6100, t20, 19) := by
  decide +kernel
/-- T20, T12b. -/
theorem test_tcGeom : shown (exec .tcGeom (rawOf t20 [(0x5000, 0xFFFFFFFF)])) (fun t => (t.regs.seqOp, t.regs.geomidx, t.trace)) =
    some (0x6200, 2, [.busRead 0x5000 0xFFFFFFFF, .busWrite 0x5000 0xFFFFFFE2]) := by decide +kernel
/-- T12. -/
theorem test_tcGeom_none : shown (exec .tcGeom (rawOf { t20 with order := 1 } [])) (fun t => (t.regs.seqOp, t.regs.geomidx, t.trace)) =
    some (0x6200, 0, []) := by decide +kernel
/-- T1, T20. -/
theorem test_tcRd2miss : shown (exec .tcRd2miss (rawOf t20 [(0x5004, 0xFFFFFFFF)]))
    (fun t => (t.regs.seqOp, t.regs.derRd2miss, t.trace)) =
      some (0x6300, 16, [.busRead 0x5004 0xFFFFFFFF, .busWrite 0x5004 0xFFFFF43F]) := by decide +kernel
/-- T4: the working register keeps the wrapped value, the field its low bits. -/
theorem test_tcRd2miss_wrap :
    shown (exec .tcRd2miss (rawOf { t20 with rd2pch := 0, pch2valid := 0, act2rdwr := 0 } []))
      (fun t => (t.regs.derRd2miss, t.space.readWord 0x5004)) = some (0xFFFFFFFE, 62 * 64) := by decide +kernel
/-- T6, T20; 26 would be the other reading of the source's parenthesis. -/
theorem test_tcWr2miss : shown (exec .tcWr2miss (rawOf t20 [(0x5004, 0xFFFFF43F)]))
    (fun t => (t.regs.seqOp, t.regs.derWr2miss, t.trace)) =
      some (0x6400, 24, [.busRead 0x5004 0xFFFFF43F, .busWrite 0x5004 0xFFFD843F]) := by decide +kernel
/-- T9. -/
theorem test_tcWr2miss_wrap :
    shown (exec .tcWr2miss (rawOf { t20 with rdlat := 0, burstlen := 0, rd2wr := 63, act2rdwr := 0, pch2valid := 0 } []))
      (fun t => (t.regs.derWr2miss, t.space.readWord 0x5004)) = some (0xFFFFFFC9, 9 * 4096) := by decide +kernel

/-- The transactions of T20 from `TC_ACT2ACT` on. -/
theorem test_tcAct2act : shown (exec .tcAct2act (rawOf t20 [(0x5004, 0xFFFD843F)])) (fun t => (t.regs.seqOp, t.trace)) =
    some (0x6500, [.busRead 0x5004 0xFFFD843F, .busWrite 0x5004 0xFFFD840C]) := by decide +kernel
theorem test_tcBusrd2rd : shown (exec .tcBusrd2rd (rawOf t20 [])) (fun t => (t.regs.seqOp, t.trace)) =
    some (0x6600, [.busRead 0x5008 0, .busWrite 0x5008 2]) := by decide +kernel
theorem test_tcBusrd2wr : shown (exec .tcBusrd2wr (rawOf t20 [(0x5008, 2)])) (fun t => (t.regs.seqOp, t.trace)) =
    some (0x6700, [.busRead 0x5008 2, .busWrite 0x5008 0x1A]) := by decide +kernel
theorem test_tcBuswr2rd : shown (exec .tcBuswr2rd (rawOf t20 [(0x5008, 0x1A)])) (fun t => (t.regs.seqOp, t.trace)) =
    some (0x6800, [.busRead 0x5008 0x1A, .busWrite 0x5008 0x9A]) := by decide +kernel
theorem test_tcBwratio : shown (exec .tcBwratio (rawOf t20 [])) (fun t => (t.regs.seqOp, t.trace)) =
    some (0x6900, [.busRead 0x500C 0, .busWrite 0x500C 1]) := by decide +kernel
theorem test_tcBwratioext : shown (exec .tcBwratioext (rawOf t20 [(0x5010, 0xFFFFFFFF)])) (fun t => (t.regs.seqOp, t.trace)) =
    some (0x6A00, [.busRead 0x5010 0xFFFFFFFF, .busWrite 0x5010 0xFFFFFFFE]) := by decide +kernel
theorem test_tcFaw : shown (exec .tcFaw (rawOf t20 [])) (fun t => (t.regs.seqOp, t.trace)) =
    some (0x6B00, [.busRead 0x5014 0, .busWrite 0x5014 0x10]) := by decide +kernel
theorem test_tcFawbank : shown (exec .tcFawbank (rawOf t20 [(0x5014, 0x10)])) (fun t => (t.regs.seqOp, t.trace)) =
    some (0x6C00, [.busRead 0x5014 0x10, .busWrite 0x5014 0x00010010]) := by decide +kernel
/-- T13, T15, T16, T19: `SIZE` and `SIZE_OUT` in 32 bits. -/
theorem test_tcSize : ([(10, 15, 3, 0, 1), (10, 16, 3, 0, 1), (10, 16, 2, 2, 1), (31, 31, 15, 3, 3)] :
    List (Word × Word × Word × Word × Word)).map (fun p =>
      shown (exec .tcSize (rawOf { t20 with colw := p.1, roww := p.2.1, bankw := p.2.2.1, bgw := p.2.2.2.1, iowidth := p.2.2.2.2 } []))
        (fun t => (t.regs.seqOp, t.regs.size, t.regs.sizeOut))) =
    [some (0x8000, 1073741824, 1073741824), some (0x8000, -2147483648, 1073741824), some (0x8000, 0, 1073741824),
     some (0x8000, 0, 1073741824)] := by decide +kernel
/-- T15, T18, T19: `SIZE` in 64 bits. -/
theorem test_size64 : sizeValue 64 { t20 with colw := 10, roww := 16, bankw := 3, bgw := 0 } = 2147483648 ∧
    sizeValue 64 { t20 with colw := 31, roww := 31, bankw := 0, bgw := 0, iowidth := 0 } = -2 ^ 63 ∧
    sizeValue 64 { t20 with colw := 31, roww := 31, bankw := 15, bgw := 3, iowidth := 3 } = 0 := by decide +kernel
/-- A17 to A20, A23, A24. -/
theorem test_fields : insertField ⟨0x5004, 6, 6⟩ 0xFFFFFFFF 16 = 0xFFFFF43F ∧ insertField ⟨0, 0, 3⟩ 0 9 = 1 ∧
    insertField ⟨0, 0, 32⟩ 0x12345678 0xAABBCCDD = 0xAABBCCDD ∧ insertField ⟨0, 31, 1⟩ 0 1 = 0x80000000 ∧
    extract ⟨0, 5, 5⟩ 0x49EA = 15 ∧ extract ⟨0, 24, 6⟩ 0x0C107185 = 12 := by decide

/-! ## Family 4 -/

/-- The name of entry `i` of `EX1`. -/
def fwName (i : Nat) : RegionName := (CfgData.ex1Fw i).name

/-- A state with a board configuration of the third shape. -/
def boardOf (m : List (RegionName × List Word)) (l : List (Addr × Word)) : State := { freshOf l with board := .regions m }

/-- F1. -/
theorem test_fwDeny : shown (exec .fwDeny (freshOf [(0x6000, 0xFFFF), (0x7000, 0xFF)])) (fun t => (t.regs.seqOp, t.trace)) =
    some (0x8100, [.busWrite 0x6000 0, .busWrite 0x7000 0]) := by decide
/-- F1 to F3. -/
theorem test_fwCheck : ([.noNode, .noChild, .regions []] : List BoardCfg).map (fun b =>
      shown (exec .fwCheck { freshOf [] with board := b }) (fun t => (t.regs.seqOp, t.regs.fwrc, t.trace))) =
    [some (0x8300, 2, []), some (0x8300, 1, []), some (0x8200, 0, [])] := by decide
/-- F4. -/
theorem test_fwRegion : shown (exec (.fwRegion 5) (boardOf [(fwName 5, [0x10, 0x3FFF])] [])) (fun t => (t.regs.seqOp, t.trace)) =
    some (0x8206, [.busWrite 0x6024 0x3FFF0010, .busRead 0x6000 0, .busWrite 0x6000 0x20]) := by decide +kernel
/-- F5, F3: a start beyond its mask and an end beyond the shift; an absent entry, the last one. -/
theorem test_fwRegion_masked :
    shown (exec (.fwRegion 12) (boardOf [(fwName 12, [0x12345678, 0x1ABCD])] [])) busOf =
      some [.busWrite 0x7010 0xABCD5678, .busRead 0x7000 0, .busWrite 0x7000 1] ∧
    shown (exec (.fwRegion 23) (boardOf [(fwName 12, [0, 0])] [])) (fun t => (t.regs.seqOp, t.trace)) = some (0x8300, []) := by
  decide +kernel
/-- F1. -/
theorem test_fwReport : shown (exec .fwReport (stateOf { Regs.reset with fwrc := 2 } [])) (fun t => (t.regs.seqOp, t.out.console)) =
    some (0xE100, textBytes "FW: Error Configuring Firewall\n") := by decide +kernel
/-- F3. -/
theorem test_fwReport_ok : shown (exec .fwReport (freshOf [])) (fun t => (t.regs.seqOp, t.trace)) = some (0xE100, []) := by decide

/-! ## Family 5 -/

/-- The block in the handler, with `CNT` = 5 and the latched status `v`. -/
def handlerOf (v : Word) (l : List (Addr × Word)) : State :=
  stateOf { Regs.reset with seqOp := 0xA000, ctx := .irq, insvc := true, armed := true, cnt := 5, istat := v } l

/-- E1. -/
theorem test_eccEntry : shown (exec .eccEntry (handlerOf 0 [(0x8000, 1)])) (fun t => (t.regs.seqOp, t.regs.istat, t.trace)) =
    some (0xA100, 1, [.busRead 0x8000 1]) := by decide
/-- E1. -/
theorem test_eccSbe : shown (exec .eccSbe (handlerOf 1 [(0x8004, 0x10000040), (0x800C, 3)]))
    (fun t => ((t.regs.seqOp, t.regs.cnt, t.out.envVar), t.regs.sbeAddrL, busOf t, t.out.console)) =
      some ((0xA200, 8, some 8), 0x10000040, [.busRead 0x8004 0x10000040, .busRead 0x800C 3],
        textBytes "Info: SDRAM ECC SBE @ 0x10000040\n") := by decide +kernel
/-- E6: the counter wraps. -/
theorem test_eccSbe_wrap : shown (exec .eccSbe
    (stateOf { Regs.reset with cnt := 0xFFFFFFFE, istat := 0xFFFFFFFD } [(0x800C, 5)]))
    (fun t => (t.regs.cnt, t.out.envVar)) = some (3, some 3) := by decide +kernel
/-- E2. -/
theorem test_eccDbe : shown (exec .eccDbe (handlerOf 2 [(0x8008, 0x2000FF00)]))
    (fun t => ((t.regs.seqOp, t.regs.dbeAddrL, t.regs.dbeCntL), t.regs.cnt, busOf t, t.out.console)) =
      some ((0xA300, 0x2000FF00, 5), 5, [.busRead 0x8008 0x2000FF00], textBytes "Error: SDRAM ECC DBE occurred\n") := by
  decide +kernel
/-- E4: neither flag latched. -/
theorem test_ecc_spurious : shown (exec .eccSbe (handlerOf 0 [])) (fun t => (t.regs.seqOp, t.trace)) = some (0xA200, []) ∧
    shown (exec .eccDbe (handlerOf 0 [])) (fun t => (t.regs.seqOp, t.trace)) = some (0xA300, []) := by decide
/-- E1: the clear sequence; SBECNT is reset by the pulse (R76). -/
theorem test_eccClear : shown (exec .eccClear (handlerOf 1 [(0x8010, 1), (0x8000, 3), (0x800C, 3)]))
    (fun t => (t.regs.seqOp, t.trace, t.space.readWord 0x8000, t.space.readWord 0x800C)) =
      some (0xA400, [.busRead 0x8010 1, .busWrite 0x8010 3, .busRead 0x8010 3, .busWrite 0x8010 1, .busWrite 0x8000 3], 0, 0) := by
  decide +kernel
/-- E1: the return. -/
theorem test_eccExit : shown (exec .eccExit (handlerOf 1 [])) (fun t => (t.regs.seqOp, t.regs.insvc, t.regs.ctx, t.trace)) =
    some (0xE200, false, .main, [.irqReturn]) := by decide
/-- E9: the halt. -/
theorem test_eccExit_halt : shown (exec .eccExit (handlerOf 2 [(0x8014, 0xFFFFFFFF)]))
    (fun t => ((t.regs.seqOp, t.regs.halted, t.regs.haltCause.code), t.regs.insvc, t.regs.ctx, t.trace)) =
      some ((0xE300, true, 2), true, .irq, [.busRead 0x8014 0xFFFFFFFF, .busWrite 0x8014 0xFFFFFFFC, .halt .eccDbe]) := by
  decide +kernel

/-! ## Family 7, reset, steps -/

/-- Y3. -/
theorem test_idle : shown (exec .idle { freshOf [] with inp := ⟨true, false, false⟩ }) (fun t => t.regs.seqOp) = some 0x4000 := by
  decide
/-- Y2. -/
theorem test_idle_waits : shown (exec .idle { freshOf [] with inp := ⟨false, true, false⟩ }) (fun t => (t.regs.seqOp, t.trace)) =
    some (0xE000, []) := by decide
/-- Y4. -/
theorem test_arm : shown (exec .arm (freshOf [])) (fun t => (t.regs.seqOp, t.regs.armed, t.trace)) = some (0xE200, true, []) := by
  decide
/-- The entry of section 3.6: `STEADY` armed with `ecc_irq` = 1. -/
theorem test_steady_irq :
    shown (exec .steady { stateOf { Regs.reset with armed := true } [] with inp := ⟨false, true, false⟩ })
      (fun t => (t.regs.seqOp, t.regs.insvc, t.regs.ctx, t.trace)) = some (0xA000, true, .irq, [.irqEnter]) := by decide
/-- Y5. -/
theorem test_steady : shown (exec .steady (stateOf { Regs.reset with armed := true } [])) (fun t => (t.regs.seqOp, t.trace)) =
    some (0xE200, []) := by decide
/-- Y6. -/
theorem test_halt : shown (exec .halt (freshOf [])) (fun t => (t.regs.seqOp, t.trace)) = some (0xE300, []) := by decide
/-- Y7. -/
theorem test_print : shown (exec (.print 0) { freshOf [] with unit := { AccessUnit.reset with parg := 0xFFFFFFFD } })
    (fun t => t.out.console) = some (textBytes "DDRCAL: Failure: -3\n") := by decide +kernel
/-- Y9. -/
theorem test_print_hex : shown (exec (.print 6) { freshOf [] with unit := { AccessUnit.reset with parg := 0xDEADBEEF } })
    (fun t => t.out.console) = some (textBytes "Info: SDRAM ECC SBE @ 0xdeadbeef\n") := by decide +kernel
/-- R245. -/
theorem test_setenv : shown (exec .setenv (portOf 0 5 0 0 [])) (fun t => (t.bootEnv, t.trace)) =
    some ([("sdram_ecc_sbe", 5)], [.setEnv 5]) := by decide
/-- R246. -/
theorem test_wdkick : shown (exec .wdkick (freshOf [])) (fun t => (t.regs.seqOp, t.trace)) = some (0xE000, [.kick]) := by decide

/-- Y1. -/
theorem test_reset : State.reset.regs.seqOp = 0xE000 ∧ State.reset.out.console = [] ∧ State.reset.haltOut = false := by decide
/-- The fetch of a class S word and of a class U word. -/
theorem test_fetch : ((freshOf []).withFetchWord 16 0x2E00).fetch.toOption.map Prod.fst = some .hs14 ∧
    ((freshOf []).withFetchWord 16 0x0400).fetch.toOption.map Prod.fst = some .pollbit := by decide
/-- R85: the word of a class U operation in `SEQ.op` is refused in a halted block and with a command pending. -/
theorem test_fetch_refused :
    let u := stateOf { Regs.reset with seqOp := 0xE600, halted := true } []
    refusalOf (step u) = some (.unitCommandInSeqOp 0xE600) ∧
    refusalOf (step { u with regs := { u.regs with halted := false }, unit := { u.unit with cmd := some 0xE600 } }) =
      some (.unitCommandInSeqOp 0xE600) := by decide
/-- R68 with R273: PLATFORM sets no bit of ERRINTEN in context IRQ, and may once the block has halted. -/
theorem test_errinten_contexts :
    let s : State := { handlerOf 2 [] with env := ⟨pokeMoves [(0x8014, 1)], .quiet, 0⟩ }
    s.envPoint.space.readWord 0x8014 = 0 ∧
    (State.envPoint { s with regs := { s.regs with halted := true } }).space.readWord 0x8014 = 1 := by decide
/-- R249: a run that met a double-bit error on its arrival in `STEADY` has ended and passed. -/
theorem test_run_passed :
    let s := stateOf { Regs.reset with seqOp := 0xE300, armed := true, halted := true, haltCause := .eccDbe } []
    s.runEnded = true ∧ s.runPassed = true ∧ s.runFailed = false := by decide
/-- A read of a register during which `rst` rises ends in reset (R281, R290). -/
theorem test_reset_midway :
    shown (step { stateOf { Regs.reset with seqOp := 0x2200, att := 2 } [(0x1008, 0xC0000000)] with
      env := ⟨[{ quietMove with rst := true }], .quiet, 0⟩ })
      (fun t => (t.regs.seqOp, t.regs.att, t.space.readWord 0x1008, t.trace)) = some (0xE000, 0, 0xC0000000, []) := by
  decide +kernel

/-! ## Witnesses: states and operands that meet the hypotheses of the statements -/

/-- A decided property of the next state holds of a next state. -/
theorem ends {o : Host.Outcome State Fault Refusal} {P : State → Prop} [DecidablePred P]
    (h : shown o (fun t => decide (P t)) = some true) : ∃ t, o = .next t ∧ P t := by
  cases o with
  | next t => exact ⟨t, rfl, by simpa [shown] using h⟩
  | fault f => cases h
  | refused r => cases h

/-- A state with all flags and counters at reset in canonical form, whose operation completes with `rst` low. -/
def quietRun (i : Instr) (s : State) : Bool :=
  s.space.wf && shown (exec i s) (fun t => t.inp.rst) == some false

/-- A reserved word, a class U word and, on the command port, a reserved word and a class S word. -/
theorem witness_UnrunnableWordsAreRefused :
    let s := stateOf { Regs.reset with seqOp := 0xC000 } []
    let u := stateOf { Regs.reset with seqOp := 0xE600 } []
    let on (w : OpWord) : State := { freshOf [] with unit := { AccessUnit.reset with cmd := some w } }
    (s.inp.rst = false ∧ decode s.regs.seqOp = .error .family) ∧
    (u.inp.rst = false ∧ decode u.regs.seqOp = .ok .wdkick ∧ Instr.opClass .wdkick = .unitCommand) ∧
    ((on 0xE700).inp.rst = false ∧ (on 0xE700).regs.halted = false ∧ decode (on 0xE700).regs.seqOp = .ok .idle ∧
      Instr.opClass .idle = .sequencerState ∧ decode 0xE700 = .error .index) ∧
    ((on 0x2100).regs.halted = false ∧ decode 0x2100 = .ok .hs1 ∧ Instr.opClass .hs1 = .sequencerState) := by decide

/-- Steps in reset, halted, with an operation in `SEQ.op` and with a command on the port. -/
theorem witness_StepRunsTheDecodedOperation :
    (({ freshOf [] with inp := ⟨false, false, true⟩ } : State).inp.rst = true) ∧
    (let s := stateOf { Regs.reset with halted := true } [];
      s.inp.rst = false ∧ s.regs.halted = true ∧ decode s.regs.seqOp = .ok .idle ∧ Instr.opClass .idle = .sequencerState) ∧
    (∃ t, exec .hs3 (stateOf { Regs.reset with seqOp := 0x2300 } []) = .next t ∧
      (stateOf { Regs.reset with seqOp := 0x2300 } []).unit.cmd = none ∧ decode 0x2300 = .ok .hs3) ∧
    (∃ t, exec .rdreg ((freshOf []).withFetchWord 16 0x0000).clearCmd = .next t ∧
      ((freshOf []).withFetchWord 16 0x0000).unit.cmd = some 0 ∧ decode 0 = .ok .rdreg ∧
      decode ((freshOf []).withFetchWord 16 0x0000).regs.seqOp = .ok .idle) ∧
    exec .rdreg ((portOf 0x1006 0 0 0 []).withFetchWord 16 0x0000).clearCmd = .refused (.misalignedAddress 0x1006) := by
  exact ⟨by decide, by decide, ⟨_, rfl, by decide⟩, ⟨_, rfl, by decide⟩, rfl⟩

/-- The end of a step with `rst` low, the environment poking a register it owns and one it does not own, and with `rst` high. -/
theorem witness_EndOfStepIsTheEnvironments :
    ({ freshOf [] with env := ⟨pokeMoves [(0x1004, 4)], .quiet, 0⟩ } : State).endStep.inp.rst = false ∧
    envByte CfgData.ex1 0x1004 = true ∧ envByte CfgData.ex1 0x1000 = false ∧
    ({ freshOf [] with env := ⟨[{ quietMove with rst := true }], .quiet, 0⟩ } : State).endStep.inp.rst = true := by decide

/-- A step in reset. -/
theorem witness_ResetStateIsTheStated :
    ∃ s t : State, s.inp.rst = true ∧ s.regs.cnt = 5 ∧ step s = .next t := by
  exact ⟨{ handlerOf 0 [] with inp := ⟨false, false, true⟩ }, _, by decide, by decide, rfl⟩

/-- The invariant holds of the block asleep in `STEADY` with its handler armed, and there is a step from there. -/
theorem witness_StepKeepsTheInvariant :
    let s := stateOf { Regs.reset with seqOp := 0xE200, armed := true } [(0x8000, 1)]
    Inv s ∧ s.unit.cmd = none ∧ ∃ t, step s = .next t := by
  refine ⟨⟨by decide +kernel, by decide, .steady, by decide, by decide, ?_⟩, by decide, _, rfl⟩
  exact ⟨by decide, by decide, by decide, by decide, by decide, by decide, by decide, by decide,
    fun f => by cases f <;> decide, by decide, by decide, by decide +kernel, by decide, by decide, by decide, by decide, by decide,
    by decide⟩

/-- The invariant holds of the block in the middle of an attempt, at `HS8` of the second, with no command pending: a state from
which the way to a resting operation is long. -/
theorem witness_BlockReachesARestingOperation :
    let s := stateOf { Regs.reset with seqOp := 0x2800, att := 1, hsrc := 0xFFFFFFFC } [(0x1000, 8)]
    Inv s ∧ s.unit.cmd = none ∧ s.op? = some .hs8 := by
  refine ⟨⟨by decide +kernel, by decide, .hs8, by decide, by decide, ?_⟩, by decide, by decide⟩
  exact ⟨by decide, by decide, by decide, by decide, by decide, by decide, by decide, by decide,
    fun f => by cases f <;> decide, by decide, by decide, by decide +kernel, by decide, by decide, by decide, by decide, by decide,
    by decide⟩

/-- The invariant holds of runs that have ended: in `STEADY`, in `HALT` with cause 1, and in `HALT` with cause 2. -/
theorem witness_EndedRunsPassedOrFailed :
    (let s := stateOf { Regs.reset with seqOp := 0xE200, armed := true } [];
      Inv s ∧ s.runEnded = true ∧ s.op? = some .steady) ∧
    (let s := stateOf { Regs.reset with seqOp := 0xE300, halted := true, haltCause := .calExhaust, rcrc := 0xFFFFFFFF } [];
      Inv s ∧ s.runEnded = true ∧ s.op? = some .halt) ∧
    (let s := stateOf { Regs.reset with
        seqOp := 0xE300, halted := true, haltCause := .eccDbe, armed := true, ctx := .irq, insvc := true } [];
      Inv s ∧ s.runEnded = true ∧ s.regs.haltCause = .eccDbe) := by
  refine ⟨⟨⟨by decide +kernel, by decide, .steady, by decide, by decide, ?_⟩, by decide, by decide⟩,
    ⟨⟨by decide +kernel, by decide, .halt, by decide, by decide, ?_⟩, by decide, by decide⟩,
    ⟨⟨by decide +kernel, by decide, .halt, by decide, by decide, ?_⟩, by decide, by decide⟩⟩
  all_goals
    exact ⟨by decide, by decide, by decide, by decide, by decide, by decide, by decide, by decide,
      fun f => by cases f <;> decide, by decide, by decide, by decide +kernel, by decide, by decide, by decide, by decide,
      by decide, by decide⟩

/-- A canonical Register Space and a step that writes to it. -/
theorem witness_StepKeepsTheCanonicalForm :
    (stateOf { Regs.reset with seqOp := 0x2300 } [(0x1000, 0xF)]).space.wf = true ∧
    ∃ t, step (stateOf { Regs.reset with seqOp := 0x2300 } [(0x1000, 0xF)]) = .next t := ⟨by decide +kernel, _, rfl⟩

/-- Operations that complete, one of each class. -/
theorem witness_SequencerFollowsTheSuccessorTable :
    (∃ t, exec (.fwRegion 23) (freshOf []) = .next t ∧ Instr.opClass (.fwRegion 23) = .sequencerState) ∧
    (∃ t, exec .wdkick (freshOf []) = .next t ∧ Instr.opClass .wdkick = .unitCommand) := ⟨⟨_, rfl, rfl⟩, ⟨_, rfl, rfl⟩⟩

/-- For every register of tables T7 and T8, an operation that changes it. -/
theorem witness_RegistersChangeOnlyInTheirWriters :
    let ch (i : Instr) (r : Regs) (l : List (Addr × Word)) (p : Regs → Bool) : Bool :=
      shown (exec i (stateOf r l)) (fun t => p t.regs) == some true
    let z := Regs.reset
    ch .rcRetry z [] (fun r => r.att != z.att) = true ∧ ch .rcStatpoll z [] (fun r => r.pj != z.pj) = true ∧
    ch .hs12 z [(0x100C, 0x80000000)] (fun r => r.hsrc != z.hsrc) = true ∧ ch .rcFinish z [] (fun r => r.rcrc != z.rcrc) = true ∧
    ch .tcLoad z [(0x4000, 1)] (fun r => r.raw != z.raw) = true ∧
    ch .tcGeom { z with raw := t20 } [] (fun r => r.geomidx != z.geomidx) = true ∧
    ch .tcRd2miss { z with raw := t20 } [] (fun r => r.derRd2miss != z.derRd2miss) = true ∧
    ch .tcWr2miss z [] (fun r => r.derWr2miss != z.derWr2miss) = true ∧
    ch .tcSize z [] (fun r => r.size != z.size && r.sizeOut != z.sizeOut) = true ∧
    ch .fwCheck z [] (fun r => r.fwrc != z.fwrc) = true ∧
    ch .eccEntry z [(0x8000, 1)] (fun r => r.istat != z.istat) = true ∧
    ch .eccSbe { z with istat := 1 } [(0x8004, 4), (0x800C, 1)] (fun r => r.cnt != z.cnt && r.sbeAddrL != z.sbeAddrL) = true ∧
    ch .eccDbe { z with istat := 2, cnt := 5 } [(0x8008, 4)]
      (fun r => r.dbeAddrL != z.dbeAddrL && r.dbeCntL != z.dbeCntL) = true ∧
    ch .bootReport { z with rcrc := 1 } [] (fun r => r.haltCause != z.haltCause && r.halted != z.halted) = true ∧
    ch .rcStatpoll z [(0x3000, 1)] (fun r => r.calok != z.calok) = true ∧ ch .arm z [] (fun r => r.armed != z.armed) = true ∧
    ch .eccExit { z with insvc := true, ctx := .irq } [] (fun r => !r.insvc && decide (r.ctx = .main)) = true := by
  decide +kernel

/-- Ports at the addresses where the clauses of the register access statements meet: an address that is not a multiple of 4, one
that is, INTSTAT, and ECCCTRL with CNTRST going from 0 to 1. -/
theorem witness_RegisterAccess :
    (portOf 0x1003 0 0 0 []).unit.addr.toNat % 4 ≠ 0 ∧
    quietRun .rdreg (portOf 0x1000 0 0 0 [(0x1000, 9)]) = true ∧ (0x1000 : Addr) ∉ envAddrs CfgData.ex1 ∧
    quietRun .wrreg (portOf 0x1000 7 0 0 []) = true ∧ quietRun .wrreg (portOf 0x8000 1 0 0 [(0x8000, 3)]) = true ∧
    bit ((portOf 0x8000 1 0 0 [(0x8000, 3)]).space.readWord 0x8000) 1 = true ∧ bit 1 1 = false ∧
    CfgData.ex1.aIntstat ∉ partnerAddrs CfgData.ex1 ∧ quietRun .wrreg (portOf 0x8010 2 0 0 [(0x800C, 9)]) = true ∧
    bit ((portOf 0x8010 2 0 0 [(0x800C, 9)]).space.readWord 0x8010) 1 = false ∧ CfgData.ex1.aEccctrl ∉ envAddrs CfgData.ex1 ∧
    quietRun .setbit (portOf 0x1000 0 31 0 []) = true ∧ quietRun .clrbit (portOf 0x1000 0 0 0 [(0x1000, 1)]) = true := by
  decide +kernel

/-- SETBIT and CLRBIT at INTSTAT, both flags set before: CLRBIT of a flag writes a zero for it, so it stays set, and a one for the
other, which is cleared; SETBIT writes ones for both. -/
theorem witness_SetbitAndClrbitModifyOneBit :
    let s := portOf 0x8000 0 1 0 [(0x8000, 0x13)]
    s.space.wf = true ∧ s.unit.addr = CfgData.ex1.aIntstat ∧ s.unit.addr.toNat % 4 = 0 ∧
    CfgData.ex1.aIntstat ∉ partnerAddrs CfgData.ex1 ∧ bit (s.space.readWord 0x8000) 1 = true ∧
    bit (s.envPoint.space.readWord 0x8000 &&& ~~~(1#32 <<< 1)) 1 = false ∧
    shown (exec .clrbit s) (fun t => (t.inp.rst, t.space.readWord 0x8000)) = some (false, 0x12) ∧
    shown (exec .setbit s) (fun t => (t.inp.rst, t.space.readWord 0x8000)) = some (false, 0x10) := by decide +kernel

/-- A budget of 0, a misaligned address with a budget, and an aligned one. -/
theorem witness_PollbitPollsWithinItsBudget :
    (portOf 0x100C 0 31 0 []).unit.timeoutUs = 0 ∧ (portOf 0x100D 0 31 1 []).unit.timeoutUs ≠ 0 ∧
    (portOf 0x100D 0 31 1 []).unit.addr.toNat % 4 ≠ 0 ∧ (portOf 0x100C 0 31 1 []).unit.addr.toNat % 4 = 0 := by decide

/-- The message ids where the two clauses meet. -/
theorem witness_ServicesActOnTheirOutputsOnly : (7 : BitVec 8).toNat < 8 ∧ 8 ≤ (8 : BitVec 8).toNat := by decide

/-- Every operation with a premise on the Register Space: a state in canonical form, and `rst` low afterwards. -/
theorem witness_CanonicalOperations :
    ([.hs2, .hs3, .hs4, .hs5, .hs7, .hs9, .hs11, .hs13, .hs14, .tcGeom, .tcRd2miss, .tcWr2miss, .tcAct2act, .tcBusrd2rd,
      .tcBusrd2wr, .tcBuswr2rd, .tcBwratio, .tcBwratioext, .tcFaw, .tcFawbank, .fwDeny, .fwRegion 0, .fwRegion 23, .eccEntry,
      .eccClear, .eccExit] : List Instr).all
      (fun i => quietRun i (rawOf t20 [(0x100C, 0x80000000), (0x6000, 0xFFFF)])) = true := by decide +kernel

/-- Both outcomes of the poll of `HS14`, the failing one on a budget cut to two reads. -/
theorem witness_Hs14EndsTheHandshake :
    (State.pollBit (freshOf [(0x100C, 0x80000000)]) 0x100C 31 true 200).1 = true ∧
    (State.pollBit (freshOf []) 0x100C 31 true 200).1 = false := by decide +kernel

/-- A handshake step that completes with `rst` low, and a byte that the last clause speaks of. -/
theorem witness_HandshakeTouchesOnlyTheHandshakeSet :
    Instr.isHandshake .hs7 = true ∧ quietRun .hs7 (freshOf []) = true ∧ envByte CfgData.ex1 0x8010 = false ∧
    byteOfReg CfgData.ex1.aC2s 0x8010 = false ∧ byteOfReg CfgData.ex1.aGpout 0x8010 = false := by decide +kernel

/-- SILICONID is not the environment's in `EX1`. -/
theorem witness_GateComparesTheWholeSiliconId :
    quietRun .rcGate (freshOf [(0x2000, 1)]) = true ∧ CfgData.ex1.aSiliconid ∉ envAddrs CfgData.ex1 := by decide +kernel

/-- The premises of the retry controller's clauses. -/
theorem witness_RetryControllerDecisions :
    (stateOf { Regs.reset with calok := true } []).regs.calok = true ∧ (freshOf []).regs.calok = false ∧
    (freshOf []).regs.rcrc = 0 ∧ (stateOf { Regs.reset with rcrc := 0xFFFFFFFF } []).regs.rcrc ≠ 0 := by decide

/-- A table without the key, and one with two pairs for it. -/
theorem witness_GeometryLookupTakesTheFirstMatch :
    (∀ p ∈ CfgData.ex1.geomTable, p.1 ≠ (⟨1, 3, 10, 15⟩ : GeomKey)) ∧
    ([(⟨0, 3, 10, 12⟩, 1), (⟨0, 3, 10, 15⟩, 2), (⟨0, 3, 10, 15⟩, 3)] : List (GeomKey × Word)) =
      [(⟨0, 3, 10, 12⟩, 1)] ++ (⟨0, 3, 10, 15⟩, 2) :: [(⟨0, 3, 10, 15⟩, 3)] ∧
    ∀ p ∈ ([(⟨0, 3, 10, 12⟩, 1)] : List (GeomKey × Word)), p.1 ≠ ⟨0, 3, 10, 15⟩ := by decide

/-- Both clauses of `TC_GEOM`: T12 and T20. -/
theorem witness_GeometrySelectsTheConfiguration :
    (rawOf t20 []).space.wf = true ∧ geomLookup (geomKey { t20 with order := 1 }) CfgData.ex1.geomTable = 0 ∧
    geomLookup (geomKey t20) CfgData.ex1.geomTable ≠ 0 := by decide +kernel

/-- The latches of T20 give the values of the statement. -/
theorem witness_DerivedTimingValues :
    (16 : Word) = t20.rd2pch + t20.pch2valid + t20.act2rdwr - t20.burstlen / 4 ∧
    (15 : Word) = (t20.rdlat + 2 + 15 + t20.burstlen / 2) / 2 ∧ (24 : Word) = 15 - t20.rd2wr + t20.act2rdwr + t20.pch2valid := by
  decide

/-- Fields at both ends of a register, the whole register among them. -/
theorem witness_FieldsAreExtractedAndInserted :
    (⟨0, 0, 32⟩ : FieldLoc).fits = true ∧ (⟨0, 31, 1⟩ : FieldLoc).fits = true ∧ (⟨0, 31, 2⟩ : FieldLoc).fits = false := by decide

/-- The exponents where the cases of R183 meet: 30, 31, 32 for `SIZE_W` = 32 (T13, T15, T16). -/
theorem witness_SizeIsSignedAndDefaulted :
    CfgData.ex1.sizeW.bits = 32 ∧ (10 + 15 + 3 + 0 + 1 + 1 : Nat) < 32 - 1 ∧ (10 + 16 + 3 + 0 + 1 + 1 : Nat) = 32 - 1 ∧
    32 ≤ (10 + 16 + 2 + 2 + 1 + 1 : Nat) ∧ -2 ^ (32 - 1) ≤ CfgData.ex1.defaultDramSize ∧
    CfgData.ex1.defaultDramSize < 2 ^ (32 - 1) ∧ Int.bmod (2 ^ 30) (2 ^ 32) = 2 ^ 30 ∧ Int.bmod (2 ^ 31) (2 ^ 32) = -2 ^ 31 ∧
    Int.bmod (2 ^ 32) (2 ^ 32) = 0 := by decide +kernel

/-- The master-enable registers are not the environment's in `EX1`. -/
theorem witness_DenyClosesBothBlocks :
    CfgData.ex1.aFwen0 ∉ envAddrs CfgData.ex1 ∧ CfgData.ex1.aFwen1 ∉ envAddrs CfgData.ex1 := by decide

/-- The premises of the status clauses. -/
theorem witness_FirewallStatusIsSetAndReported :
    (freshOf []).board = .noNode ∧ ({ freshOf [] with board := .noChild } : State).board = .noChild ∧
    (boardOf [] []).board = .regions [] ∧ (freshOf []).regs.fwrc = 0 ∧
    (stateOf { Regs.reset with fwrc := 2 } []).regs.fwrc ≠ 0 := by decide

/-- A list of entries without the name, and values of two and of three elements. -/
theorem witness_BoardLookupFindsPairsOnly :
    (∀ p ∈ [(fwName 1, [(1 : Word), 2])], p.1 ≠ fwName 0) ∧ [(1 : Word), 2] = [1, 2] ∧ [(1 : Word), 2, 3].length ≠ 2 := by decide

/-- The indices where the clauses meet, an absent and a present entry, and registers that are not the environment's. -/
theorem witness_RegionIsProgrammedIfPresent :
    24 ≤ (24 : BitVec 8).toNat ∧ (23 : BitVec 8).toNat < 24 ∧ (22 : BitVec 8).toNat < 23 ∧
    boardLookup .noNode (fwName 23) = none ∧ boardLookup (.regions [(fwName 23, [0x10, 0x20])]) (fwName 23) = some (0x10, 0x20) ∧
    (CfgData.ex1Fw 23).aCfg ∉ envAddrs CfgData.ex1 ∧ (CfgData.ex1Fw 23).aEn ∉ envAddrs CfgData.ex1 := by decide

/-- The operation fetched from `SEQ.op`. -/
theorem fetch_of {s : State} {i : Instr} (hh : s.regs.halted = false) (hc : s.unit.cmd = none) (hd : decode s.regs.seqOp = .ok i)
    (ho : i.opClass = .sequencerState) : s.fetch = .ok (i, s) := by
  simp [State.fetch, hh, hc, hd, ho]

/-- The firewall configurator at operation word `w`, with entry 0 of the table in the board configuration. -/
def firewallOf (w : OpWord) (l : List (Addr × Word)) : State :=
  { boardOf [(fwName 0, [0x10, 0x20])] l with regs := { Regs.reset with seqOp := w } }

/-- `EX1` keeps its registers apart, and the three operations of the statement step to a state with `rst` low. -/
theorem witness_FirewallEnablesExactlyThePresentEntries :
    separated CfgData.ex1 = true ∧
    (∃ t, step (firewallOf 0x8000 []) = .next t ∧ t.inp.rst = false) ∧
    (∃ t, step (firewallOf 0x8100 []) = .next t ∧ t.inp.rst = false) ∧
    (∃ t, step (firewallOf 0x8201 [(0x6000, 1), (0x6010, 0x200010)]) = .next t ∧ t.inp.rst = false) :=
  ⟨by decide +kernel, ends (by decide +kernel), ends (by decide +kernel), ends (by decide +kernel)⟩

/-- The three operations are fetched from those states. -/
theorem witness_FirewallFetch :
    (firewallOf 0x8000 []).fetch = .ok (.fwDeny, firewallOf 0x8000 []) ∧
    (firewallOf 0x8100 []).fetch = .ok (.fwCheck, firewallOf 0x8100 []) ∧
    (firewallOf 0x8201 [(0x6000, 1), (0x6010, 0x200010)]).fetch =
      .ok (.fwRegion 1, firewallOf 0x8201 [(0x6000, 1), (0x6010, 0x200010)]) :=
  ⟨fetch_of rfl rfl rfl rfl, fetch_of rfl rfl rfl rfl, fetch_of rfl rfl rfl rfl⟩

/-- Word 1 has exactly bit 0. -/
theorem bit_one : ∀ b : BitNo, bit 1 b = true ↔ b = 0 := by decide

/-- The premise on the firewall registers with nothing visited. -/
theorem witness_FirewallUpTo_zero : FirewallUpTo 0 (firewallOf 0x8100 []) := by
  refine ⟨fun en he b => ?_, fun e he => absurd he (by simp)⟩
  have h0 : (firewallOf 0x8100 []).space.readWord 0x6000 = 0 ∧ (firewallOf 0x8100 []).space.readWord 0x7000 = 0 := by
    decide +kernel
  simp only [List.mem_cons, List.not_mem_nil, or_false] at he
  have he : en = 0x6000 ∨ en = 0x7000 := he
  rcases he with rfl | rfl
  · rw [h0.1]; simp [bit]
  · rw [h0.2]; simp [bit]

/-- The firewall configurator with entry 0 present, programmed and enabled. -/
def firstDone : State := firewallOf 0x8201 [(0x6000, 1), (0x6010, 0x200010)]

/-- The premise on the firewall registers with entry 0 visited. -/
theorem witness_FirewallUpTo_one : FirewallUpTo 1 firstDone := by
  have ht : firstDone.c.fwTable.take 1 = [CfgData.ex1Fw 0] := by decide +kernel
  have hb : boardLookup firstDone.board (CfgData.ex1Fw 0).name = some (0x10, 0x20) := by decide +kernel
  have h0 : firstDone.space.readWord 0x6000 = 1 ∧ firstDone.space.readWord 0x7000 = 0 := by decide +kernel
  have ha : (CfgData.ex1Fw 0).aEn = 0x6000 ∧ (CfgData.ex1Fw 0).enBit = 0 := by decide
  refine ⟨fun en he b => ?_, fun e he st fin h => ?_⟩
  · simp only [List.mem_cons, List.not_mem_nil, or_false] at he
    have he : en = 0x6000 ∨ en = 0x7000 := he
    rw [ht]
    rcases he with rfl | rfl
    · rw [h0.1, bit_one]
      exact ⟨fun h => ⟨_, List.mem_singleton.mpr rfl, ha.1, ha.2.trans h.symm, by rw [hb]; rfl⟩,
        fun ⟨e, he, _, h2, _⟩ => by rw [List.mem_singleton] at he; rw [← h2, he, ha.2]⟩
    · rw [h0.2]
      exact ⟨fun h => absurd h (by simp [bit]),
        fun ⟨e, he, h1, _⟩ => by rw [List.mem_singleton] at he; rw [he, ha.1] at h1; exact absurd h1 (by decide)⟩
  · rw [ht, List.mem_singleton] at he
    subst he
    rw [hb] at h
    cases h
    decide +kernel

/-- A flag that was set before `ECC_ENTRY`. -/
theorem witness_EntryLatchesTheStatus :
    quietRun .eccEntry (handlerOf 0 [(0x8000, 1)]) = true ∧ bit ((handlerOf 0 [(0x8000, 1)]).space.readWord 0x8000) 0 = true := by
  decide +kernel

/-- Each flag clear and set in the latch. -/
theorem witness_ErrorPathsCountAndReport :
    bit (handlerOf 2 []).regs.istat 0 = false ∧ bit (handlerOf 1 []).regs.istat 0 = true ∧
    bit (handlerOf 1 []).regs.istat 1 = false ∧ bit (handlerOf 2 []).regs.istat 1 = true := by decide

/-- The mask and the flags of `EX1`. -/
theorem witness_ClearSequenceRunsWhateverTheFlags :
    (2 : Word) = 1#32 <<< CfgData.ex1.cntrstBit.val ∧
    (3 : Word) = (1#32 <<< CfgData.ex1.sbeBit.val) ||| (1#32 <<< CfgData.ex1.dbeBit.val) := by decide

/-- Context IRQ with the flag clear and set, and ERRINTEN apart from the partners' registers, INTSTAT and ECCCTRL. -/
theorem witness_ExitReturnsOrDisablesAndHalts :
    quietRun .eccExit (handlerOf 1 []) = true ∧ quietRun .eccExit (handlerOf 2 [(0x8014, 3)]) = true ∧
    (handlerOf 2 []).context = .irq ∧ CfgData.ex1.aErrinten ∉ partnerAddrs CfgData.ex1 ∧
    CfgData.ex1.aErrinten ≠ CfgData.ex1.aIntstat ∧ CfgData.ex1.aErrinten ≠ CfgData.ex1.aEccctrl := by decide +kernel

/-- `STEADY` with the interrupt acceptable, and with one of its conditions missing. -/
theorem witness_SystemOperationsWaitArmAndHalt :
    let s : State := { stateOf { Regs.reset with armed := true } [] with inp := ⟨false, true, false⟩ }
    (s.inp.eccIrq = true ∧ s.regs.armed = true ∧ s.regs.insvc = false ∧ s.regs.halted = false) ∧
    ¬((freshOf []).inp.eccIrq = true ∧ (freshOf []).regs.armed = true ∧ (freshOf []).regs.insvc = false ∧
      (freshOf []).regs.halted = false) := by decide

/-- An operation that appends `IrqEnter` and one that does not. -/
theorem witness_InterruptIsAcceptedExactlyInSteady :
    shown (exec .steady { stateOf { Regs.reset with armed := true } [] with inp := ⟨false, true, false⟩ }) State.trace =
      some [.irqEnter] ∧ shown (exec .arm (freshOf [])) State.trace = some [] := by decide

/-- Both ways into the halted state. -/
theorem witness_HaltIsEnteredInTwoWaysOnly :
    (∃ t, step (stateOf { Regs.reset with seqOp := 0x4600, rcrc := 0xFFFFFFFF } []) = .next t ∧ t.regs.halted = true) ∧
    (∃ t, step { handlerOf 2 [] with regs := { (handlerOf 2 []).regs with seqOp := 0xA400 } } = .next t ∧
      t.regs.halted = true) := ⟨ends (by decide +kernel), ends (by decide +kernel)⟩

/-- A halted block whose step ends with `rst` low. -/
theorem witness_HaltIsAbsorbingUntilReset :
    (stateOf { Regs.reset with halted := true } []).regs.halted = true ∧ (freshOf []).inp.rst = false ∧
    decode (stateOf { Regs.reset with halted := true } []).regs.seqOp = .ok .idle ∧ Instr.opClass .idle = .sequencerState ∧
    ∃ t, step (stateOf { Regs.reset with halted := true } []) = .next t ∧ t.inp.rst = false :=
  ⟨by decide, by decide, by decide, by decide, ends (by decide +kernel)⟩

/-- The three ways the counter changes: `rst` rising, `rst` high, `ECC_SBE`. -/
theorem witness_CounterIsWrittenByTheHandlerOnly :
    (∃ t, step { handlerOf 0 [] with env := ⟨[{ quietMove with rst := true }], .quiet, 0⟩ } = .next t ∧
      t.regs.cnt ≠ (handlerOf 0 []).regs.cnt) ∧
    (∃ t, step { handlerOf 0 [] with inp := ⟨false, false, true⟩ } = .next t ∧ t.regs.cnt ≠ (handlerOf 0 []).regs.cnt) ∧
    (∃ t, step { handlerOf 1 [(0x800C, 3)] with regs := { (handlerOf 1 []).regs with seqOp := 0xA100 } } = .next t ∧
      t.regs.cnt ≠ (handlerOf 0 []).regs.cnt) := ⟨ends (by decide +kernel), ends (by decide +kernel), ends (by decide +kernel)⟩

/-- An operation of each context, and operations with and without waits. -/
theorem witness_ContextsAndWaits :
    (∃ t, exec .hs7 (freshOf []) = .next t ∧ Instr.opClass .hs7 = .sequencerState) ∧
    (∃ t, exec .eccEntry (freshOf []) = .next t ∧ Instr.isHandler .eccEntry = true) ∧
    (∃ t, exec .halt (freshOf []) = .next t ∧ contextOf .halt = .halted) ∧
    (∃ t, exec .hs6 (freshOf [(0x100C, 0x80000000)]) = .next t ∧ waitCount t.trace ≠ 0) :=
  ⟨⟨_, rfl, rfl⟩, ⟨_, rfl, rfl⟩, ⟨_, rfl, rfl⟩, ends (by decide +kernel)⟩

/-- A state before an opportunity of the environment, each clause's register among those of `EX1`. -/
theorem witness_EnvironmentKeepsToItsRights :
    (handlerOf 0 [(0x8000, 1), (0x8014, 3)]).space.wf = true ∧ (handlerOf 0 []).inp.rst = false ∧
    (0x1000 : Addr).toNat % 4 = 0 ∧ (0x1000 : Addr) ∉ envAddrs CfgData.ex1 ∧
    CfgData.ex1.aIntstat ∉ partnerAddrs CfgData.ex1 ∧ CfgData.ex1.aErrinten ∉ partnerAddrs CfgData.ex1 ∧
    (handlerOf 0 []).context = .irq ∧ (freshOf []).context = .main := by decide +kernel

/-- `EX1` keeps its registers apart. -/
theorem witness_SeparatedRecordsKeepOwnersApart : separated exCfg.data = true := by decide +kernel

/-- Words and operations for the statements about the encoding. -/
theorem witness_Encoding :
    (Instr.fwRegion 23).wellFormed = true ∧ decode 0x8217 = .ok (.fwRegion 23) ∧ (0x8218 : OpWord).extractLsb' 13 3 = 4 ∧
    (0x8218 : OpWord).extractLsb' 8 5 = 2 ∧ (0x8218 : OpWord).extractLsb' 0 8 = 24 := by decide

end Sys2Proof.Tests
end

section
/-! SUPPORT. What each operation makes of the working registers and flags (tables T7, T8 and T12), said once as a relation, and
what every operation keeps beside them. -/

namespace Sys2Proof.Machine

/-! ## Fields after a field update and after an error condition -/

namespace State

variable (s : State)

@[simp] theorem wrField_regs (f : FieldLoc) (v : Word) : (s.wrField f v).regs = s.regs := (s.busOnly_wrField f v).regs
@[simp] theorem raise_cfg (k : Condition) : (s.raise k).cfg = s.cfg := (s.raise_spec k).1
@[simp] theorem raise_space (k : Condition) : (s.raise k).space = s.space := (s.raise_spec k).2.1
@[simp] theorem raise_unit (k : Condition) : (s.raise k).unit = s.unit := (s.raise_spec k).2.2.1

end State

/-! ## What every operation keeps -/

/-- The hidden iteration counters are 0, as between operations (R38). -/
def State.ItersZero (s : State) : Prop := s.unit.pollIter = 0 ∧ s.unit.delayIter = 0

/-- The configuration record, the canonical form of the Register Space, and hidden counters at 0 (R38) are kept. -/
structure Keeps (s t : State) : Prop where
  cfg   : t.cfg = s.cfg
  wf    : s.space.wf = true → t.space.wf = true
  iters : s.ItersZero → t.ItersZero

namespace Keeps

variable {s t u : State}

/-- An update of the registers, the outputs or the results of the access unit. -/
theorem of_same (hc : t.cfg = s.cfg) (hs : t.space = s.space) (hp : t.unit.pollIter = s.unit.pollIter)
    (hd : t.unit.delayIter = s.unit.delayIter) : Keeps s t where
  cfg := hc
  wf := by rw [hs]; exact id
  iters := by unfold State.ItersZero; rw [hp, hd]; exact id

theorem of_busOnly (h : BusOnly s t) : Keeps s t where
  cfg := h.cfg
  wf := h.wf
  iters := by unfold State.ItersZero; rw [h.unit]; exact id

theorem trans (h : Keeps s t) (k : Keeps t u) : Keeps s u where
  cfg := k.cfg.trans h.cfg
  wf := k.wf ∘ h.wf
  iters := k.iters ∘ h.iters

theorem c_eq (h : Keeps s t) : t.c = s.c := congrArg Cfg.data h.cfg

theorem setRegs (h : Keeps s t) (r : Regs) : Keeps s { t with regs := r } := ⟨h.cfg, h.wf, h.iters⟩

theorem goto (h : Keeps s t) (j : Instr) : Keeps s (t.goto j) := ⟨h.cfg, h.wf, h.iters⟩

end Keeps

/-- What bus transactions, polls, delays and prints do to the block: it keeps its registers too. -/
structure Transacted (s t : State) : Prop extends Keeps s t where
  regs : t.regs = s.regs

namespace Transacted

variable {s t u : State}

theorem of_busOnly (h : BusOnly s t) : Transacted s t := ⟨.of_busOnly h, h.regs⟩

/-- An update of the outputs or of the access unit outside its counters. -/
theorem of_same (hc : t.cfg = s.cfg) (hr : t.regs = s.regs) (hs : t.space = s.space)
    (hu : t.unit.pollIter = s.unit.pollIter ∧ t.unit.delayIter = s.unit.delayIter) : Transacted s t :=
  ⟨.of_same hc hs hu.1 hu.2, hr⟩

theorem refl (s : State) : Transacted s s := .of_busOnly (.refl s)

theorem trans (h : Transacted s t) (k : Transacted t u) : Transacted s u :=
  ⟨h.toKeeps.trans k.toKeeps, k.regs.trans h.regs⟩

theorem printMsg (s : State) (m : Nat) (v : Word) : Transacted s (s.printMsg m v) :=
  .of_same (by simp) (by simp) (by simp) (by simp)

theorem putRdata (s : State) (v : Word) : Transacted s (s.putRdata v) := .of_same rfl rfl rfl ⟨rfl, rfl⟩

theorem putOk (s : State) (b : Bool) : Transacted s (s.putOk b) := .of_same rfl rfl rfl ⟨rfl, rfl⟩

theorem setEnv (s : State) (v : Nat) : Transacted s (s.setEnv v) := .of_same rfl rfl rfl ⟨rfl, rfl⟩

theorem wdKick (s : State) : Transacted s s.wdKick := .of_same rfl rfl rfl ⟨rfl, rfl⟩

theorem clearCmd (s : State) : Transacted s s.clearCmd := .of_same rfl rfl rfl ⟨rfl, rfl⟩

theorem delayMs (s : State) (ms : Nat) : Transacted s (s.delayMs ms) := by
  obtain ⟨hcfg, hregs, hspace, -, -, -, -, -, hunit, -⟩ := s.delayMs_spec ms
  refine ⟨⟨hcfg, by rw [hspace]; exact id, fun hz => ?_⟩, hregs⟩
  unfold State.ItersZero
  rw [hunit]
  exact ⟨hz.1, rfl⟩

theorem pollBit (s : State) (a : Addr) (b : BitNo) (e : Bool) (us : Nat) : Transacted s (s.pollBit a b e us).2 := by
  obtain ⟨hcfg, hregs, hunit, -, -, hwf, -⟩ := s.pollBit_spec a b e us
  refine ⟨⟨hcfg, hwf, fun hz => ?_⟩, hregs⟩
  unfold State.ItersZero
  rw [hunit]
  exact ⟨rfl, hz.2⟩

/-- Programming a firewall entry is bus traffic only (R204). -/
theorem programEntry (s : State) (e : Nat) : Transacted s (s.programEntry e) := by
  unfold State.programEntry
  split
  · exact refl s
  · unfold State.programRegion
    split
    · exact refl s
    · exact (of_busOnly (s.busOnly_busWrite _ _)).trans (of_busOnly (State.busOnly_setBit _ _ _))

end Transacted

/-! ## What an operation does to the working registers -/

/-- As far as the invariant of reachable states tells the phases of a boot apart by the flags (reported success, armed, in the
handler, halted), `j` is in the phase of `i`. -/
abbrev SameControl (i j : Instr) : Prop :=
  (j.afterSuccess = true → i.afterSuccess = true) ∧ (j = .halt ↔ i = .halt) ∧ j.isHandler = i.isHandler ∧
  j.isArmed = i.isArmed

/-- As far as the invariant tells the phases of the retry controller apart, `j` asks of its registers no more than `i`. -/
abbrev SameRetry (i j : Instr) : Prop :=
  (j.pollsAhead = true → i.pollsAhead = true) ∧ (j.inAttempt = true → i.inAttempt = true) ∧
  (j.inRetryLoop = true → i.inRetryLoop = true) ∧ j ≠ .rcFinish

/-- `j` is no operation of the retry controller's loop, nor its end. -/
abbrev OutsideRetry (j : Instr) : Prop :=
  j.pollsAhead ≠ true ∧ j.inAttempt ≠ true ∧ j.inRetryLoop ≠ true ∧ j ≠ .rcFinish

/-- Operation `j` is of class S, has a word, and may follow `i` in table T12 with no register written. -/
abbrev SamePhase (i j : Instr) : Prop :=
  j ∈ successors i ∧ (j.opClass = .sequencerState ∧ j.wellFormed = true) ∧ SameRetry i j ∧ SameControl i j

/-- The working registers and flags `r` of a block with record `c`, and what operation `i` may make of them: the columns
"written by" of table T7, "set by" and "cleared by" of table T8, with the successor of table T12. -/
inductive RegsStep (c : CfgData) (r : Regs) : Instr → Regs → Prop
  /-- A class U command writes the ports of the access unit only (R100). -/
  | unit {i} (h : i.opClass = .unitCommand) : RegsStep c r i r
  /-- An operation, or a path of one, that writes no working register. -/
  | move {i j} (h : SamePhase i j) : RegsStep c r i { r with seqOp := encode j }
  /-- R151, another silicon revision. -/
  | gateSkips : RegsStep c r .rcGate { r with rcrc := 0, seqOp := encode .bootReport }
  /-- R151, the revision that needs the calibration. -/
  | gateStarts : RegsStep c r .rcGate { r with att := 0, calok := false, seqOp := encode .rcAttempt }
  /-- R152. -/
  | attempt (h : r.att.toNat < 3) : RegsStep c r .rcAttempt { r with pj := 0, seqOp := encode .hs1 }
  /-- R152, no attempt left. -/
  | attemptsSpent (h : ¬ r.att.toNat < 3) : RegsStep c r .rcAttempt { r with seqOp := encode .rcFinish }
  /-- R153, R155. -/
  | attemptFailed {i} (h : i = .rcHsfail ∨ i = .rcRetry) :
      RegsStep c r i { r with att := r.att + 1, seqOp := encode .rcAttempt }
  /-- R154, the status bit seen. -/
  | statusSeen : RegsStep c r .rcStatpoll { r with pj := r.pj + 1, calok := true, seqOp := encode .rcFinish }
  /-- R154, the last poll without the bit. -/
  | statusSpent (h : (r.pj + 1).toNat = 10) :
      RegsStep c r .rcStatpoll { r with pj := r.pj + 1, seqOp := encode .rcRetry }
  /-- R154, a poll without the bit. -/
  | statusAgain (h : (r.pj + 1).toNat ≠ 10) :
      RegsStep c r .rcStatpoll { r with pj := r.pj + 1, seqOp := encode .rcStatpoll }
  /-- R156, calibrated. -/
  | finishCalibrated (h : r.calok = true) : RegsStep c r .rcFinish { r with rcrc := 0, seqOp := encode .bootReport }
  /-- R156, R261. -/
  | finishExhausted (h : r.calok = false) : RegsStep c r .rcFinish { r with rcrc := 0xFFFFFFFF, seqOp := encode .bootReport }
  /-- R157. -/
  | reportSuccess (h : r.rcrc = 0) : RegsStep c r .bootReport { r with seqOp := encode .tcLoad }
  /-- R157, R243 with cause 1. -/
  | reportFailure (h : r.rcrc ≠ 0) :
      RegsStep c r .bootReport { r with halted := true, haltCause := .calExhaust, seqOp := encode .halt }
  /-- R260. -/
  | pollTimeout {i} (p : HsPoll) (h : i ∈ [Instr.hs6, .hs8, .hs10, .hs12, .hs14]) :
      RegsStep c r i { r with hsrc := p.code, seqOp := encode .rcHsfail }
  /-- R134. -/
  | handshakeDone : RegsStep c r .hs14 { r with hsrc := 0, seqOp := encode .rcStatpoll }
  /-- R171. -/
  | load {raw} (h : ∀ f, rawGet raw f = rawGet r.raw f ∨ (rawGet raw f).toNat < 2 ^ (rawGet c.raw f).width) :
      RegsStep c r .tcLoad { r with raw := raw, seqOp := encode .tcGeom }
  /-- R172. -/
  | geometry (x : Word) : RegsStep c r .tcGeom { r with geomidx := x, seqOp := encode .tcRd2miss }
  /-- R173. -/
  | rd2miss (x : Word) : RegsStep c r .tcRd2miss { r with derRd2miss := x, seqOp := encode .tcWr2miss }
  /-- R174. -/
  | wr2miss (x : Word) : RegsStep c r .tcWr2miss { r with derWr2miss := x, seqOp := encode .tcAct2act }
  /-- R183. -/
  | size {x y : Int} (hx : fitsSigned c.sizeW.bits x = true) (hy : fitsSigned c.sizeW.bits y = true) :
      RegsStep c r .tcSize { r with size := x, sizeOut := y, seqOp := encode .fwDeny }
  /-- R203, R262. -/
  | firewallAbsent {x} (h : x = 1 ∨ x = 2) : RegsStep c r .fwCheck { r with fwrc := x, seqOp := encode .fwReport }
  /-- R203. -/
  | firewallPresent : RegsStep c r .fwCheck { r with fwrc := 0, seqOp := encode (.fwRegion 0) }
  /-- R241. -/
  | arm : RegsStep c r .arm { r with armed := true, seqOp := encode .steady }
  /-- R269. -/
  | irqEnter : RegsStep c r .steady { r with insvc := true, ctx := .irq, seqOp := encode .eccEntry }
  /-- R221. -/
  | latchStatus (x : Word) : RegsStep c r .eccEntry { r with istat := x, seqOp := encode .eccSbe }
  /-- R222, the single-bit flag latched. -/
  | countSbe (a n : Word) (h : bit r.istat c.sbeBit = true) :
      RegsStep c r .eccSbe
        { r with sbeAddrL := a, cnt := (r.cnt + n.toNat) % 2 ^ c.cntW, seqOp := encode .eccDbe }
  /-- R223, the double-bit flag latched. -/
  | reportDbe (a : Word) : RegsStep c r .eccDbe { r with dbeAddrL := a, dbeCntL := r.cnt, seqOp := encode .eccClear }
  /-- R225, R270. -/
  | irqReturn (h : bit r.istat c.dbeBit = false) :
      RegsStep c r .eccExit { r with insvc := false, ctx := .main, seqOp := encode .steady }
  /-- R225, R243 with cause 2. -/
  | dbeHalt (h : bit r.istat c.dbeBit = true) :
      RegsStep c r .eccExit { r with halted := true, haltCause := .eccDbe, seqOp := encode .halt }

/-- Operation `i` took `s` to `t`: it did to the registers what `RegsStep` says and kept the rest of what the invariant is
about. -/
structure OpStep (i : Instr) (s t : State) : Prop extends Keeps s t where
  regs : RegsStep s.c s.regs i t.regs

namespace OpStep

variable {i j : Instr} {s t u : State}

/-- Bus traffic before the registers are written. -/
theorem after (h : Transacted s t) (k : OpStep i t u) : OpStep i s u where
  toKeeps := h.toKeeps.trans k.toKeeps
  regs := by rw [← h.regs, ← h.c_eq]; exact k.regs

/-- An update of the registers and outputs alone. -/
theorem of_regs (h : RegsStep s.c s.regs i t.regs) (hc : t.cfg = s.cfg := by simp) (hs : t.space = s.space := by simp)
    (hu : t.unit = s.unit := by simp) : OpStep i s t :=
  ⟨.of_same hc hs (by rw [hu]) (by rw [hu]), h⟩

/-- A class U command: bus traffic, then perhaps a result port of the access unit. -/
theorem of_unit (hi : i.opClass = .unitCommand) (h : Transacted s t) : OpStep i s t :=
  ⟨h.toKeeps, h.regs ▸ .unit hi⟩

/-- An operation that only makes bus traffic and goes to its successor. -/
theorem move (h : Transacted s t) (hm : SamePhase i j) : OpStep i s (t.goto j) :=
  .after h (.of_regs (.move hm))

end OpStep

/-! ## The operations that write registers, path by path -/

/-- A handshake poll succeeds, or leaves its code (R126, R128, R130, R132, R260). -/
theorem opStep_hsPoll {i nxt : Instr} (s : State) (p : HsPoll) (a : Addr) (b : BitNo) (e : Bool) (us : Nat)
    (hi : i ∈ [Instr.hs6, .hs8, .hs10, .hs12, .hs14]) (hm : SamePhase i nxt) :
    OpStep i s (s.hsPoll p a b e us nxt) := by
  unfold State.hsPoll
  split
  · exact .move (.pollBit s a b e us) hm
  · exact .after (.pollBit s a b e us) (.of_regs (.pollTimeout p hi))

/-- The end of a successful handshake (R134). -/
theorem opStep_hsSucceed (s : State) : OpStep .hs14 s s.hsSucceed := by
  unfold State.hsSucceed
  exact .after ((Transacted.of_busOnly (s.busOnly_setBit s.c.aC2s s.c.doneBit)).trans (.delayMs _ Config.hsFinalMs))
    (.of_regs .handshakeDone)

theorem opStep_hs14 {s t : State} (h : exec .hs14 s = .next t) : OpStep .hs14 s t := by
  obtain rfl := Host.Outcome.next.inj h
  split
  · exact .after (.pollBit s _ _ _ _) (opStep_hsSucceed _)
  · exact .after (.pollBit s _ _ _ _) (.of_regs (.pollTimeout .step14 (by decide)))

theorem opStep_gateOn (s : State) (v : Word) : OpStep .rcGate s (s.gateOn v) := by
  unfold State.gateOn
  split
  · exact .of_regs .gateSkips
  · exact .of_regs .gateStarts

theorem opStep_rcAttempt {s t : State} (h : exec .rcAttempt s = .next t) : OpStep .rcAttempt s t := by
  obtain rfl := Host.Outcome.next.inj h
  split
  · rename_i hlt
    exact .of_regs (.attempt hlt)
  · rename_i hge
    exact .of_regs (.attemptsSpent hge)

theorem opStep_statpollOn (s : State) (v : Word) : OpStep .rcStatpoll s (s.statpollOn v) := by
  unfold State.statpollOn
  split
  · exact .of_regs .statusSeen
  · dsimp only
    split
    · rename_i hlast
      exact .of_regs (.statusSpent hlast)
    · rename_i hmore
      exact .of_regs (.statusAgain hmore)

theorem opStep_rcFinish {s t : State} (h : exec .rcFinish s = .next t) : OpStep .rcFinish s t := by
  obtain rfl := Host.Outcome.next.inj h
  split
  · rename_i hok
    exact .of_regs (.finishCalibrated hok)
  · rename_i hno
    exact .of_regs (.finishExhausted (Bool.eq_false_iff.mpr hno))

theorem opStep_bootReport {s t : State} (h : exec .bootReport s = .next t) : OpStep .bootReport s t := by
  obtain rfl := Host.Outcome.next.inj h
  split
  · rename_i hz
    exact .of_regs (.reportSuccess hz)
  · rename_i hnz
    exact .of_regs (.reportFailure hnz)

/-- A mask of `w` ones is below 2^w. -/
theorem maskWord_lt (w : Nat) : (maskWord w).toNat < 2 ^ w := by
  have hle : (maskWord w).toNat ≤ 2 ^ w - 1 := by
    rw [maskWord, BitVec.toNat_ofNat]
    exact Nat.mod_le _ _
  have := Nat.two_pow_pos w
  omega

/-- An extracted field is below 2^w (R96). -/
theorem extract_lt (f : FieldLoc) (v : Word) : (extract f v).toNat < 2 ^ f.width := by
  rw [extract, BitVec.toNat_and]
  exact Nat.lt_of_le_of_lt Nat.and_le_right (maskWord_lt f.width)

theorem rawGet_rawSet {α : Type} (t : RawTable α) (f g : RawField) (v : α) :
    rawGet (rawSet t f v) g = if g = f then v else rawGet t g := by
  cases f <;> cases g <;> rfl

/-- What some reads of `TC_LOAD` have done: only the raw latches differ, and each holds its old value or fits its field
(R171). -/
structure Loaded (s t : State) : Prop extends Keeps s t where
  regs  : ∃ raw, t.regs = { s.regs with raw := raw }
  latch : ∀ f, rawGet t.regs.raw f = rawGet s.regs.raw f ∨ (rawGet t.regs.raw f).toNat < 2 ^ (rawGet s.c.raw f).width

theorem Loaded.refl (s : State) : Loaded s s := ⟨(Transacted.refl s).toKeeps, ⟨_, rfl⟩, fun _ => .inl rfl⟩

theorem Loaded.loadRaw {s t : State} (h : Loaded s t) (f : RawField) : Loaded s (t.loadRaw f) where
  toKeeps := (h.toKeeps.trans (.of_busOnly (t.busOnly_busRead (rawGet t.c.raw f).addr))).setRegs _
  regs := by
    obtain ⟨raw, hraw⟩ := h.regs
    exact ⟨_, by simp [State.loadRaw, hraw]; rfl⟩
  latch := fun g => by
    have hset : (t.loadRaw f).regs.raw = rawSet t.regs.raw f
        (extract (rawGet t.c.raw f) (t.busRead (rawGet t.c.raw f).addr).1) := by simp [State.loadRaw]
    rw [hset, rawGet_rawSet]
    split
    · rename_i hg
      subst hg
      rw [h.c_eq]
      exact .inr (extract_lt _ _)
    · exact h.latch g

theorem Loaded.foldl {s t : State} (h : Loaded s t) (fs : List RawField) : Loaded s (fs.foldl State.loadRaw t) := by
  induction fs generalizing t with
  | nil => exact h
  | cons f fs ih => exact ih (h.loadRaw f)

theorem opStep_tcLoad {s t : State} (h : exec .tcLoad s = .next t) : OpStep .tcLoad s t := by
  obtain rfl := Host.Outcome.next.inj h
  have hl : Loaded s (rawFieldOrder.foldl State.loadRaw s) := (Loaded.refl s).foldl rawFieldOrder
  obtain ⟨raw, hraw⟩ := hl.regs
  have hlatch := hl.latch
  refine ⟨hl.toKeeps.goto _, ?_⟩
  rw [State.goto_regs, hraw]
  rw [hraw] at hlatch
  exact .load hlatch

/-- A derived value written to its working register, then to its scheduler field (R172 to R174). -/
theorem keeps_setRegs_wrField (s : State) (r : Regs) (f : FieldLoc) (v : Word) (j : Instr) :
    Keeps s ((State.wrField { s with regs := r } f v).goto j) :=
  have hset : Keeps s { s with regs := r } := .of_same rfl rfl rfl rfl
  (hset.trans (.of_busOnly (State.busOnly_wrField _ f v))).goto j

theorem opStep_tcGeom {s t : State} (h : exec .tcGeom s = .next t) : OpStep .tcGeom s t := by
  obtain rfl := Host.Outcome.next.inj h
  unfold State.applyGeom
  dsimp only
  split
  · refine ⟨keeps_setRegs_wrField s _ _ _ _, ?_⟩
    rw [State.goto_regs, State.wrField_regs]
    exact .geometry _
  · exact .of_regs (.geometry _)

theorem opStep_tcRd2miss {s t : State} (h : exec .tcRd2miss s = .next t) : OpStep .tcRd2miss s t := by
  obtain rfl := Host.Outcome.next.inj h
  refine ⟨keeps_setRegs_wrField s _ _ _ _, ?_⟩
  rw [State.goto_regs, State.wrField_regs]
  exact .rd2miss _

theorem opStep_tcWr2miss {s t : State} (h : exec .tcWr2miss s = .next t) : OpStep .tcWr2miss s t := by
  obtain rfl := Host.Outcome.next.inj h
  refine ⟨keeps_setRegs_wrField s _ _ _ _, ?_⟩
  rw [State.goto_regs, State.wrField_regs]
  exact .wr2miss _

theorem SizeWidth.bits_pos (w : SizeWidth) : 0 < w.bits := by cases w <;> decide

/-- `sext_W` of a number below 2^W is a signed number of W bits (R12). -/
theorem fitsSigned_sext {W v : Nat} (hW : 0 < W) (hv : v < 2 ^ W) : fitsSigned W (sext W v) = true := by
  obtain ⟨n, rfl⟩ : ∃ n, W = n + 1 := ⟨W - 1, by omega⟩
  have hv' : (v : Int) < 2 ^ n * 2 := by rw [pow_succ] at hv; exact_mod_cast hv
  unfold sext fitsSigned
  simp only [Nat.add_sub_cancel, Bool.and_eq_true, decide_eq_true_eq]
  split
  · rename_i hlt
    have : (v : Int) < 2 ^ n := by exact_mod_cast hlt
    omega
  · rename_i hge
    have : (2 : Int) ^ n ≤ v := by exact_mod_cast Nat.le_of_not_lt hge
    push_cast [pow_succ]
    omega

theorem truncPow_lt (W e : Nat) : truncPow W e < 2 ^ W := by
  unfold truncPow
  split
  · exact Nat.pow_lt_pow_right (by omega) ‹_›
  · exact Nat.two_pow_pos W

theorem opStep_tcSize {s t : State} (h : exec .tcSize s = .next t) : OpStep .tcSize s t := by
  obtain rfl := Host.Outcome.next.inj h
  have hW := SizeWidth.bits_pos s.c.sizeW
  have hsize : fitsSigned s.c.sizeW.bits (sizeValue s.c.sizeW.bits s.regs.raw) = true :=
    fitsSigned_sext hW (truncPow_lt _ _)
  exact .of_regs (.size hsize (fitsSigned_sizeOutValue hW _ hsize))

theorem opStep_fwCheck {s t : State} (h : exec .fwCheck s = .next t) : OpStep .fwCheck s t := by
  obtain rfl := Host.Outcome.next.inj h
  split
  · exact .of_regs (.firewallAbsent (.inr rfl))
  · exact .of_regs (.firewallAbsent (.inl rfl))
  · exact .of_regs .firewallPresent

/-- The successor of `FW_REGION e` has a word (R204). -/
theorem samePhase_afterRegion (e : BitVec 8) : SamePhase (.fwRegion e) (afterRegion e) := by
  unfold afterRegion
  split
  · rename_i hlt
    have hnext : (e + 1).toNat < 24 := by
      rw [BitVec.toNat_add]
      exact Nat.lt_of_le_of_lt (Nat.mod_le _ _) (by simp; omega)
    exact ⟨by simp [successors, hlt], ⟨rfl, decide_eq_true hnext⟩, ⟨id, id, id, by simp⟩, id, by simp, rfl, rfl⟩
  · rename_i hlast
    exact ⟨by simp [successors, hlast], ⟨rfl, rfl⟩, ⟨id, id, id, by simp⟩, id, by simp, rfl, rfl⟩

theorem opStep_fwRegion {e : BitVec 8} {s t : State} (h : exec (.fwRegion e) s = .next t) : OpStep (.fwRegion e) s t := by
  simp only [exec, execFwRegion] at h
  split at h
  · obtain rfl := Host.Outcome.next.inj h
    exact .move (.programEntry s e.toNat) (samePhase_afterRegion e)
  · cases h

theorem opStep_fwReport {s t : State} (h : exec .fwReport s = .next t) : OpStep .fwReport s t := by
  obtain rfl := Host.Outcome.next.inj h
  split
  · exact .move (.printMsg s 5 0) (by decide)
  · exact .move (.refl s) (by decide)

theorem opStep_steady {s t : State} (h : exec .steady s = .next t) : OpStep .steady s t := by
  obtain rfl := Host.Outcome.next.inj h
  split
  · exact .of_regs .irqEnter
  · exact .move (.refl s) (by decide)

theorem State.sbeAddress_regs (s : State) :
    s.sbeAddress.regs = { s.regs with sbeAddrL := (s.busRead s.c.aSbeAddr).1 } := by
  simp [State.sbeAddress]

theorem State.sbeCount_regs (s : State) :
    s.sbeCount.regs =
      { s.regs with cnt := (s.regs.cnt + (s.busRead s.c.aSbeCnt).1.toNat) % 2 ^ s.c.cntW } := by
  simp [State.sbeCount]

theorem keeps_sbeAddress (s : State) : Keeps s s.sbeAddress :=
  .trans ((Keeps.of_busOnly (s.busOnly_busRead s.c.aSbeAddr)).setRegs _) (Transacted.printMsg _ _ _).toKeeps

theorem keeps_sbeCount (s : State) : Keeps s s.sbeCount :=
  .trans (.of_busOnly (s.busOnly_busRead s.c.aSbeCnt)) (.of_same rfl rfl rfl rfl)

theorem opStep_eccSbe {s t : State} (h : exec .eccSbe s = .next t) : OpStep .eccSbe s t := by
  obtain rfl := Host.Outcome.next.inj h
  split
  · rename_i hsbe
    have hk := keeps_sbeAddress s
    refine ⟨(hk.trans (keeps_sbeCount _)).goto _, ?_⟩
    rw [State.goto_regs, State.sbeCount_regs, State.sbeAddress_regs, hk.c_eq]
    exact .countSbe _ _ hsbe
  · exact .move (.refl s) (by decide)

/-- The double-bit report (R223). -/
theorem opStep_dbeReport (s : State) : OpStep .eccDbe s (s.dbeReport.goto .eccClear) := by
  unfold State.dbeReport
  exact .after ((Transacted.printMsg s 7 0).trans (.of_busOnly (State.busOnly_busRead _ _))) (.of_regs (.reportDbe _))

theorem opStep_eccDbe {s t : State} (h : exec .eccDbe s = .next t) : OpStep .eccDbe s t := by
  obtain rfl := Host.Outcome.next.inj h
  split
  · exact opStep_dbeReport s
  · exact .move (.refl s) (by decide)

theorem opStep_eccClear {s t : State} (h : exec .eccClear s = .next t) : OpStep .eccClear s t := by
  obtain rfl := Host.Outcome.next.inj h
  exact .move (.of_busOnly ((s.busOnly_pulse _ _).trans (State.busOnly_busWrite _ _ _))) (by decide)

theorem opStep_eccExit {s t : State} (h : exec .eccExit s = .next t) : OpStep .eccExit s t := by
  obtain rfl := Host.Outcome.next.inj h
  split
  · rename_i hdbe
    have hlatched : bit s.disableEcc.regs.istat s.disableEcc.c.dbeBit = true := by
      rw [s.busOnly_disableEcc.regs, State.c, s.busOnly_disableEcc.cfg]
      exact hdbe
    exact .after (.of_busOnly s.busOnly_disableEcc) (.of_regs (.dbeHalt hlatched))
  · rename_i hno
    exact .of_regs (.irqReturn (Bool.eq_false_iff.mpr hno))

theorem opStep_idle {s t : State} (h : exec .idle s = .next t) : OpStep .idle s t := by
  obtain rfl := Host.Outcome.next.inj h
  split
  · exact .move (.refl s) (by decide)
  · exact .move (.refl s) (by decide)

/-! ## Class U commands -/

/-- A command at the `addr` port that completes ran its access (R63). -/
theorem State.atPort_next {s t : State} {f : State → State} (h : s.atPort f = .next t) : t = f s := by
  unfold State.atPort at h
  split at h
  · exact (Host.Outcome.next.inj h).symm
  · cases h

/-- A class U command makes bus traffic and writes its result ports (R100). -/
theorem transacted_of_unit {i : Instr} {s t : State} (hi : i.opClass = .unitCommand) (h : exec i s = .next t) :
    Transacted s t := by
  cases i with
  | rdreg =>
    simp only [exec, execRdreg] at h
    obtain rfl := State.atPort_next h
    exact .trans (.of_busOnly (s.busOnly_busRead _)) (.putRdata _ _)
  | wrreg =>
    simp only [exec, execWrreg] at h
    obtain rfl := State.atPort_next h
    exact .of_busOnly (s.busOnly_busWrite _ _)
  | setbit =>
    simp only [exec, execSetbit] at h
    obtain rfl := State.atPort_next h
    exact .of_busOnly (s.busOnly_setBit _ _)
  | clrbit =>
    simp only [exec, execClrbit] at h
    obtain rfl := State.atPort_next h
    exact .of_busOnly (s.busOnly_clearBit _ _)
  | pollbit =>
    simp only [exec, execPollbit] at h
    split at h
    · obtain rfl := Host.Outcome.next.inj h
      exact .putOk s _
    · obtain rfl := State.atPort_next h
      exact .trans (.pollBit s _ _ _ _) (.putOk _ _)
  | delay =>
    obtain rfl := Host.Outcome.next.inj h
    exact .delayMs s _
  | print m =>
    simp only [exec, execPrint] at h
    split at h
    · obtain rfl := Host.Outcome.next.inj h
      exact .printMsg s _ _
    · cases h
  | setenv =>
    obtain rfl := Host.Outcome.next.inj h
    exact .setEnv s _
  | wdkick =>
    obtain rfl := Host.Outcome.next.inj h
    exact .wdKick s
  | _ => cases hi

/-! ## All operations -/

/-- Every operation that completes writes the working registers as tables T7, T8 and T12 say and keeps the record, the canonical
form and the hidden counters. -/
theorem opStep_of_exec {i : Instr} {s t : State} (h : exec i s = .next t) : OpStep i s t := by
  cases hi : i.opClass with
  | unitCommand => exact .of_unit hi (transacted_of_unit hi h)
  | sequencerState =>
  cases i with
  | hs6 | hs8 | hs10 | hs12 =>
    obtain rfl := Host.Outcome.next.inj h
    exact opStep_hsPoll s _ _ _ _ _ (by decide) (by decide)
  | hs1 =>
    obtain rfl := Host.Outcome.next.inj h
    exact .move (.delayMs s _) (by decide)
  | hs2 | hs4 | hs9 | hs13 =>
    obtain rfl := Host.Outcome.next.inj h
    exact .move (.of_busOnly (s.busOnly_clearBit _ _)) (by decide)
  | hs3 =>
    obtain rfl := Host.Outcome.next.inj h
    exact .move (.of_busOnly (s.busOnly_busWrite _ _)) (by decide)
  | hs5 | hs7 | hs11 =>
    obtain rfl := Host.Outcome.next.inj h
    exact .move (.of_busOnly (s.busOnly_setBit _ _)) (by decide)
  | hs14 => exact opStep_hs14 h
  | rcGate =>
    obtain rfl := Host.Outcome.next.inj h
    exact .after (.of_busOnly (s.busOnly_busRead _)) (opStep_gateOn _ _)
  | rcAttempt => exact opStep_rcAttempt h
  | rcHsfail =>
    obtain rfl := Host.Outcome.next.inj h
    exact .after (.printMsg s 0 _) (.of_regs (.attemptFailed (.inl rfl)))
  | rcStatpoll =>
    obtain rfl := Host.Outcome.next.inj h
    exact .after ((Transacted.delayMs s _).trans (.of_busOnly (State.busOnly_busRead _ _))) (opStep_statpollOn _ _)
  | rcRetry =>
    obtain rfl := Host.Outcome.next.inj h
    exact .after (.printMsg s 1 0) (.of_regs (.attemptFailed (.inr rfl)))
  | rcFinish => exact opStep_rcFinish h
  | bootReport => exact opStep_bootReport h
  | tcLoad => exact opStep_tcLoad h
  | tcGeom => exact opStep_tcGeom h
  | tcRd2miss => exact opStep_tcRd2miss h
  | tcWr2miss => exact opStep_tcWr2miss h
  | tcAct2act | tcBusrd2rd | tcBusrd2wr | tcBuswr2rd | tcBwratio | tcBwratioext | tcFaw | tcFawbank =>
    obtain rfl := Host.Outcome.next.inj h
    exact .move (.of_busOnly (s.busOnly_wrField _ _)) (by decide)
  | tcSize => exact opStep_tcSize h
  | fwDeny =>
    obtain rfl := Host.Outcome.next.inj h
    exact .move (.of_busOnly ((s.busOnly_busWrite _ _).trans (State.busOnly_busWrite _ _ _))) (by decide)
  | fwCheck => exact opStep_fwCheck h
  | fwRegion e => exact opStep_fwRegion h
  | fwReport => exact opStep_fwReport h
  | eccEntry =>
    obtain rfl := Host.Outcome.next.inj h
    exact .after (.of_busOnly (s.busOnly_busRead _)) (.of_regs (.latchStatus _))
  | eccSbe => exact opStep_eccSbe h
  | eccDbe => exact opStep_eccDbe h
  | eccClear => exact opStep_eccClear h
  | eccExit => exact opStep_eccExit h
  | idle => exact opStep_idle h
  | arm =>
    obtain rfl := Host.Outcome.next.inj h
    exact .of_regs .arm
  | steady => exact opStep_steady h
  | halt =>
    obtain rfl := Host.Outcome.next.inj h
    exact .move (.refl s) (by decide)
  | _ => cases hi

end Sys2Proof.Machine
end

section
/-! SUPPORT. The registers' part of the invariant of reachable states, kept by every operation (`RegsStep`). -/

namespace Sys2Proof

/-! ## The word of an operation decodes to it -/

/-- Family, index and argument have room in their columns of the word (R80). -/
theorem Instr.fields_lt (i : Instr) : i.fields.1 < 8 ∧ i.fields.2.1 < 32 := by
  cases i <;> simp [Instr.fields]

theorem encode_toNat (i : Instr) :
    (encode i).toNat = i.fields.1 * 8192 + i.fields.2.1 * 256 + i.fields.2.2.toNat := by
  obtain ⟨hf, hx⟩ := i.fields_lt
  have ha := i.fields.2.2.isLt
  rw [encode, BitVec.toNat_ofNat, Nat.mod_eq_of_lt (by omega)]

@[simp] theorem fam_encode (i : Instr) : OpWord.fam (encode i) = i.fields.1 := by
  obtain ⟨-, hx⟩ := i.fields_lt
  have ha := i.fields.2.2.isLt
  rw [OpWord.fam, encode_toNat]
  omega

@[simp] theorem idx_encode (i : Instr) : OpWord.idx (encode i) = i.fields.2.1 := by
  obtain ⟨-, hx⟩ := i.fields_lt
  have ha := i.fields.2.2.isLt
  rw [OpWord.idx, encode_toNat]
  omega

@[simp] theorem arg_encode (i : Instr) : OpWord.arg (encode i) = i.fields.2.2 := by
  have ha := i.fields.2.2.isLt
  apply BitVec.eq_of_toNat_eq
  rw [OpWord.arg, encode_toNat, BitVec.toNat_ofNat]
  omega

/-- The columns of table T11 name the operation's row (R82). -/
theorem decodeRow_fields (i : Instr) : decodeRow i.fields.1 i.fields.2.1 i.fields.2.2 = .ok i := by
  cases i <;> rfl

/-- The argument column is 0 where the operation takes none (R81). -/
theorem Instr.arg_eq_zero {i : Instr} (h : i.takesArg = false) : i.fields.2.2 = 0 := by
  cases i with
  | fwRegion e | print m => cases h
  | _ => rfl

/-- The word of a well-formed operation decodes to it (R80, R82). -/
theorem decode_encode_of_wellFormed {i : Instr} (h : i.wellFormed = true) : decode (encode i) = .ok i := by
  rw [decode, fam_encode, idx_encode, arg_encode, decodeRow_fields]
  cases harg : i.takesArg with
  | true => simp [harg, h]
  | false => simp [harg, Instr.arg_eq_zero harg]

end Sys2Proof

namespace Sys2Proof.Machine

/-- The invariant's clause about the sequencer: `SEQ.op` holds the word of a class S operation and the registers agree with it. -/
def SequencerInv (c : CfgData) (r : Regs) : Prop :=
  ∃ i, decode r.seqOp = .ok i ∧ i.opClass = .sequencerState ∧ RegsInv c i r

theorem SequencerInv.of_regsInv {c : CfgData} {i : Instr} {r : Regs} (h : RegsInv c i r)
    (hop : i.opClass = .sequencerState) (hw : i.wellFormed = true) :
    SequencerInv c { r with seqOp := encode i } :=
  ⟨i, decode_encode_of_wellFormed hw, hop, { h with }⟩

namespace RegsInv

variable {c : CfgData} {i j : Instr} {r : Regs}

/-! ## Consequences outside `HALT` -/

theorem haltCause_none (h : RegsInv c i r) (hi : i ≠ .halt) : r.haltCause = .none :=
  not_not.mp (mt h.haltedOp.2.mp hi)

theorem ctx_irq_iff (h : RegsInv c i r) (hi : i ≠ .halt) : r.ctx = .irq ↔ i.isHandler = true := by
  simpa [h.haltCause_none hi] using h.ctxOp

theorem armed_iff (h : RegsInv c i r) (hi : i ≠ .halt) : r.armed = true ↔ i.isArmed = true := by
  simpa [h.haltCause_none hi] using h.armedOp

/-! ## Writing registers -/

/-- The registers of the retry loop are rewritten on the way to `j`. -/
theorem setRetry (h : RegsInv c i r) (hm : SameControl i j) {a : BitVec 2} {p : BitVec 4} {k : Bool}
    (hp : p.toNat ≤ 10 ∧ (j.pollsAhead = true → p.toNat < 10)) (ha : j.inAttempt = true → a.toNat < 3)
    (hk : j.inRetryLoop = true → k = false) (he : j = .rcFinish → k = false → a.toNat = 3) :
    RegsInv c j { r with att := a, pj := p, calok := k } := by
  obtain ⟨hsuccess, hhalt, hhandler, harmed⟩ := hm
  exact
    { h with
      pjRange := hp
      attRange := ha
      calokClear := hk
      exhausted := he
      rcrcSuccess := h.rcrcSuccess ∘ hsuccess
      haltedOp := by rw [hhalt]; exact h.haltedOp
      ctxOp := by rw [hhandler]; exact h.ctxOp
      armedOp := by rw [harmed]; exact h.armedOp }

/-- An operation of the same phase may follow without any register written. -/
theorem move (h : RegsInv c i r) (hm : SamePhase i j) : SequencerInv c { r with seqOp := encode j } := by
  obtain ⟨-, ⟨hop, hw⟩, ⟨hpolls, hattempt, hloop, hfinish⟩, hcontrol⟩ := hm
  have hj : RegsInv c j r :=
    h.setRetry hcontrol ⟨h.pjRange.1, h.pjRange.2 ∘ hpolls⟩ (h.attRange ∘ hattempt) (h.calokClear ∘ hloop)
      (fun e => absurd e hfinish)
  exact .of_regsInv hj hop hw

/-- The context and the flags are rewritten on the way to an operation outside the retry loop. -/
theorem setControl (h : RegsInv c i r) (hj : OutsideRetry j) {hl ar iv : Bool} {cause : HaltCause} {cx : Ctx}
    (hsuccess : j.afterSuccess = true → r.rcrc = 0) (hhalted : (hl = true ↔ j = .halt) ∧ (cause ≠ .none ↔ j = .halt))
    (hcal : cause = .calExhaust → r.rcrc = 0xFFFFFFFF ∧ ar = false) (hdbe : cause = .eccDbe → r.rcrc = 0 ∧ ar = true)
    (hctx : cx = .irq ↔ (j.isHandler = true ∨ cause = .eccDbe)) (hinsvc : iv = true ↔ cx = .irq)
    (harmed : ar = true ↔ (j.isArmed = true ∨ cause = .eccDbe)) :
    RegsInv c j { r with halted := hl, haltCause := cause, ctx := cx, insvc := iv, armed := ar } := by
  obtain ⟨hpolls, hattempt, hloop, hfinish⟩ := hj
  exact
    { h with
      pjRange := ⟨h.pjRange.1, fun e => absurd e hpolls⟩
      attRange := fun e => absurd e hattempt
      calokClear := fun e => absurd e hloop
      exhausted := fun e => absurd e hfinish
      rcrcSuccess := hsuccess
      haltedOp := hhalted
      haltCal := hcal
      haltDbe := hdbe
      ctxOp := hctx
      insvcCtx := hinsvc
      armedOp := harmed }

/-- The context, `INSVC` and `ARMED` are rewritten on the way to an operation outside the retry loop, no halt before or after. -/
theorem setFlags (h : RegsInv c i r) (hne : i ≠ .halt ∧ j ≠ .halt) (hj : OutsideRetry j) {ar iv : Bool} {cx : Ctx}
    (hsuccess : j.afterSuccess = true → r.rcrc = 0) (hctx : cx = .irq ↔ j.isHandler = true)
    (hinsvc : iv = true ↔ cx = .irq) (harmed : ar = true ↔ j.isArmed = true) :
    RegsInv c j { r with ctx := cx, insvc := iv, armed := ar } :=
  have hcause := h.haltCause_none hne.1
  have hno {k : HaltCause} (hk : k ≠ .none) : r.haltCause ≠ k := hcause ▸ hk.symm
  h.setControl hj hsuccess
    ⟨h.haltedOp.1.trans (iff_of_false hne.1 hne.2), h.haltedOp.2.trans (iff_of_false hne.1 hne.2)⟩
    (fun e => absurd e (hno (by decide))) (fun e => absurd e (hno (by decide)))
    (hctx.trans (or_iff_left (hno (by decide))).symm) hinsvc (harmed.trans (or_iff_left (hno (by decide))).symm)

/-- `RCRC` is written only before a success is reported. -/
theorem setRcrc (h : RegsInv c i r) (hi : i ≠ .halt) (hs : i.afterSuccess ≠ true) {v : Word}
    (hv : v = 0 ∨ v = 0xFFFFFFFF) : RegsInv c i { r with rcrc := v } :=
  have hcause := h.haltCause_none hi
  { h with
    rcrcRange := hv
    rcrcSuccess := fun e => absurd e hs
    haltCal := fun e => absurd (hcause.symm.trans e) (by decide)
    haltDbe := fun e => absurd (hcause.symm.trans e) (by decide) }

end RegsInv

/-- The failure of a poll stays inside the attempt (R260). -/
theorem samePhase_rcHsfail : ∀ i ∈ [Instr.hs6, .hs8, .hs10, .hs12, .hs14], SamePhase i .rcHsfail := by decide

theorem HsPoll.code_step (p : HsPoll) : (stepOfCode p.code).isSome = true := by cases p <;> decide

theorem fitsSigned_iff {W : Nat} {v : Int} : fitsSigned W v = true ↔ -2 ^ (W - 1) ≤ v ∧ v < 2 ^ (W - 1) := by
  simp [fitsSigned]

/-- Counting a poll does not wrap: `PJ` is below 10 where one is still to come (R154). -/
theorem pj_succ {p : BitVec 4} (h : p.toNat < 10) : (p + 1).toNat = p.toNat + 1 := by
  rw [BitVec.toNat_add]
  exact Nat.mod_eq_of_lt (by simp; omega)

/-- An operation of class S that does to the registers what tables T7, T8 and T12 say keeps the invariant about them. -/
theorem RegsStep.keeps_inv {c : CfgData} {i : Instr} {r r' : Regs} (h : RegsInv c i r) (hi : i.opClass = .sequencerState)
    (k : RegsStep c r i r') : SequencerInv c r' := by
  cases k with
  | unit hu => exact absurd (hu.symm.trans hi) (by decide)
  | move hm => exact h.move hm
  | gateSkips => exact (h.setRcrc (by decide) (by decide) (.inl rfl)).move (by decide)
  | gateStarts =>
    have hnext : RegsInv c .rcAttempt { r with att := 0, calok := false } :=
      h.setRetry (by decide) ⟨h.pjRange.1, nofun⟩ nofun (fun _ => rfl) nofun
    exact .of_regsInv hnext rfl rfl
  | attempt hatt =>
    have hnext : RegsInv c .hs1 { r with pj := 0 } :=
      h.setRetry (by decide) (by decide) (fun _ => hatt) (fun _ => h.calokClear rfl) nofun
    exact .of_regsInv hnext rfl rfl
  | attemptsSpent hatt =>
    have hthree : r.att.toNat = 3 := by omega
    have hnext : RegsInv c .rcFinish r :=
      h.setRetry (by decide) ⟨h.pjRange.1, nofun⟩ nofun nofun (fun _ _ => hthree)
    exact .of_regsInv hnext rfl rfl
  | attemptFailed hij =>
    have hcalok : r.calok = false := h.calokClear (by rcases hij with rfl | rfl <;> rfl)
    have hnext : RegsInv c .rcAttempt { r with att := r.att + 1 } :=
      h.setRetry (by rcases hij with rfl | rfl <;> decide) ⟨h.pjRange.1, nofun⟩ nofun (fun _ => hcalok) nofun
    exact .of_regsInv hnext rfl rfl
  | statusSeen =>
    have hpj := h.pjRange.2 rfl
    have hnext : RegsInv c .rcFinish { r with pj := r.pj + 1, calok := true } :=
      h.setRetry (by decide) ⟨by rw [pj_succ hpj]; exact hpj, nofun⟩ nofun nofun nofun
    exact .of_regsInv hnext rfl rfl
  | statusSpent hlast =>
    have hnext : RegsInv c .rcRetry { r with pj := r.pj + 1 } :=
      h.setRetry (by decide) ⟨hlast.le, nofun⟩ (fun _ => h.attRange rfl) (fun _ => h.calokClear rfl) nofun
    exact .of_regsInv hnext rfl rfl
  | statusAgain hmore =>
    have hpj : (r.pj + 1).toNat < 10 := by
      have hlt := h.pjRange.2 rfl
      rw [pj_succ hlt] at hmore ⊢
      omega
    have hnext : RegsInv c .rcStatpoll { r with pj := r.pj + 1 } :=
      h.setRetry (by decide) ⟨hpj.le, fun _ => hpj⟩ (fun _ => h.attRange rfl) (fun _ => h.calokClear rfl) nofun
    exact .of_regsInv hnext rfl rfl
  | finishCalibrated _ => exact (h.setRcrc (by decide) (by decide) (.inl rfl)).move (by decide)
  | finishExhausted _ => exact (h.setRcrc (by decide) (by decide) (.inr rfl)).move (by decide)
  | reportSuccess hz =>
    have hnext : RegsInv c .tcLoad r :=
      h.setFlags (by decide) (by decide) (fun _ => hz) (h.ctx_irq_iff (by decide)) h.insvcCtx (h.armed_iff (by decide))
    exact .of_regsInv hnext rfl rfl
  | reportFailure hnz =>
    have hctx : r.ctx ≠ .irq := mt (h.ctx_irq_iff (by decide)).mp (by decide)
    have harmed : r.armed ≠ true := mt (h.armed_iff (by decide)).mp (by decide)
    have hnext : RegsInv c .halt { r with halted := true, haltCause := .calExhaust } :=
      h.setControl (by decide) nofun (by decide)
        (fun _ => ⟨h.rcrcRange.resolve_left hnz, Bool.eq_false_iff.mpr harmed⟩) nofun
        (iff_of_false hctx (by decide)) h.insvcCtx (iff_of_false harmed (by decide))
    exact .of_regsInv hnext rfl rfl
  | pollTimeout p hp =>
    have hnext : RegsInv c i { r with hsrc := p.code } := { h with hsrcRange := .inr p.code_step }
    exact hnext.move (samePhase_rcHsfail i hp)
  | handshakeDone =>
    have hnext : RegsInv c .hs14 { r with hsrc := 0 } := { h with hsrcRange := .inl rfl }
    exact hnext.move (by decide)
  | load hraw =>
    rename_i raw
    have hnext : RegsInv c .tcLoad { r with raw := raw } :=
      { h with rawRange := fun f => (hraw f).elim (fun e => e ▸ h.rawRange f) id }
    exact hnext.move (by decide)
  | geometry x =>
    have hnext : RegsInv c .tcGeom { r with geomidx := x } := { h with }
    exact hnext.move (by decide)
  | rd2miss x =>
    have hnext : RegsInv c .tcRd2miss { r with derRd2miss := x } := { h with }
    exact hnext.move (by decide)
  | wr2miss x =>
    have hnext : RegsInv c .tcWr2miss { r with derWr2miss := x } := { h with }
    exact hnext.move (by decide)
  | size hx hy =>
    rename_i x y
    have hnext : RegsInv c .tcSize { r with size := x, sizeOut := y } :=
      { h with sizeRange := fitsSigned_iff.mp hx, sizeOutRange := fitsSigned_iff.mp hy }
    exact hnext.move (by decide)
  | firewallAbsent hv =>
    rename_i x
    have hnext : RegsInv c .fwCheck { r with fwrc := x } := { h with fwrcRange := .inr hv }
    exact hnext.move (by decide)
  | firewallPresent =>
    have hnext : RegsInv c .fwCheck { r with fwrc := 0 } := { h with fwrcRange := .inl rfl }
    exact hnext.move (by decide)
  | arm =>
    have hnext : RegsInv c .steady { r with armed := true } :=
      h.setFlags (by decide) (by decide) (fun _ => h.rcrcSuccess rfl) (h.ctx_irq_iff (by decide)) h.insvcCtx (by decide)
    exact .of_regsInv hnext rfl rfl
  | irqEnter =>
    have hnext : RegsInv c .eccEntry { r with insvc := true, ctx := .irq } :=
      h.setFlags (by decide) (by decide) (fun _ => h.rcrcSuccess rfl) (by decide) (by decide) (h.armed_iff (by decide))
    exact .of_regsInv hnext rfl rfl
  | latchStatus x =>
    have hnext : RegsInv c .eccEntry { r with istat := x } := { h with }
    exact hnext.move (by decide)
  | countSbe a n hsbe =>
    have hnext : RegsInv c .eccSbe { r with sbeAddrL := a, cnt := (r.cnt + n.toNat) % 2 ^ c.cntW } :=
      { h with cntRange := ⟨Nat.mod_lt _ (Nat.two_pow_pos _), h.cntRange.2⟩ }
    exact hnext.move (by decide)
  | reportDbe a =>
    have hnext : RegsInv c .eccDbe { r with dbeAddrL := a, dbeCntL := r.cnt } :=
      { h with cntRange := ⟨h.cntRange.1, h.cntRange.1⟩ }
    exact hnext.move (by decide)
  | irqReturn _ =>
    have hnext : RegsInv c .steady { r with insvc := false, ctx := .main } :=
      h.setFlags (by decide) (by decide) (fun _ => h.rcrcSuccess rfl) (by decide) (by decide) (h.armed_iff (by decide))
    exact .of_regsInv hnext rfl rfl
  | dbeHalt _ =>
    have hctx : r.ctx = .irq := (h.ctx_irq_iff (by decide)).mpr rfl
    have harmed : r.armed = true := (h.armed_iff (by decide)).mpr rfl
    have hnext : RegsInv c .halt { r with halted := true, haltCause := .eccDbe } :=
      h.setControl (by decide) nofun (by decide) nofun (fun _ => ⟨h.rcrcSuccess rfl, harmed⟩)
        (iff_of_true hctx (.inr rfl)) h.insvcCtx (iff_of_true harmed (.inr rfl))
    exact .of_regsInv hnext rfl rfl

end Sys2Proof.Machine
end

section
/-! CERTIFICATES. The statements about the state, its invariant and its steps, settled from `RegsStep` (what an operation does to
the registers) and `RegsStep.keeps_inv`. -/

namespace Sys2Proof.Machine

/-! ## Reset -/

/-- The reset values of R291 meet the registers' part of the invariant. -/
theorem regsInv_reset (c : CfgData) : RegsInv c .idle Regs.reset where
  pjRange := by decide
  attRange := by decide
  calokClear := by decide
  exhausted := by decide
  hsrcRange := by decide
  rcrcRange := by decide
  rcrcSuccess := by decide
  fwrcRange := by decide
  rawRange := fun f => by cases f <;> exact Nat.two_pow_pos _
  sizeRange := fitsSigned_iff.mp (by cases c.sizeW <;> decide)
  sizeOutRange := fitsSigned_iff.mp (by cases c.sizeW <;> decide)
  cntRange := ⟨Nat.two_pow_pos _, Nat.two_pow_pos _⟩
  haltedOp := by decide
  haltCal := by decide
  haltDbe := by decide
  ctxOp := by decide
  insvcCtx := by decide
  armedOp := by decide

/-- A block in its reset state (R291) over a canonical Register Space. -/
theorem inv_of_reset {s : State} (hwf : s.space.wf = true) (hregs : s.regs = Regs.reset)
    (hunit : s.unit = AccessUnit.reset) : Inv s where
  spaceWf := hwf
  counters := by rw [hunit]; exact ⟨rfl, rfl⟩
  sequencer := by rw [hregs]; exact ⟨.idle, by decide, rfl, regsInv_reset s.c⟩

theorem inv_iff (s : State) : Inv s ↔ s.space.wf = true ∧ s.ItersZero ∧ SequencerInv s.c s.regs :=
  ⟨fun h => ⟨h.spaceWf, h.counters, h.sequencer⟩, fun ⟨hwf, hiters, hseq⟩ => ⟨hwf, hiters, hseq⟩⟩

/-! ## The environment and the ends of a step -/

theorem Transacted.inv {s t : State} (h : Transacted s t) (hs : Inv s) : Inv t := by
  rw [inv_iff] at hs ⊢
  obtain ⟨hwf, hiters, hseq⟩ := hs
  rw [h.c_eq, h.regs]
  exact ⟨h.wf hwf, h.iters hiters, hseq⟩

theorem inv_endStep {s : State} (h : Inv s) : Inv s.endStep := by
  have henv : Inv s.envPoint := (Transacted.of_busOnly s.busOnly_envPoint).inv h
  rcases s.endStep_cases with ⟨-, heq⟩ | ⟨-, heq⟩
  · rw [heq]
    exact inv_of_reset henv.spaceWf rfl rfl
  · rw [heq]
    exact henv

@[simp] theorem State.holdReset_regs (s : State) : s.holdReset.regs = Regs.reset := s.blockReset.envPoint_regs
@[simp] theorem State.holdReset_unit (s : State) : s.holdReset.unit = AccessUnit.reset := s.blockReset.envPoint_unit

theorem State.holdReset_wf {s : State} (h : s.space.wf = true) : s.holdReset.space.wf = true := s.blockReset.envPoint_wf h

/-! ## Operations and steps -/

/-- Every operation that a fetch gives keeps the invariant when it completes. -/
theorem inv_of_exec {s s1 u : State} {i : Instr} (hf : s.fetch = .ok (i, s1)) (hu : exec i s1 = .next u) (h : Inv s) :
    Inv u := by
  obtain ⟨hwf, hiters, k, hdec, hop, hk⟩ := (inv_iff s).mp h
  obtain ⟨j, hj, hS, hcase⟩ := State.fetch_cases hf
  obtain rfl : k = j := by simpa [hdec] using hj
  have own (hi : i = k) (hs : s1 = s) : Inv u := by
    subst hi hs
    have hop := opStep_of_exec hu
    exact (inv_iff u).mpr ⟨hop.wf hwf, hop.iters hiters, hop.c_eq ▸ hop.regs.keeps_inv hk hS⟩
  rcases hcase with ⟨hh, hi, hs⟩ | ⟨-, hi, rfl, -⟩ | ⟨-, hi, hs, -⟩
  · exact own (hi.trans (hk.haltedOp.1.mp hh).symm) hs
  · exact ((Transacted.clearCmd s).trans (transacted_of_unit hi hu)).inv h
  · exact own hi hs

/-- Settles O10: a step in reset leaves the reset state, and any other step an operation that keeps the invariant
(`inv_of_exec`), followed by the environment's opportunity. -/
theorem stepKeepsTheInvariant : Obligations.StepKeepsTheInvariant := by
  intro s t h hstep
  rcases step_next_cases hstep with ⟨-, rfl⟩ | ⟨-, i, s1, u, hf, hu, rfl⟩
  · exact inv_of_reset (State.holdReset_wf h.spaceWf) s.holdReset_regs s.holdReset_unit
  · exact inv_endStep (inv_of_exec hf hu h)

/-! ## Writers of the registers -/

/-- Settles O15: the registers an operation writes are those of its rows of `RegsStep`. -/
theorem registersChangeOnlyInTheirWriters : Obligations.RegistersChangeOnlyInTheirWriters := by
  intro i s t h
  have hregs := (opStep_of_exec h).regs
  generalize s.regs = r, t.regs = r' at hregs ⊢
  cases hregs with
  | attemptFailed hi => rcases hi with rfl | rfl <;> simp
  | pollTimeout p hi => simpa using fun _ => hi
  | _ => simp

/-! ## The counter -/

theorem State.sbeAddress_trace (s : State) :
    s.sbeAddress.trace =
      s.trace ++ [.busRead s.c.aSbeAddr (s.busRead s.c.aSbeAddr).1, .print (messageBytes 6 (s.busRead s.c.aSbeAddr).1)] := by
  have hread := s.busRead_trace s.c.aSbeAddr
  simp only [State.trace] at hread ⊢
  simp [State.sbeAddress, hread]

theorem State.sbeCount_trace (s : State) :
    s.sbeCount.trace = s.trace ++ [.busRead s.c.aSbeCnt (s.busRead s.c.aSbeCnt).1, .setEnv s.sbeCount.regs.cnt] := by
  have hread := s.busRead_trace s.c.aSbeCnt
  simp only [State.trace] at hread ⊢
  simp [State.sbeCount, hread]

/-- `ECC_SBE` that changes `CNT` (R222): the flag was latched, and it added the value of its one read of SBECNT. -/
theorem eccSbe_cnt {s t : State} (h : exec .eccSbe s = .next t) (hne : t.regs.cnt ≠ s.regs.cnt) :
    bit s.regs.istat s.c.sbeBit = true ∧
    ∃ a n : Word, t.regs.cnt = (s.regs.cnt + n.toNat) % 2 ^ s.c.cntW ∧
      t.trace = s.trace ++
        [.busRead s.c.aSbeAddr a, .print (messageBytes 6 a), .busRead s.c.aSbeCnt n, .setEnv t.regs.cnt] := by
  obtain rfl := Host.Outcome.next.inj h
  by_cases hsbe : s.istatSbe = true
  · rw [if_pos hsbe]
    have hc : s.sbeAddress.c = s.c := (keeps_sbeAddress s).c_eq
    refine ⟨hsbe, (s.busRead s.c.aSbeAddr).1, (s.sbeAddress.busRead s.c.aSbeCnt).1, ?_, ?_⟩
    · rw [State.goto_regs, State.sbeCount_regs, State.sbeAddress_regs, hc]
    · rw [State.trace_goto, State.sbeCount_trace, State.sbeAddress_trace, hc, List.append_assoc]
      rfl
  · rw [if_neg hsbe] at hne
    simp at hne

/-- Settles O54: by `RegistersChangeOnlyInTheirWriters` only `ECC_SBE` changes `CNT`, and it adds what it reads. -/
theorem counterIsWrittenByTheHandlerOnly : Obligations.CounterIsWrittenByTheHandlerOnly := by
  refine ⟨rfl, fun s t hstep hne => ?_⟩
  rcases step_next_cases hstep with ⟨hrst, rfl⟩ | ⟨-, i, s1, u, hf, hu, rfl⟩
  · exact .inr (.inl ⟨hrst, by rw [State.holdReset_regs]; rfl⟩)
  rcases u.endStep_cases with ⟨hrst, heq⟩ | ⟨-, heq⟩
  · exact .inl ⟨hrst, by rw [heq]; rfl⟩
  · refine .inr (.inr ?_)
    rw [heq, State.envPoint_regs] at hne
    rw [heq, State.envPoint_regs, State.trace_envPoint]
    obtain ⟨j, -, -, hcase⟩ := State.fetch_cases hf
    have hs1 : s1.regs = s.regs := by
      rcases hcase with ⟨-, -, rfl⟩ | ⟨-, -, rfl, -⟩ | ⟨-, -, rfl, -⟩ <;> rfl
    obtain ⟨-, -, -, -, -, -, -, -, -, -, -, -, hwriter, -⟩ := registersChangeOnlyInTheirWriters i s1 u hu
    obtain rfl : i = .eccSbe := hwriter (by rwa [hs1])
    rcases hcase with ⟨-, hi, -⟩ | ⟨-, hi, -⟩ | ⟨-, -, rfl, -⟩
    · cases hi
    · cases hi
    · exact ⟨hf, eccSbe_cnt hu hne⟩

/-! ## Owners and contexts -/

/-- The registers of table T3 at addresses of their own that context MAIN accesses (R274). -/
def mainSingles (c : CfgData) : List Addr :=
  [c.aC2s, c.aS2c, c.aGpout, c.aGpin, c.aSiliconid, c.aCalstat, c.aFwen0, c.aFwen1] ++ c.fwTable.map FwEntry.aCfg

/-- The registers of table T3 at addresses of their own that context IRQ accesses (R274). -/
def irqSingles (c : CfgData) : List Addr := [c.aIntstat, c.aSbeCnt, c.aEccctrl, c.aErrinten]

/-- The two contexts share out the registers at addresses of their own. -/
theorem singleAddrs_perm (c : CfgData) : (mainSingles c ++ irqSingles c).Perm (singleAddrs c) := by
  refine List.perm_iff_count.mpr fun a => ?_
  simp only [mainSingles, irqSingles, singleAddrs, hostSingles, envSingles, List.count_append, List.count_cons,
    List.count_nil]
  omega

theorem mem_contextAddrs_main {c : CfgData} {a : Addr} (h : a ∈ contextAddrs c .main) :
    a ∈ mainSingles c ∨ a ∈ c.raw.toList.map FieldLoc.addr ∨ a ∈ c.out.toList.map FieldLoc.addr := by
  simp only [contextAddrs, mainSingles, List.mem_append, List.mem_cons, List.not_mem_nil, or_false] at h ⊢
  tauto

theorem mem_contextAddrs_irq {c : CfgData} {a : Addr} (h : a ∈ contextAddrs c .irq) :
    a ∈ irqSingles c ∨ a ∈ [c.aSbeAddr, c.aDbeAddr] := by
  simp only [contextAddrs, irqSingles, List.mem_cons, List.not_mem_nil, or_false] at h ⊢
  tauto

/-- In a separated record the contexts MAIN and IRQ access different registers (R274). -/
theorem contexts_disjoint {c : CfgData} (hs : separated c = true) {a : Addr} (hm : a ∈ contextAddrs c .main) :
    a ∉ contextAddrs c .irq := by
  simp only [separated, Bool.and_eq_true, decide_eq_true_eq, List.all_eq_true, Bool.not_eq_true', List.contains_eq_mem,
    decide_eq_false_iff_not, List.mem_append, not_or] at hs
  obtain ⟨⟨⟨hnodup, hraw⟩, hfault⟩, hout⟩ := hs
  have hsingle {x : Addr} (hx : x ∈ mainSingles c ∨ x ∈ irqSingles c) : x ∈ singleAddrs c :=
    (singleAddrs_perm c).mem_iff.mp (List.mem_append.mpr hx)
  have hdisj : List.Disjoint (mainSingles c) (irqSingles c) :=
    List.disjoint_of_nodup_append ((singleAddrs_perm c).nodup_iff.mpr hnodup)
  intro hi
  rcases mem_contextAddrs_irq hi with hi | hi
  · rcases mem_contextAddrs_main hm with hm | hm | hm
    · exact hdisj hm hi
    · exact hraw a hm (hsingle (.inr hi))
    · exact (hout a hm).1.1 (hsingle (.inr hi))
  · rcases mem_contextAddrs_main hm with hm | hm | hm
    · exact (hfault a hi).1 (hsingle (.inl hm))
    · exact (hfault a hi).2 hm
    · exact (hout a hm).2 hi

/-- Settles O57: owners by `host_not_env` and `hostSingle_not_env`, contexts by `contexts_disjoint`. -/
theorem separatedRecordsKeepOwnersApart : Obligations.SeparatedRecordsKeepOwnersApart := by
  intro c hs
  exact ⟨fun _ ha => host_not_env hs ha, hostSingle_not_env hs (by simp [hostSingles]), fun _ hm => contexts_disjoint hs hm⟩

/-! ## Fetch -/

section
variable {s : State} {i j : Instr}

theorem fetch_halted (hdec : decode s.regs.seqOp = .ok i) (hop : i.opClass = .sequencerState)
    (hh : s.regs.halted = true) : s.fetch = .ok (.halt, s) := by
  simp [State.fetch, hdec, hop, hh]

theorem fetch_seqOp (hdec : decode s.regs.seqOp = .ok i) (hop : i.opClass = .sequencerState)
    (hh : s.regs.halted = false) (hcmd : s.unit.cmd = none) : s.fetch = .ok (i, s) := by
  simp [State.fetch, hdec, hop, hh, hcmd]

theorem fetch_command {w : OpWord} (hdec : decode s.regs.seqOp = .ok i) (hop : i.opClass = .sequencerState)
    (hh : s.regs.halted = false) (hcmd : s.unit.cmd = some w) (hw : decode w = .ok j) (hj : j.opClass = .unitCommand) :
    s.fetch = .ok (j, s.clearCmd) := by
  simp [State.fetch, State.fetchCommand, hdec, hop, hh, hcmd, hw, hj]

/-- A step outside reset runs what the fetch gives and ends as `endStep` says. -/
theorem step_of_fetch {s1 : State} (hrst : s.inp.rst = false) (hf : s.fetch = .ok (i, s1)) :
    (∀ t, exec i s1 = .next t → step s = .next t.endStep) ∧ (∀ r, exec i s1 = .refused r → step s = .refused r) := by
  constructor
  · intro t ht
    simp [step, hrst, hf, ht]
  · intro r hr
    simp [step, hrst, hf, hr]

end

/-- Settles O6, one case for each way a fetch can succeed. -/
theorem stepRunsTheDecodedOperation : Obligations.StepRunsTheDecodedOperation := by
  intro s
  refine ⟨fun hrst => by simp [step, hrst], fun i hrst hdec hop => ⟨fun hh => ?_, fun hh hcmd => ?_, ?_⟩⟩
  · exact (step_of_fetch hrst (fetch_halted hdec hop hh)).1 _ rfl
  · exact step_of_fetch hrst (fetch_seqOp hdec hop hh hcmd)
  · intro w j hh hcmd hw hj
    exact step_of_fetch hrst (fetch_command hdec hop hh hcmd hw hj)

/-- Settles O9: no byte is listed at reset, so each reads as what its address holds after power-on. -/
theorem resetLeavesTheRegisterSpaceUnspecified : Obligations.ResetLeavesTheRegisterSpaceUnspecified :=
  ⟨rfl, fun _ => rfl⟩

end Sys2Proof.Machine
end

section
/-! CERTIFICATES. The statements of `20_memory.md`: what the end of a step changes, the canonical form of the Register Space, and the
rights of the environment. -/

namespace Sys2Proof.Machine

/-! ## The end of a step -/

/-- The end of a step keeps the configuration record, whether `rst` rose or not (R290). -/
@[simp] theorem State.endStep_cfg (s : State) : s.endStep.cfg = s.cfg := by
  rcases s.endStep_cases with ⟨-, heq⟩ | ⟨-, heq⟩ <;> simp [heq]

/-- The end of a step keeps the canonical form: the reset of the block leaves the Register Space to the environment (R292). -/
theorem State.endStep_wf {s : State} (h : s.space.wf = true) : s.endStep.space.wf = true := by
  rcases s.endStep_cases with ⟨-, heq⟩ | ⟨-, heq⟩
  · rw [heq, State.blockReset_space]
    exact s.envPoint_wf h
  · rw [heq]
    exact s.envPoint_wf h

/-- Settles O7: with `rst` low the end of a step is one opportunity of the environment, with `rst` high the reset of the block
after it (`endStep_cases`). -/
theorem endOfStepIsTheEnvironments : Obligations.EndOfStepIsTheEnvironments := by
  refine fun s => ⟨s.endStep_cfg, ?_⟩
  rcases s.endStep_cases with ⟨hrst, heq⟩ | ⟨hrst, heq⟩
  · refine ⟨fun hlow => absurd (hrst.symm.trans hlow) (by decide), fun _ => ?_⟩
    rw [heq]
    exact ⟨rfl, rfl, rfl⟩
  · refine ⟨fun _ => ?_, fun hhigh => absurd (hrst.symm.trans hhigh) (by decide)⟩
    rw [heq] at hrst ⊢
    have hlow : s.inp.rst = false := s.rst_of_envPoint hrst
    exact ⟨hlow, s.envPoint_regs, s.envPoint_unit, s.envPoint_out, s.envPoint_board hlow,
      fun _ hx => s.envPoint_readByte hlow hx⟩

/-! ## The canonical form -/

/-- A fetch at most takes the command off the port: it makes no access to the Register Space (R100). -/
theorem State.fetch_space {s s1 : State} {i : Instr} (h : s.fetch = .ok (i, s1)) : s1.space = s.space := by
  obtain ⟨_, -, -, hcase⟩ := State.fetch_cases h
  rcases hcase with ⟨-, -, rfl⟩ | ⟨-, -, rfl, -⟩ | ⟨-, -, rfl, -⟩ <;> rfl

/-- Settles O12: the fetch leaves the Register Space alone, every operation keeps its form (`opStep_of_exec`), and so does what
the environment does at the end of the step or while `rst` is high. -/
theorem stepKeepsTheCanonicalForm : Obligations.StepKeepsTheCanonicalForm := by
  intro s t hwf hstep
  rcases step_next_cases hstep with ⟨-, rfl⟩ | ⟨-, i, s1, u, hf, hu, rfl⟩
  · exact State.holdReset_wf hwf
  · have hs1 : s1.space.wf = true := by rwa [State.fetch_space hf]
    exact State.endStep_wf ((opStep_of_exec hu).wf hs1)

/-! ## The environment's rights -/

/-- Settles O56: a register without a right by `envPoint_readWord`, the flags of INTSTAT by `envPoint_intstat`, ERRINTEN by
`envPoint_errinten`. -/
theorem environmentKeepsToItsRights : Obligations.EnvironmentKeepsToItsRights := by
  intro s hwf hrst
  refine ⟨fun a ha hown => ?_, fun hp b hb hset => ?_, fun hp hne => ?_⟩
  · exact s.envPoint_readWord hrst (beq_iff_eq.mpr ha) hown
  · exact s.envPoint_intstat hwf hrst hp hb hset
  · exact s.envPoint_errinten hwf hrst hp hne

end Sys2Proof.Machine
end

section
/-! SUPPORT. The decoder and the encoder (`30_encoding.md` R80 to R85): which rows table T11 has, and that a word and its
operation determine each other. -/

namespace Sys2Proof

/-- The list of reserved words of R85, by family, index and argument. -/
def ReservedFields (fam idx arg : Nat) : Prop :=
  fam = 6 ∨ (fam = 0 ∧ 5 < idx) ∨ (fam = 1 ∧ (idx = 0 ∨ 14 < idx)) ∨ (fam = 2 ∧ 6 < idx) ∨ (fam = 3 ∧ 12 < idx) ∨
  (fam = 4 ∧ 3 < idx) ∨ (fam = 5 ∧ 4 < idx) ∨ (fam = 7 ∧ 6 < idx) ∨
  (arg ≠ 0 ∧ ¬(fam = 4 ∧ idx = 2) ∧ ¬(fam = 7 ∧ idx = 4)) ∨
  (fam = 4 ∧ idx = 2 ∧ 23 < arg) ∨ (fam = 7 ∧ idx = 4 ∧ 7 < arg)

/-- Table T11, row by row: a family and index either name an operation with those columns, the word's argument counting only
where it takes one (R81), or R85 lists them as reserved. -/
theorem decodeRow_cases {fam : Nat} (hfam : fam < 8) (idx : Nat) (arg : BitVec 8) :
    (∃ i, decodeRow fam idx arg = .ok i ∧ i.fields = (fam, idx, if i.takesArg then arg else 0)) ∨
    ((∃ r, decodeRow fam idx arg = .error r) ∧ ReservedFields fam idx arg.toNat) := by
  match fam, idx, hfam with
  | 0, 0, _ | 0, 1, _ | 0, 2, _ | 0, 3, _ | 0, 4, _ | 0, 5, _ => exact .inl ⟨_, rfl, rfl⟩
  | 1, 1, _ | 1, 2, _ | 1, 3, _ | 1, 4, _ | 1, 5, _ | 1, 6, _ | 1, 7, _ | 1, 8, _ | 1, 9, _ | 1, 10, _ | 1, 11, _
  | 1, 12, _ | 1, 13, _ | 1, 14, _ => exact .inl ⟨_, rfl, rfl⟩
  | 2, 0, _ | 2, 1, _ | 2, 2, _ | 2, 3, _ | 2, 4, _ | 2, 5, _ | 2, 6, _ => exact .inl ⟨_, rfl, rfl⟩
  | 3, 0, _ | 3, 1, _ | 3, 2, _ | 3, 3, _ | 3, 4, _ | 3, 5, _ | 3, 6, _ | 3, 7, _ | 3, 8, _ | 3, 9, _ | 3, 10, _
  | 3, 11, _ | 3, 12, _ => exact .inl ⟨_, rfl, rfl⟩
  | 4, 0, _ | 4, 1, _ | 4, 2, _ | 4, 3, _ => exact .inl ⟨_, rfl, rfl⟩
  | 5, 0, _ | 5, 1, _ | 5, 2, _ | 5, 3, _ | 5, 4, _ => exact .inl ⟨_, rfl, rfl⟩
  | 7, 0, _ | 7, 1, _ | 7, 2, _ | 7, 3, _ | 7, 4, _ | 7, 5, _ | 7, 6, _ => exact .inl ⟨_, rfl, rfl⟩
  | 0, _ + 6, _ | 1, 0, _ | 1, _ + 15, _ | 2, _ + 7, _ | 3, _ + 13, _ | 4, _ + 4, _ | 5, _ + 5, _ | 6, _, _
  | 7, _ + 7, _ => exact .inr ⟨⟨_, rfl⟩, by unfold ReservedFields; omega⟩

/-- No row of table T11, with an argument it admits, is in the list of R85. -/
theorem Instr.fields_not_reserved {i : Instr} (h : i.wellFormed = true) :
    ¬ ReservedFields i.fields.1 i.fields.2.1 i.fields.2.2.toNat := by
  unfold ReservedFields
  cases i with
  | fwRegion e | print m =>
    have hlt := of_decide_eq_true h
    simp only [Instr.fields]
    simpa using Nat.le_of_lt_succ hlt
  | _ => decide

theorem OpWord.fam_lt (w : OpWord) : OpWord.fam w < 8 := by
  have := w.isLt
  unfold OpWord.fam
  omega

/-- A word is made of its family, index and argument (R80). -/
theorem OpWord.toNat_eq (w : OpWord) :
    w.toNat = OpWord.fam w * 8192 + OpWord.idx w * 256 + (OpWord.arg w).toNat := by
  simp only [OpWord.fam, OpWord.idx, OpWord.arg, BitVec.toNat_ofNat]
  omega

/-- An operation has the word `w` exactly if its columns are the fields of `w` (R80). -/
theorem encode_eq_iff {i : Instr} {w : OpWord} :
    encode i = w ↔ i.fields = (OpWord.fam w, OpWord.idx w, OpWord.arg w) := by
  constructor
  · rintro rfl
    simp
  · intro h
    apply BitVec.eq_of_toNat_eq
    rw [encode_toNat, h, w.toNat_eq]

/-- Only an argument can make an operation ill-formed (R82). -/
theorem Instr.wellFormed_of_no_arg {i : Instr} (h : i.takesArg = false) : i.wellFormed = true := by
  cases i with
  | fwRegion e | print m => cases h
  | _ => rfl

/-- A word that decodes is the word of the well-formed operation it decodes to (R80, R82). -/
theorem wellFormed_encode_of_decode {w : OpWord} {i : Instr} (h : decode w = .ok i) :
    i.wellFormed = true ∧ encode i = w := by
  rw [encode_eq_iff]
  unfold decode at h
  rcases decodeRow_cases (OpWord.fam_lt w) (OpWord.idx w) (OpWord.arg w) with ⟨j, hj, hrow⟩ | ⟨⟨r, hr⟩, -⟩
  · simp only [hj] at h
    cases harg : j.takesArg with
    | true =>
      simp only [harg, if_true] at h hrow
      obtain ⟨hwf, hij⟩ : j.wellFormed = true ∧ j = i := by simpa [ite_eq_iff] using h
      exact hij ▸ ⟨hwf, hrow⟩
    | false =>
      simp only [harg, Bool.false_eq_true, if_false] at h hrow
      obtain ⟨hzero, hij⟩ : OpWord.arg w = 0 ∧ j = i := by simpa [ite_eq_iff] using h
      exact hij ▸ ⟨j.wellFormed_of_no_arg harg, hzero ▸ hrow⟩
  · simp [hr] at h

/-- A word decodes to the well-formed operation whose columns are its fields, and to no other (R80, R82). -/
theorem decode_eq_ok_iff {w : OpWord} {i : Instr} :
    decode w = .ok i ↔ i.wellFormed = true ∧ i.fields = (OpWord.fam w, OpWord.idx w, OpWord.arg w) := by
  rw [← encode_eq_iff]
  refine ⟨wellFormed_encode_of_decode, ?_⟩
  rintro ⟨hwf, rfl⟩
  exact decode_encode_of_wellFormed hwf

/-- The two rows of table T11 that take an argument. -/
theorem Instr.takesArg_of_row {i : Instr}
    (h : (i.fields.1 = 4 ∧ i.fields.2.1 = 2) ∨ (i.fields.1 = 7 ∧ i.fields.2.1 = 4)) : i.takesArg = true := by
  cases i with
  | fwRegion e | print m => rfl
  | _ => revert h; decide

/-- Fields that R85 does not list are those of a well-formed operation. -/
theorem exists_of_not_reserved {fam idx : Nat} {arg : BitVec 8} (hfam : fam < 8)
    (h : ¬ ReservedFields fam idx arg.toNat) : ∃ i : Instr, i.wellFormed = true ∧ i.fields = (fam, idx, arg) := by
  obtain ⟨i, -, hrow⟩ := (decodeRow_cases hfam idx arg).resolve_right fun hr => h hr.2
  refine ⟨i, ?_⟩
  unfold ReservedFields at h
  cases harg : i.takesArg with
  | true =>
    simp only [harg, if_true] at hrow
    refine ⟨?_, hrow⟩
    cases i with
    | fwRegion e | print m =>
      obtain ⟨rfl, rfl, rfl⟩ : _ = fam ∧ _ = idx ∧ _ = arg := by simpa [Instr.fields] using hrow
      exact decide_eq_true (Nat.lt_succ_of_le (by simpa using h))
    | _ => cases harg
  | false =>
    simp only [harg, Bool.false_eq_true, if_false] at hrow
    have hrows : ¬((fam = 4 ∧ idx = 2) ∨ (fam = 7 ∧ idx = 4)) := fun hr =>
      absurd (i.takesArg_of_row (by rw [hrow]; exact hr)) (by simp [harg])
    have hzero : arg = 0 := by
      apply BitVec.eq_of_toNat_eq
      show arg.toNat = 0
      omega
    exact ⟨i.wellFormed_of_no_arg harg, hzero ▸ hrow⟩

/-- The decoder rejects exactly the words whose fields R85 lists. -/
theorem decode_error_iff {w : OpWord} :
    (∃ r, decode w = .error r) ↔ ReservedFields (OpWord.fam w) (OpWord.idx w) (OpWord.arg w).toNat := by
  constructor
  · rintro ⟨r, hr⟩
    by_contra hlisted
    obtain ⟨i, hi⟩ := exists_of_not_reserved (OpWord.fam_lt w) hlisted
    cases hr.symm.trans (decode_eq_ok_iff.mpr hi)
  · intro hlisted
    cases hw : decode w with
    | error r => exact ⟨r, rfl⟩
    | ok i =>
      obtain ⟨hwf, hfields⟩ := decode_eq_ok_iff.mp hw
      have hno := Instr.fields_not_reserved hwf
      rw [hfields] at hno
      exact absurd hlisted hno

/-! ## The fields as bit ranges (R80) -/

theorem OpWord.extract_fam (w : OpWord) : (w.extractLsb' 13 3).toNat = OpWord.fam w := by
  have := w.isLt
  simp only [BitVec.extractLsb'_toNat, Nat.shiftRight_eq_div_pow, OpWord.fam]
  omega

theorem OpWord.extract_idx (w : OpWord) : (w.extractLsb' 8 5).toNat = OpWord.idx w := by
  simp only [BitVec.extractLsb'_toNat, Nat.shiftRight_eq_div_pow, OpWord.idx]

theorem OpWord.extract_arg (w : OpWord) : (w.extractLsb' 0 8).toNat = (OpWord.arg w).toNat := by
  simp [BitVec.extractLsb'_toNat, OpWord.arg]

end Sys2Proof
end

section
/-! SUPPORT. Operand forms and console text of `30_encoding.md`: the bits of a field (R96), the digits that the directives of R91
print. -/

namespace Sys2Proof.Machine

/-! ## Fields (R96) -/

/-- `mask(w)` has ones exactly below `w` (R12). -/
theorem getLsbD_maskWord (w : Nat) {j : Nat} (hj : j < 32) : (maskWord w).getLsbD j = decide (j < w) := by
  rw [maskWord, BitVec.getLsbD_ofNat, Nat.testBit_two_pow_sub_one]
  simp [hj]

/-- The mask moved to a field has ones exactly inside the field (R96). -/
theorem getLsbD_maskWord_shift (w lsb : Nat) {j : Nat} (hj : j < 32) :
    (maskWord w <<< lsb).getLsbD j = decide (lsb ≤ j ∧ j < lsb + w) := by
  rw [BitVec.getLsbD_shiftLeft, getLsbD_maskWord w (by omega)]
  by_cases hlsb : lsb ≤ j
  · simp [hj, hlsb, Nat.not_lt.mpr hlsb, Nat.sub_lt_iff_lt_add' hlsb]
  · simp [hlsb, Nat.lt_of_not_le hlsb]

/-- The bits of an extracted field (R96). -/
theorem getLsbD_extract (f : FieldLoc) (r : Word) {j : Nat} (hj : j < 32) :
    (extract f r).getLsbD j = (decide (j < f.width) && r.getLsbD (f.lsb + j)) := by
  rw [extract, BitVec.getLsbD_and, BitVec.getLsbD_ushiftRight, getLsbD_maskWord _ hj, Bool.and_comm]

/-- The bits of a register after a field is inserted (R96). -/
theorem getLsbD_insertField (f : FieldLoc) (r v : Word) {j : Nat} (hj : j < 32) :
    (insertField f r v).getLsbD j =
      if f.lsb ≤ j ∧ j < f.lsb + f.width then v.getLsbD (j - f.lsb) else r.getLsbD j := by
  rw [insertField, BitVec.getLsbD_or, BitVec.getLsbD_and, BitVec.getLsbD_not, getLsbD_maskWord_shift _ _ hj,
    BitVec.getLsbD_shiftLeft, BitVec.getLsbD_and, getLsbD_maskWord _ (by omega)]
  split
  · rename_i hin
    have hoff : j - f.lsb < f.width := by omega
    simp [hj, hin, hoff, Nat.not_lt.mpr hin.1]
  · rename_i hout
    by_cases hlow : j < f.lsb
    · simp [hj, hlow, hout]
    · have hoff : ¬ j - f.lsb < f.width := by omega
      simp [hj, hout, hoff]

/-! ## Decimal digits (R91) -/

/-- The ASCII code of a digit fits a byte. -/
theorem digit_toNat {n : Nat} (h : n < 10) : (BitVec.ofNat 8 (0x30 + n) : Byte).toNat = 0x30 + n := by
  rw [BitVec.toNat_ofNat, Nat.mod_eq_of_lt (by omega)]

/-- A digit appended is the new last digit. -/
theorem decimalValue_append (ds : List Byte) (d : Byte) :
    decimalValue (ds ++ [d]) = 10 * decimalValue ds + (d.toNat - 0x30) := by
  simp [decimalValue]

/-- The digits of `n` without padding: ASCII digits, at least one, a leading `0` only in the number 0, denoting `n` (R91). -/
structure DecimalOf (n : Nat) (ds : List Byte) : Prop where
  ne_nil  : ds ≠ []
  digits  : ∀ d ∈ ds, 0x30 ≤ d.toNat ∧ d.toNat ≤ 0x39
  leading : ds.head? = some 0x30 → ds = [0x30]
  value   : decimalValue ds = n

/-- A number below 10 is its own digit. -/
theorem DecimalOf.digit {n : Nat} (h : n < 10) : DecimalOf n [BitVec.ofNat 8 (0x30 + n)] where
  ne_nil := by simp
  digits := by
    intro d hd
    obtain rfl := List.mem_singleton.mp hd
    rw [digit_toNat h]
    omega
  leading := by simp
  value := by simp [decimalValue, -BitVec.toNat_ofNat, digit_toNat h]

/-- One more digit after those of a number that is not 0. -/
theorem DecimalOf.append {n d : Nat} {ds : List Byte} (h : DecimalOf n ds) (hn : n ≠ 0) (hd : d < 10) :
    DecimalOf (10 * n + d) (ds ++ [BitVec.ofNat 8 (0x30 + d)]) where
  ne_nil := by simp
  digits := by
    intro x hx
    rcases List.mem_append.mp hx with hx | hx
    · exact h.digits x hx
    · exact (DecimalOf.digit hd).digits x hx
  leading := by
    intro hlead
    rw [List.head?_append_of_ne_nil _ h.ne_nil] at hlead
    have hv := h.value
    rw [h.leading hlead] at hv
    exact absurd hv.symm hn
  value := by
    rw [decimalValue_append, h.value, digit_toNat hd]
    omega

/-- With room for its digits, `decDigits` gives the number's decimal digits. -/
theorem decimalOf_decDigits {fuel n : Nat} (h : n < 10 ^ (fuel + 1)) : DecimalOf n (decDigits (fuel + 1) n) := by
  induction fuel generalizing n with
  | zero =>
    have hlt : n < 10 := by simpa using h
    simpa [decDigits, hlt] using DecimalOf.digit hlt
  | succ fuel ih =>
    unfold decDigits
    split
    · rename_i hlt
      exact .digit hlt
    · rename_i hge
      have hquot : DecimalOf (n / 10) (decDigits (fuel + 1) (n / 10)) := ih (by rw [pow_succ] at h; omega)
      have happ := hquot.append (d := n % 10) (by omega) (Nat.mod_lt _ (by omega))
      rwa [Nat.div_add_mod] at happ

/-- `%d` is a minus sign for a negative argument, then the decimal digits of its absolute value (R91). -/
theorem fmtD_eq (v : Word) :
    ∃ ds, fmtD v = (if v.toInt < 0 then [0x2D] else []) ++ ds ∧ DecimalOf v.toInt.natAbs ds := by
  have hlt := v.isLt
  have hint := v.toInt_eq_msb_cond
  have hsign := v.msb_eq_toInt
  unfold fmtD
  cases hneg : v.msb with
  | true =>
    have habs : v.toInt.natAbs = 2 ^ 32 - v.toNat := by
      rw [hneg, if_pos rfl] at hint
      omega
    refine ⟨decDigits 10 (2 ^ 32 - v.toNat), ?_, habs ▸ decimalOf_decDigits (by omega)⟩
    rw [if_pos rfl, if_pos (of_decide_eq_true (hsign.symm.trans hneg))]
    rfl
  | false =>
    have habs : v.toInt.natAbs = v.toNat := by
      rw [hneg, if_neg (by decide)] at hint
      omega
    refine ⟨decDigits 10 v.toNat, ?_, habs ▸ decimalOf_decDigits (by omega)⟩
    rw [if_neg (by decide), if_neg (of_decide_eq_false (hsign.symm.trans hneg))]
    rfl

/-! ## Hexadecimal digits (R91) -/

/-- A hexadecimal digit is one of 0-9a-f and has the value it stands for. -/
theorem hexDigit_spec : ∀ n < 16,
    ((0x30 ≤ (hexDigit n).toNat ∧ (hexDigit n).toNat ≤ 0x39) ∨ (0x61 ≤ (hexDigit n).toNat ∧ (hexDigit n).toNat ≤ 0x66)) ∧
    hexDigitValue (hexDigit n) = n := by decide

/-- The eight hexadecimal digits of `%08x` denote the argument (R91). -/
theorem hexValue_fmt08x (v : Word) : hexValue (fmt08x v) = v.toNat := by
  have hval (n : Nat) : hexDigitValue (hexDigit (n % 16)) = n % 16 := (hexDigit_spec _ (Nat.mod_lt _ (by omega))).2
  have hlt := v.isLt
  simp only [hexValue, fmt08x, List.map_cons, List.map_nil, List.foldl_cons, List.foldl_nil, hval]
  omega

end Sys2Proof.Machine
end

section
/-! CERTIFICATES. The statements of `30_encoding.md`: words and operations, the successor relation, fields, messages, and the words
that cannot run. -/

namespace Sys2Proof.Machine

/-! ## Words and operations -/

/-- Settles O1, by `decode_encode_of_wellFormed`. -/
theorem decodeOfEncode : Obligations.DecodeOfEncode := fun _ hwf => decode_encode_of_wellFormed hwf

/-- Settles O2: the row that the word's fields name is the operation's own (`decodeRow_cases`). -/
theorem encodeOfDecode : Obligations.EncodeOfDecode := fun _ _ h => wellFormed_encode_of_decode h

/-- Settles O3, by `decode_error_iff`, the fields being the bit ranges of R80. -/
theorem reservedWordsAreExactlyTheListed : Obligations.ReservedWordsAreExactlyTheListed := by
  rintro w fam idx arg rfl rfl rfl
  rw [OpWord.extract_fam, OpWord.extract_idx, OpWord.extract_arg]
  exact decode_error_iff

/-! ## The successor relation (R94) -/

/-- What tables T7 and T8 let a class S operation write into `SEQ.op` is the word of a successor of table T12. -/
theorem RegsStep.seqOp_successor {c : CfgData} {i : Instr} {r r' : Regs} (h : RegsStep c r i r')
    (hi : i.opClass = .sequencerState) : ∃ j ∈ successors i, r'.seqOp = encode j := by
  cases h with
  | unit hu => exact absurd (hu.symm.trans hi) (by decide)
  | move hm => exact ⟨_, hm.1, rfl⟩
  | attemptFailed hij => rcases hij with rfl | rfl <;> exact ⟨_, by decide, rfl⟩
  | pollTimeout p hp => exact ⟨_, (samePhase_rcHsfail i hp).1, rfl⟩
  | _ => exact ⟨_, by decide, rfl⟩

/-- Settles O13: class S by the rows of `RegsStep`, class U because its commands keep the block's registers. -/
theorem sequencerFollowsTheSuccessorTable : Obligations.SequencerFollowsTheSuccessorTable := fun _ _ _ h =>
  ⟨fun hS => (opStep_of_exec h).regs.seqOp_successor hS, fun hU => congrArg Regs.seqOp (transacted_of_unit hU h).regs⟩

/-! ## Fields and messages -/

/-- Settles O39, bit by bit. -/
theorem fieldsAreExtractedAndInserted : Obligations.FieldsAreExtractedAndInserted :=
  fun f r v _ => ⟨fun _ hj => getLsbD_extract f r hj, fun _ hj => getLsbD_insertField f r v hj⟩

/-- Settles O23: `%d` by `fmtD_eq`, `%08x` digit by digit (`hexDigit_spec`). -/
theorem directivesPrintTheArgument : Obligations.DirectivesPrintTheArgument := by
  intro v
  obtain ⟨ds, hfmt, hds⟩ := fmtD_eq v
  refine ⟨⟨ds, hfmt, hds.ne_nil, hds.digits, hds.leading, hds.value⟩, rfl, fun d hd => ?_, hexValue_fmt08x v⟩
  obtain ⟨k, -, rfl⟩ := List.mem_map.mp hd
  exact (hexDigit_spec _ (Nat.mod_lt _ (by omega))).1

/-- Settles O22: each message is the table's text by evaluation, whatever the argument. -/
theorem messagesAreTheExactStrings : Obligations.MessagesAreTheExactStrings := by
  intro v
  exact ⟨rfl, rfl, rfl, rfl, rfl, rfl, rfl, rfl⟩

/-! ## Words that cannot run (R85, R100) -/

section
variable {s : State} {i j : Instr}

theorem step_refused_of_fetch {r : Refusal} (hrst : s.inp.rst = false) (hf : s.fetch = .error r) :
    step s = .refused r := by
  simp [step, hrst, hf]

theorem fetch_reserved {r : Reserved} (hdec : decode s.regs.seqOp = .error r) :
    s.fetch = .error (.reservedWord s.regs.seqOp) := by
  simp [State.fetch, hdec]

theorem fetch_unitCommand (hdec : decode s.regs.seqOp = .ok i) (hop : i.opClass = .unitCommand) :
    s.fetch = .error (.unitCommandInSeqOp s.regs.seqOp) := by
  simp [State.fetch, hdec, hop]

/-- A pending command comes before the operation in `SEQ.op` (log entry 23). -/
theorem fetch_eq_fetchCommand {w : OpWord} (hdec : decode s.regs.seqOp = .ok i) (hop : i.opClass = .sequencerState)
    (hh : s.regs.halted = false) (hcmd : s.unit.cmd = some w) : s.fetch = s.fetchCommand w := by
  simp [State.fetch, hdec, hop, hh, hcmd]

theorem fetchCommand_reserved {w : OpWord} {r : Reserved} (hw : decode w = .error r) :
    s.fetchCommand w = .error (.reservedWord w) := by
  simp [State.fetchCommand, hw]

theorem fetchCommand_sequencerState {w : OpWord} (hw : decode w = .ok j) (hj : j.opClass = .sequencerState) :
    s.fetchCommand w = .error (.sequencerStateOnCommandPort w) := by
  simp [State.fetchCommand, hw, hj]

end

/-- Settles O4: each case is a fetch that fails with the refusal's name. -/
theorem unrunnableWordsAreRefused : Obligations.UnrunnableWordsAreRefused := by
  intro s hrst
  refine ⟨fun r hdec => ?_, fun i hdec hop => ?_, fun i w hdec hop hh hcmd => ?_⟩
  · exact step_refused_of_fetch hrst (fetch_reserved hdec)
  · exact step_refused_of_fetch hrst (fetch_unitCommand hdec hop)
  · have hport := fetch_eq_fetchCommand hdec hop hh hcmd
    exact ⟨fun r hw => step_refused_of_fetch hrst (hport.trans (fetchCommand_reserved hw)),
      fun j hw hj => step_refused_of_fetch hrst (hport.trans (fetchCommand_sequencerState hw hj))⟩

end Sys2Proof.Machine
end

section
/-! SUPPORT. The commands of the register access unit (`40_register_primitives.md` R101 to R106): where they are refused, their result
ports, and what their one write leaves in INTSTAT and SBECNT. -/

namespace Sys2Proof.Machine

/-! ## The `addr` port (R63) -/

/-- An access of the unit at an aligned address runs. -/
theorem State.atPort_aligned {s : State} (h : s.unit.addr.toNat % 4 = 0) (f : State → State) :
    s.atPort f = .next (f s) := if_pos (beq_iff_eq.mpr h)

/-- An access of the unit at a misaligned address is refused. -/
theorem State.atPort_misaligned {s : State} (h : s.unit.addr.toNat % 4 ≠ 0) (f : State → State) :
    s.atPort f = .refused (.misalignedAddress s.unit.addr) := if_neg fun ha => h (beq_iff_eq.mp ha)

theorem exec_rdreg (s : State) :
    exec .rdreg s = s.atPort fun s => (s.busRead s.unit.addr).2.putRdata (s.busRead s.unit.addr).1 := rfl

theorem exec_wrreg (s : State) : exec .wrreg s = s.atPort fun s => s.busWrite s.unit.addr s.unit.data := rfl

theorem exec_setbit (s : State) : exec .setbit s = s.atPort fun s => s.setBit s.unit.addr s.unit.bit := rfl

theorem exec_clrbit (s : State) : exec .clrbit s = s.atPort fun s => s.clearBit s.unit.addr s.unit.bit := rfl

/-- `POLLBIT` with a timeout of 0 makes no access (R105). -/
theorem exec_pollbit_zero {s : State} (h : s.unit.timeoutUs = 0) : exec .pollbit s = .next (s.putOk false) := if_pos h

/-- `POLLBIT` with another timeout is an access at the `addr` port (R105). -/
theorem exec_pollbit {s : State} (h : s.unit.timeoutUs ≠ 0) :
    exec .pollbit s = s.atPort fun s =>
      (s.pollBit s.unit.addr s.unit.bit s.unit.expected s.unit.timeoutUs.toNat).2.putOk
        (s.pollBit s.unit.addr s.unit.bit s.unit.expected s.unit.timeoutUs.toNat).1 := if_neg h

/-! ## The result ports (R84) -/

/-- Giving a result on `rdata` after an effect. -/
theorem Performed.putRdata {s t : State} {e : Effect} (h : Performed s t e) (v : Word) :
    Performed s (t.putRdata v) { e with unit := { e.unit with rdata := v } } := by
  rw [State.putRdata, h.unit]
  exact h.setUnit _

/-- Giving a result on `ok` after an effect. -/
theorem Performed.putOk {s t : State} {e : Effect} (h : Performed s t e) (b : Bool) :
    Performed s (t.putOk b) { e with unit := { e.unit with ok := b } } := by
  rw [State.putOk, h.unit]
  exact h.setUnit _

/-! ## The side effects of a write (R76) -/

theorem cfg_intstat_aligned (c : Cfg) : aligned c.data.aIntstat = true :=
  cfg_addr_aligned c (cfg_envAddr_mem c (by simp [envAddrs]))

theorem cfg_eccctrl_aligned (c : Cfg) : aligned c.data.aEccctrl = true :=
  cfg_addr_aligned c (by simp [CfgData.otherAddrs])

namespace State

/-- A write of INTSTAT during which `rst` did not rise gives the unlisted bits the value written (R28; log entry 24). -/
theorem busWrite_intstat_other {s : State} (hw : s.space.wf = true) {v : Word}
    (hr : (s.busWrite s.c.aIntstat v).inp.rst = false) {b : BitNo} (h1 : b ≠ s.c.sbeBit) (h2 : b ≠ s.c.dbeBit) :
    bit ((s.busWrite s.c.aIntstat v).space.readWord s.c.aIntstat) b = bit v b := by
  rw [(s.busWrite_readWord hw (cfg_intstat_aligned s.cfg) v hr).2 rfl, bit_w1cValue, bit_intFlagMask_other s.c h1 h2]
  simp

/-- A write of INTSTAT during which `rst` did not rise leaves a flag 1 exactly if it was 1 at the write and the value has a zero for it
(R76 (a)). -/
theorem busWrite_intstat_flag {s : State} (hw : s.space.wf = true) {v : Word}
    (hr : (s.busWrite s.c.aIntstat v).inp.rst = false) {b : BitNo} (hb : b = s.c.sbeBit ∨ b = s.c.dbeBit) :
    bit ((s.busWrite s.c.aIntstat v).space.readWord s.c.aIntstat) b = true ↔
      bit (s.envPoint.space.readWord s.c.aIntstat) b = true ∧ bit v b = false := by
  rw [(s.busWrite_readWord hw (cfg_intstat_aligned s.cfg) v hr).2 rfl, bit_w1cValue, bit_intFlagMask s.c hb]
  simp

/-- A write during which `rst` did not rise that takes CNTRST of ECCCTRL from 0 to 1 leaves SBECNT 0 (R76 (b); log entry 11). The
premise on the owner keeps CNTRST as it was until the write, and ECCCTRL apart from INTSTAT. -/
theorem busWrite_cntrst_sbeCnt {s : State} (hw : s.space.wf = true) {v : Word}
    (hr : (s.busWrite s.c.aEccctrl v).inp.rst = false) (ho : s.c.aEccctrl ∉ envAddrs s.c)
    (h0 : bit (s.space.readWord s.c.aEccctrl) s.c.cntrstBit = false) (h1 : bit v s.c.cntrstBit = true) :
    (s.busWrite s.c.aEccctrl v).space.readWord s.c.aSbeCnt = 0 := by
  have hne : s.c.aEccctrl ≠ s.c.aIntstat := fun e => ho (e ▸ by simp [envAddrs])
  have hsame : s.envPoint.space.readWord s.c.aEccctrl = s.space.readWord s.c.aEccctrl :=
    s.envPoint_readWord ((s.busOnly_busWrite _ v).rst hr) (cfg_eccctrl_aligned s.cfg) ho
  rcases s.busWrite_cases s.c.aEccctrl v with ⟨h, -⟩ | ⟨-, -, hspace, -⟩
  · exact absurd (h.symm.trans hr) (by decide)
  · rw [hspace, Memory.regWrite, if_neg hne, if_pos ⟨rfl, hsame ▸ h0, h1⟩]
    exact Memory.readWord_writeWord_same _ (Memory.writeWord_wf _ (s.envPoint_wf hw) _ _) _ _

/-! ## Read-modify-write at the `addr` port (R103, R104) -/

/-- What an access at the `addr` port does that is a read-modify-write with the function `f`. -/
theorem atPort_rmw {s : State} {f : Word → Word} {access : State → State} (hw : s.space.wf = true)
    (hal : s.unit.addr.toNat % 4 = 0)
    (hrmw : access s = (s.busRead s.unit.addr).2.busWrite s.unit.addr (f (s.busRead s.unit.addr).1)) :
    ∃ t, s.atPort access = .next t ∧ RmwPerformed s t s.unit.addr f s.effect ∧
      (t.inp.rst = false → s.unit.addr = s.c.aIntstat → IntstatFlagsAfterRmw s t f) := by
  refine ⟨access s, atPort_aligned hal access, ?_, fun hr hint => ?_⟩
  · rw [hrmw]
    exact s.rmwPerformed f hw (beq_iff_eq.mpr hal)
  · rw [hrmw, hint] at hr ⊢
    exact s.intstatFlagsAfterRmw f hw hr

/-! ## `DELAY` (R106) -/

/-- The history that a trace stands for. -/
theorem history_of_trace {s t : State} {es : List Event} (h : t.trace = s.trace ++ es) :
    t.out.history = es.reverse ++ s.out.history := by
  rw [trace_eq, trace_eq, List.reverse_eq_iff] at h
  simpa using h

/-- `DELAY` gives the state before it with its events appended and the hidden counter 0 (R38). -/
theorem delayMs_eq (s : State) (ms : Nat) :
    s.delayMs ms = { s with
      unit := { s.unit with delayIter := 0 }
      out := { s.out with history := (delayEvents ms).reverse ++ s.out.history } } := by
  obtain ⟨hcfg, hregs, hspace, henv, hinp, hboard, hconsole, hvar, hunit, htrace⟩ := s.delayMs_spec ms
  have hhistory := history_of_trace htrace
  generalize s.delayMs ms = t at *
  cases t with | mk cfg board regs unit space env inp out =>
  cases out with | mk console envVar history =>
  subst hcfg hregs hspace henv hinp hboard hconsole hvar hunit hhistory
  rfl

end State

/-! ## `POLLBIT` (R105) -/

/-- A poll with at least one read to make has a last value read. -/
theorem PollRan.ne_nil {b : BitNo} {expected ok : Bool} {n : Nat} {vs : List Word} (h : PollRan b expected n ok vs)
    (hn : 0 < n) : vs ≠ [] := by
  rintro rfl
  obtain ⟨-, -, htrue, hfalse⟩ := h
  cases ok with
  | true => obtain ⟨v, hv, -⟩ := htrue rfl; cases hv
  | false => exact absurd (hfalse rfl).1 hn.ne

/-- A timeout other than 0 gives the poll at least one read. -/
theorem pollCount_pos {us : Nat} (h : us ≠ 0) : 0 < pollCount us := by
  simp only [pollCount, Config.pollQuantumUs]
  omega

end Sys2Proof.Machine
end

section
/-! CERTIFICATES. The statements of `40_register_primitives.md`: the commands of the register access unit. -/

namespace Sys2Proof.Machine

/-- Settles O16: one bus read (`performed_busRead`), its value put on `rdata`. -/
theorem rdregReadsItsRegister : Obligations.RdregReadsItsRegister := by
  intro s
  rw [exec_rdreg]
  refine ⟨fun hmis => State.atPort_misaligned hmis _, fun hal =>
    ⟨_, (s.busRead s.unit.addr).1, State.atPort_aligned hal _, (s.performed_busRead s.unit.addr).putRdata _, ?_, ?_⟩⟩
  · exact (congrArg (·.readWord s.unit.addr) (s.busRead_space s.unit.addr)).symm
  · exact fun hr ho => s.envPoint_readWord ((s.busOnly_busRead s.unit.addr).rst hr) (beq_iff_eq.mpr hal) ho

/-- Settles O17: one bus write (`performed_busWrite`); the register by `busWrite_readWord`, the flags of INTSTAT by
`busWrite_intstat_flag`, which the environment does not clear (`envPoint_intstat`), SBECNT by `busWrite_cntrst_sbeCnt`. -/
theorem wrregWritesItsRegister : Obligations.WrregWritesItsRegister := by
  intro s hw
  rw [exec_wrreg]
  refine ⟨fun hmis => State.atPort_misaligned hmis _, fun hal =>
    ⟨_, State.atPort_aligned hal _, s.performed_busWrite _ _, fun hr => ?_⟩⟩
  have hr0 : s.inp.rst = false := (s.busOnly_busWrite _ _).rst hr
  refine ⟨(s.busWrite_readWord hw (beq_iff_eq.mpr hal) _ hr).1, fun hint b => ?_, fun hecc ho h0 h1 => ?_⟩
  · rw [hint] at hr ⊢
    have hflag (hb : b = s.c.sbeBit ∨ b = s.c.dbeBit) := State.busWrite_intstat_flag hw hr hb
    exact ⟨State.busWrite_intstat_other hw hr, fun hb => ⟨hflag hb, fun hp hset hzero =>
      (hflag hb).mpr ⟨s.envPoint_intstat hw hr0 hp hb hset, hzero⟩⟩⟩
  · rw [hecc] at hr ho h0 ⊢
    exact State.busWrite_cntrst_sbeCnt hw hr ho h0 h1

/-- Settles O18: `SETBIT` and `CLRBIT` are one read-modify-write at the port (`atPort_rmw`), with the function of R103 and of R104. -/
theorem setbitAndClrbitModifyOneBit : Obligations.SetbitAndClrbitModifyOneBit := by
  intro s hw
  rw [exec_setbit, exec_clrbit]
  exact ⟨fun hmis => ⟨State.atPort_misaligned hmis _, State.atPort_misaligned hmis _⟩, fun hal =>
    ⟨State.atPort_rmw hw hal (s.setBit_eq _ _), State.atPort_rmw hw hal (s.clearBit_eq _ _)⟩⟩

/-- Settles O19: the reads are those of the loop (`performed_pollBit`), at least one where the timeout is not 0. -/
theorem pollbitPollsWithinItsBudget : Obligations.PollbitPollsWithinItsBudget := by
  refine fun s => ⟨exec_pollbit_zero, fun h0 hmis => ?_, fun h0 hal => ?_⟩
  · exact (exec_pollbit h0).trans (State.atPort_misaligned hmis _)
  · obtain ⟨vs, hran, hlast, hperf⟩ :=
      s.performed_pollBit s.unit.addr s.unit.bit s.unit.expected s.unit.timeoutUs.toNat
    have hne : vs ≠ [] := hran.ne_nil (pollCount_pos fun h => h0 (BitVec.eq_of_toNat_eq h))
    have hsome := List.getLast?_eq_some_getLast hne
    refine ⟨_, vs, _, (exec_pollbit h0).trans (State.atPort_aligned hal _), hran, ?_, hperf.putOk _⟩
    exact hsome.trans (congrArg some (hlast _ hsome))

/-- Settles O20, by `delayMs_eq`. -/
theorem delayOnlyWaitsAndRefreshes : Obligations.DelayOnlyWaitsAndRefreshes := fun s =>
  ⟨_, rfl, s.delayMs_eq s.unit.ms.toNat⟩

end Sys2Proof.Machine
end

section
/-! SUPPORT. The handshake steps (`41_handshake.md` R121 to R137): the rights to their two outbound registers, the effects they are
made of (a read-modify-write of an outbound register, a poll that can time out, the end of `HS14`), and the traffic of any handshake
step. -/

namespace Sys2Proof.Machine

/-! ## The outbound registers (R120) -/

/-- The registers that the handshake writes, C2S and GPOUT, are aligned and HOST-owned (R68, R137). -/
theorem cfg_outbound (c : Cfg) {a : Addr} (h : a = c.data.aC2s ∨ a = c.data.aGpout) :
    aligned a = true ∧ a ∉ envAddrs c.data := by
  rcases h with rfl | rfl
  · exact ⟨cfg_addr_aligned c (by simp [CfgData.handshakeAddrs]), cfg_c2s_not_env c⟩
  · exact ⟨cfg_addr_aligned c (by simp [CfgData.handshakeAddrs]), cfg_gpout_not_env c⟩

/-- A write of a HOST-owned register during which `rst` did not rise stores the value (R102). -/
theorem State.busWrite_readWord_host {s : State} (hw : s.space.wf = true) {a : Addr} (ha : aligned a = true)
    (ho : a ∉ envAddrs s.c) {v : Word} (hr : (s.busWrite a v).inp.rst = false) :
    (s.busWrite a v).space.readWord a = v := by
  have hint : a ≠ s.c.aIntstat := fun e => ho (by simp [e, envAddrs])
  have hcnt : a ≠ s.c.aSbeCnt := fun e => ho (by simp [e, envAddrs, partnerAddrs])
  exact (s.busWrite_readWord hw ha v hr).1 hint fun _ => hcnt

/-! ## The settle time (R121) -/

/-- A delay, from which the sequencer goes on (R106). -/
theorem State.delayMs_goto (s : State) (ms : Nat) {j : Instr} {w : OpWord} (hj : encode j = w) :
    (s.delayMs ms).goto j = { s with
      regs := { s.regs with seqOp := w }
      unit := { s.unit with delayIter := 0 }
      out := { s.out with history := (delayEvents ms).reverse ++ s.out.history } } := by
  rw [State.delayMs_eq, State.goto, hj]

/-! ## Steps that set or clear one signal -/

section
variable {s : State} {i j : Instr} {a : Addr} {w : OpWord}

/-- A read-modify-write of an outbound register, from which the sequencer goes on. -/
theorem hostRmw_goto (hw : s.space.wf = true) (ha : a = s.c.aC2s ∨ a = s.c.aGpout) (f : Word → Word) (hj : encode j = w) :
    HostRmwPerformed s (((s.busRead a).2.busWrite a (f (s.busRead a).1)).goto j) a f
      { s.effect with regs := { s.regs with seqOp := w } } :=
  have ⟨hal, ho⟩ := cfg_outbound s.cfg ha
  ((s.rmwPerformed f hw hal).goto j hj).host ho

/-- A step that clears a bit of an outbound register (R122, R124, R129, R133). -/
theorem clearStep_performed (hw : s.space.wf = true) (ha : a = s.c.aC2s ∨ a = s.c.aGpout) {b : BitNo}
    (hi : exec i s = .next ((s.clearBit a b).goto j)) (hj : encode j = w) :
    ∃ t, exec i s = .next t ∧ HostRmwPerformed s t a (fun v => v &&& ~~~(1#32 <<< b.val))
      { s.effect with regs := { s.regs with seqOp := w } } :=
  ⟨_, hi, hostRmw_goto hw ha (fun v => withBitClear v b) hj⟩

/-- A step that sets a bit of an outbound register (R125, R127, R131). -/
theorem setStep_performed (hw : s.space.wf = true) (ha : a = s.c.aC2s ∨ a = s.c.aGpout) {b : BitNo}
    (hi : exec i s = .next ((s.setBit a b).goto j)) (hj : encode j = w) :
    ∃ t, exec i s = .next t ∧ HostRmwPerformed s t a (fun v => v ||| 1#32 <<< b.val)
      { s.effect with regs := { s.regs with seqOp := w } } :=
  ⟨_, hi, hostRmw_goto hw ha (fun v => withBitSet v b) hj⟩

end

/-! ## Polls that can time out (R260) -/

/-- `HsTimeout` after an effect (R260). -/
theorem Performed.hsTimeout {s t : State} {e : Effect} (h : Performed s t e) (p : HsPoll) :
    Performed s (t.raise (.hsTimeout p)) { e with regs := { e.regs with hsrc := p.code, seqOp := 0x4200 } } := by
  rw [State.raise, h.regs]
  exact (h.setRegs _).goto .rcHsfail rfl

/-- The poll of a handshake step: a last value is read, and it is what the register then holds. -/
theorem performed_hsPollBit (s : State) (a : Addr) (b : BitNo) (expected : Bool) {us n : Nat} (hn : pollCount us = n)
    (hpos : 0 < n) :
    ∃ vs, PollRan b expected n (s.pollBit a b expected us).1 vs ∧
      vs.getLast? = some ((s.pollBit a b expected us).2.space.readWord a) ∧
      Performed s (s.pollBit a b expected us).2
        { s.effect with unit := { s.unit with pollIter := 0 }, events := pollEvents a vs } := by
  subst hn
  obtain ⟨vs, hran, hlast, hperf⟩ := s.performed_pollBit a b expected us
  have hsome := List.getLast?_eq_some_getLast (hran.ne_nil hpos)
  exact ⟨vs, hran, hsome.trans (congrArg some (hlast _ hsome)), hperf⟩

/-- A handshake step that is a poll goes on, or aborts with its code. -/
theorem pollStep_of_hsPoll {s : State} {i j : Instr} {p : HsPoll} {a : Addr} {b : BitNo} {expected : Bool} {us n : Nat}
    {w : OpWord} (hi : exec i s = .next (s.hsPoll p a b expected us j)) (hn : pollCount us = n) (hpos : 0 < n)
    (hj : encode j = w) : PollStep i a b expected n p.code w s := by
  obtain ⟨vs, hran, hlast, hperf⟩ := performed_hsPollBit s a b expected hn hpos
  refine ⟨_, vs, _, hi, hran, ?_⟩
  unfold State.hsPoll
  split
  · exact ⟨hlast, hperf.goto j hj⟩
  · exact ⟨hlast, hperf.hsTimeout p⟩

/-! ## The end of `HS14` (R134) -/

/-- The effect of doing nothing after an effect. -/
theorem Performed.effect_eq {s t : State} {e : Effect} (h : Performed s t e) :
    t.effect = { e with console := [], events := [], stored := [] } := by
  simp only [State.effect, h.regs, h.unit, h.envVar]

/-- An effect that stores nothing leaves a HOST-owned register as it was, unless `rst` rose (R68). -/
theorem Performed.readWord_host {s t : State} {e : Effect} (h : Performed s t e) (hs : e.stored = [])
    (hr : t.inp.rst = false) {a : Addr} (ha : aligned a = true) (ho : a ∉ envAddrs s.c) :
    t.space.readWord a = s.space.readWord a :=
  Memory.readWord_congr fun _ hk => h.frame hr _ (cfg_envByte_of_not_mem s.cfg ha ho hk) (by simp [hs])

/-- The events of an effect, told as they are where `rst` did not rise. -/
theorem Performed.withEvents {s t : State} {e : Effect} (h : Performed s t e) {es : List Event}
    (hes : t.inp.rst = false → e.events = es) : Performed s t { e with events := es } :=
  { h with trace := fun hr => hes hr ▸ h.trace hr }

/-- A delay after an effect (R106). -/
theorem Performed.delayMs {s t : State} {e : Effect} (h : Performed s t e) (ms : Nat) :
    Performed s (t.delayMs ms)
      { e with unit := { e.unit with delayIter := 0 }, events := e.events ++ delayEvents ms } := by
  obtain ⟨-, -, -, -, hinp, -⟩ := t.delayMs_spec ms
  have hwait := t.performed_delayMs ms
  rw [h.effect_eq, h.unit] at hwait
  simpa using h.trans hwait fun hr => hinp ▸ hr

/-- Setting a bit of an outbound register after an effect that stores nothing. -/
theorem Performed.setBit {s t : State} {e : Effect} (h : Performed s t e) (hs : e.stored = []) (hw : t.space.wf = true)
    {a : Addr} (ha : a = s.c.aC2s ∨ a = s.c.aGpout) (b : BitNo) :
    Performed s (t.setBit a b)
      { e with
        events := e.events ++ [.busRead a (s.space.readWord a), .busWrite a (withBitSet (s.space.readWord a) b)]
        stored := [a] } ∧
    ((t.setBit a b).inp.rst = false → (t.setBit a b).space.readWord a = withBitSet (s.space.readWord a) b) := by
  have hc : t.c = s.c := congrArg Cfg.data h.cfg
  have ⟨hal, ho⟩ := cfg_outbound s.cfg ha
  have hrst := (t.busOnly_setBit a b).rst
  have hsame (hr : (t.setBit a b).inp.rst = false) : t.space.readWord a = s.space.readWord a :=
    h.readWord_host hs (hrst hr) hal ho
  obtain ⟨hset, hbit⟩ := (t.rmwPerformed (fun v => withBitSet v b) hw hal).host (hc ▸ ho)
  rw [← t.setBit_eq, h.effect_eq] at hset
  refine ⟨?_, fun hr => (hbit hr).trans (congrArg (withBitSet · b) (hsame hr))⟩
  have hboth := (h.trans hset hrst).withEvents fun hr => by rw [hsame hr]
  simpa [hs] using hboth

/-- An effect and then the end of a successful handshake, `v` being the value of C2S before it. -/
def Effect.hsSucceed (e : Effect) (c : CfgData) (v : Word) : Effect :=
  { e with
    regs := { e.regs with hsrc := 0, seqOp := 0x4300 }
    unit := { e.unit with delayIter := 0 }
    events := e.events ++ [.busRead c.aC2s v, .busWrite c.aC2s (withBitSet v c.doneBit)] ++ delayEvents 100
    stored := [c.aC2s] }

/-- The end of a successful handshake after an effect that stores nothing: DONE set, the wait, `HSRC` 0. -/
theorem Performed.hsSucceed {s t : State} {e : Effect} (h : Performed s t e) (hs : e.stored = [])
    (hw : t.space.wf = true) :
    Performed s t.hsSucceed (e.hsSucceed s.c (s.space.readWord s.c.aC2s)) ∧
    (t.hsSucceed.inp.rst = false →
      t.hsSucceed.space.readWord s.c.aC2s = withBitSet (s.space.readWord s.c.aC2s) s.c.doneBit) := by
  have hc : t.c = s.c := congrArg Cfg.data h.cfg
  obtain ⟨hset, hdone⟩ := h.setBit hs hw (.inl rfl) s.c.doneBit
  obtain ⟨-, -, hspace, -, hinp, -⟩ := (t.setBit s.c.aC2s s.c.doneBit).delayMs_spec Config.hsFinalMs
  have hwait := hset.delayMs Config.hsFinalMs
  rw [State.hsSucceed, hc, hwait.regs]
  refine ⟨(hwait.setRegs _).goto .rcStatpoll rfl, fun hr => ?_⟩
  rw [State.goto_space, hspace]
  exact hdone (hinp ▸ hr)

/-! ## Traffic on the handshake set (R136, R137) -/

/-- An event of the handshake: a bus transaction is to the handshake set, and a write to C2S or GPOUT. -/
def Event.OnHandshakeSet (c : CfgData) : Event → Prop
  | .busRead a _ => a ∈ c.handshakeAddrs
  | .busWrite a _ => a = c.aC2s ∨ a = c.aGpout
  | _ => True

theorem mem_handshakeAddrs_of_outbound {c : CfgData} {a : Addr} (h : a = c.aC2s ∨ a = c.aGpout) : a ∈ c.handshakeAddrs := by
  rcases h with rfl | rfl <;> simp [CfgData.handshakeAddrs]

/-- The transactions of handshake events are to the handshake set. -/
theorem busAddrs_onHandshakeSet {c : CfgData} {es : List Event} (h : ∀ e ∈ es, e.OnHandshakeSet c) :
    ∀ a ∈ busAddrs es, a ∈ c.handshakeAddrs := by
  intro a ha
  obtain ⟨e, he, hea⟩ := List.mem_filterMap.mp ha
  have hon := h e he
  cases e with
  | busRead b v => cases hea; exact hon
  | busWrite b v => cases hea; exact mem_handshakeAddrs_of_outbound hon
  | _ => cases hea

/-- The writes of handshake events are to C2S and GPOUT. -/
theorem writeAddrs_onHandshakeSet {c : CfgData} {es : List Event} (h : ∀ e ∈ es, e.OnHandshakeSet c) :
    ∀ a ∈ writeAddrs es, a = c.aC2s ∨ a = c.aGpout := by
  intro a ha
  obtain ⟨e, he, hea⟩ := List.mem_filterMap.mp ha
  have hon := h e he
  cases e with
  | busWrite b v => cases hea; exact hon
  | _ => cases hea

/-- What the bus traffic of handshake steps does, `rst` risen or not. -/
structure HandshakeTraffic (s t : State) : Prop where
  cfg   : t.cfg = s.cfg
  rst   : t.inp.rst = false → s.inp.rst = false
  trace : ∃ es, t.trace = s.trace ++ es ∧ ∀ e ∈ es, e.OnHandshakeSet s.c
  frame : t.inp.rst = false → ∀ x, envByte s.c x = false → byteOfReg s.c.aC2s x = false →
    byteOfReg s.c.aGpout x = false → t.space.readByte x = s.space.readByte x

namespace HandshakeTraffic

variable {s t u : State}

theorem trans (h : HandshakeTraffic s t) (k : HandshakeTraffic t u) : HandshakeTraffic s u := by
  have hc : t.c = s.c := congrArg Cfg.data h.cfg
  obtain ⟨hcfg, hrst, ⟨es, hes, hon⟩, hframe⟩ := h
  obtain ⟨kcfg, krst, ⟨fs, hfs, kon⟩, kframe⟩ := k
  rw [hc] at kon kframe
  refine ⟨kcfg.trans hcfg, hrst ∘ krst, ⟨es ++ fs, ?_, List.forall_mem_append.mpr ⟨hon, kon⟩⟩,
    fun hr x hx h1 h2 => ?_⟩
  · rw [hfs, hes, List.append_assoc]
  · rw [kframe hr x hx h1 h2, hframe (krst hr) x hx h1 h2]

/-- Writing the block's registers, as `goto` and an error condition do, makes no traffic. -/
theorem setRegs (h : HandshakeTraffic s t) (r : Regs) : HandshakeTraffic s { t with regs := r } :=
  ⟨h.cfg, h.rst, h.trace, h.frame⟩

theorem busRead (s : State) {a : Addr} (ha : a ∈ s.c.handshakeAddrs) : HandshakeTraffic s (s.busRead a).2 where
  cfg := s.busRead_cfg a
  rst := (s.busOnly_busRead a).rst
  trace := ⟨_, s.busRead_trace a, by simpa [Event.OnHandshakeSet] using ha⟩
  frame := fun hr x hx _ _ => (s.performed_busRead a).frame hr x hx (by simp [State.effect])

theorem busWrite (s : State) {a : Addr} (ha : a = s.c.aC2s ∨ a = s.c.aGpout) (v : Word) :
    HandshakeTraffic s (s.busWrite a v) where
  cfg := s.busWrite_cfg a v
  rst := (s.busOnly_busWrite a v).rst
  trace := by
    rcases s.busWrite_cases a v with ⟨-, heq⟩ | ⟨-, -, -, htrace⟩
    · exact ⟨[], by rw [heq, State.trace_envPoint, List.append_nil], by simp⟩
    · exact ⟨_, htrace, by simpa [Event.OnHandshakeSet] using ha⟩
  frame := fun hr x hx h1 h2 => (s.performed_busWrite a v).frame hr x hx (by rcases ha with rfl | rfl <;> simpa)

theorem rmw (s : State) {a : Addr} (ha : a = s.c.aC2s ∨ a = s.c.aGpout) (f : Word → Word) :
    HandshakeTraffic s ((s.busRead a).2.busWrite a (f (s.busRead a).1)) :=
  (busRead s (mem_handshakeAddrs_of_outbound ha)).trans (busWrite _ (by simpa using ha) _)

theorem setBit (s : State) {a : Addr} (ha : a = s.c.aC2s ∨ a = s.c.aGpout) (b : BitNo) : HandshakeTraffic s (s.setBit a b) :=
  rmw s ha fun v => withBitSet v b

theorem clearBit (s : State) {a : Addr} (ha : a = s.c.aC2s ∨ a = s.c.aGpout) (b : BitNo) :
    HandshakeTraffic s (s.clearBit a b) :=
  rmw s ha fun v => withBitClear v b

theorem pollBit (s : State) {a : Addr} (ha : a ∈ s.c.handshakeAddrs) (b : BitNo) (expected : Bool) (us : Nat) :
    HandshakeTraffic s (s.pollBit a b expected us).2 := by
  obtain ⟨hcfg, -, -, -, -, -, hlow, vs, -, htrace, -⟩ := s.pollBit_spec a b expected us
  refine ⟨hcfg, fun hr => (hlow hr).1, ⟨_, htrace, fun e he => ?_⟩, fun hr x hx _ _ => (hlow hr).2.2 x hx⟩
  obtain ⟨v, -, he⟩ := List.mem_flatMap.mp he
  simp only [List.mem_cons, List.not_mem_nil, or_false] at he
  rcases he with rfl | rfl | rfl
  · trivial
  · trivial
  · exact ha

theorem delayMs (s : State) (ms : Nat) : HandshakeTraffic s (s.delayMs ms) := by
  obtain ⟨hcfg, -, hspace, -, hinp, -, -, -, -, htrace⟩ := s.delayMs_spec ms
  refine ⟨hcfg, fun hr => hinp ▸ hr, ⟨_, htrace, fun e he => ?_⟩, fun _ x _ _ _ => by rw [hspace]⟩
  obtain ⟨l, hl, he⟩ := List.mem_flatten.mp he
  simp only [List.eq_of_mem_replicate hl, List.mem_cons, List.not_mem_nil, or_false] at he
  rcases he with rfl | rfl <;> trivial

theorem hsPoll (s : State) (p : HsPoll) {a : Addr} (ha : a ∈ s.c.handshakeAddrs) (b : BitNo) (expected : Bool) (us : Nat)
    (j : Instr) : HandshakeTraffic s (s.hsPoll p a b expected us j) := by
  have hpoll := pollBit s ha b expected us
  unfold State.hsPoll
  split
  · exact hpoll.setRegs _
  · exact hpoll.setRegs _

theorem hsSucceed (s : State) : HandshakeTraffic s s.hsSucceed := by
  have hwait := (setBit s (.inl rfl) s.c.doneBit).trans (delayMs _ Config.hsFinalMs)
  unfold State.hsSucceed
  generalize (s.setBit s.c.aC2s s.c.doneBit).delayMs Config.hsFinalMs = t at hwait ⊢
  exact hwait.setRegs _

theorem hs14 (h : exec .hs14 s = .next t) : HandshakeTraffic s t := by
  obtain rfl := Host.Outcome.next.inj h
  have hpoll := pollBit s (a := s.c.aGpin) (by simp [CfgData.handshakeAddrs]) s.c.calrdyBit true Config.hsT14Us
  split
  · exact hpoll.trans (hsSucceed _)
  · exact hpoll.setRegs _

/-- Every handshake step that completes. -/
theorem of_exec {i : Instr} (hi : i.isHandshake = true) (h : exec i s = .next t) : HandshakeTraffic s t := by
  cases i with
  | hs1 => obtain rfl := Host.Outcome.next.inj h; exact (delayMs s _).setRegs _
  | hs2 | hs4 | hs13 => obtain rfl := Host.Outcome.next.inj h; exact (clearBit s (.inr rfl) _).setRegs _
  | hs9 => obtain rfl := Host.Outcome.next.inj h; exact (clearBit s (.inl rfl) _).setRegs _
  | hs3 => obtain rfl := Host.Outcome.next.inj h; exact (busWrite s (.inl rfl) _).setRegs _
  | hs5 | hs11 => obtain rfl := Host.Outcome.next.inj h; exact (setBit s (.inr rfl) _).setRegs _
  | hs7 => obtain rfl := Host.Outcome.next.inj h; exact (setBit s (.inl rfl) _).setRegs _
  | hs6 | hs8 | hs10 | hs12 =>
    obtain rfl := Host.Outcome.next.inj h
    exact hsPoll s _ (by simp [CfgData.handshakeAddrs]) _ _ _ _
  | hs14 => exact hs14 h
  | _ => cases hi

end HandshakeTraffic

/-- Of the block's registers a handshake step writes `HSRC` and `SEQ.op` at most (R137). -/
theorem RegsStep.handshake {c : CfgData} {r r' : Regs} {i : Instr} (h : RegsStep c r i r') (hi : i.isHandshake = true) :
    r' = { r with hsrc := r'.hsrc, seqOp := r'.seqOp } := by
  cases h with
  | unit | move | pollTimeout | handshakeDone => rfl
  | attemptFailed hij => rcases hij with rfl | rfl <;> cases hi
  | _ => cases hi

end Sys2Proof.Machine
end

section
/-! CERTIFICATES. The statements of `41_handshake.md`: the steps of the calibration handshake. -/

namespace Sys2Proof.Machine

/-- Settles O24, by `delayMs_goto`. -/
theorem hs1WaitsTheSettleTime : Obligations.Hs1WaitsTheSettleTime :=
  ⟨rfl, fun s => ⟨_, rfl, s.delayMs_goto Config.hsSettleMs rfl⟩⟩

/-- Settles O25: each step is a `clearStep_performed` of C2S or GPOUT. -/
theorem handshakeStepsThatClearASignal : Obligations.HandshakeStepsThatClearASignal :=
  ⟨rfl, rfl, rfl, rfl, fun _ hw =>
    ⟨clearStep_performed hw (.inr rfl) rfl rfl, clearStep_performed hw (.inr rfl) rfl rfl,
      clearStep_performed hw (.inl rfl) rfl rfl, clearStep_performed hw (.inr rfl) rfl rfl⟩⟩

/-- Settles O26: each step is a `setStep_performed` of C2S or GPOUT. -/
theorem handshakeStepsThatSetASignal : Obligations.HandshakeStepsThatSetASignal :=
  ⟨rfl, rfl, rfl, fun _ hw =>
    ⟨setStep_performed hw (.inr rfl) rfl rfl, setStep_performed hw (.inl rfl) rfl rfl,
      setStep_performed hw (.inr rfl) rfl rfl⟩⟩

/-- Settles O27: one bus write (`performed_busWrite`) of a HOST-owned register. -/
theorem hs3ZeroesTheOutboundRegister : Obligations.Hs3ZeroesTheOutboundRegister := by
  refine ⟨rfl, fun s hw => ⟨_, rfl, (s.performed_busWrite s.c.aC2s 0).goto .hs4 rfl, fun hr => ?_⟩⟩
  have ⟨hal, ho⟩ := cfg_outbound s.cfg (.inl rfl)
  rw [State.goto_inp] at hr
  rw [State.goto_space]
  exact State.busWrite_readWord_host hw hal ho hr

/-- Settles O28: each step is a poll (`pollStep_of_hsPoll`) with its own budget, code and successor. -/
theorem handshakePollsSucceedOrAbortWithTheirCode : Obligations.HandshakePollsSucceedOrAbortWithTheirCode :=
  ⟨rfl, rfl, rfl, rfl, fun _ =>
    ⟨pollStep_of_hsPoll (p := .step6) rfl rfl (by decide) rfl, pollStep_of_hsPoll (p := .step8) rfl rfl (by decide) rfl,
      pollStep_of_hsPoll (p := .step10) rfl rfl (by decide) rfl, pollStep_of_hsPoll (p := .step12) rfl rfl (by decide) rfl⟩⟩

/-- Settles O29: the poll of CALRDY (`performed_hsPollBit`), then `HsTimeout` or `Performed.hsSucceed`. -/
theorem hs14EndsTheHandshake : Obligations.Hs14EndsTheHandshake := by
  refine ⟨rfl, fun s hw => ?_⟩
  obtain ⟨vs, hran, hlast, hperf⟩ :=
    performed_hsPollBit s s.c.aGpin s.c.calrdyBit true (us := Config.hsT14Us) (n := 2000) rfl (by decide)
  refine ⟨_, vs, _, rfl, hran, fun hno => ?_, fun hok => ?_⟩
  · rw [if_neg (Bool.eq_false_iff.mp hno)]
    exact ⟨hlast, hperf.hsTimeout .step14⟩
  · rw [if_pos hok]
    exact hperf.hsSucceed rfl ((Transacted.pollBit s _ _ _ _).wf hw)

/-- Settles O30: the bus traffic is `HandshakeTraffic`, the registers those of the rows of `RegsStep`. -/
theorem handshakeTouchesOnlyTheHandshakeSet : Obligations.HandshakeTouchesOnlyTheHandshakeSet := by
  intro i s t hi h
  obtain ⟨-, -, ⟨es, hes, hon⟩, hframe⟩ := HandshakeTraffic.of_exec hi h
  exact ⟨⟨es, hes, busAddrs_onHandshakeSet hon, writeAddrs_onHandshakeSet hon⟩, hframe,
    (opStep_of_exec h).regs.handshake hi⟩

end Sys2Proof.Machine
end

section
/-! SUPPORT. The retry controller and the boot flow (`42_retry_controller.md` R151 to R157): what each decision makes of the
block, and the effects of the two operations that read a register. -/

namespace Sys2Proof.Machine

/-! ## Decisions -/

/-- The decision of `RC_GATE` leaves the inputs alone. -/
@[simp] theorem State.gateOn_inp (s : State) (v : Word) : (s.gateOn v).inp = s.inp := by
  unfold State.gateOn
  split <;> simp

/-- The decision of `RC_STATPOLL` leaves the Register Space alone. -/
@[simp] theorem State.statpollOn_space (s : State) (v : Word) : (s.statpollOn v).space = s.space := by
  unfold State.statpollOn
  dsimp only
  split
  · simp
  · split <;> simp

/-- `PJ` at its limit of 10 (R154), as a number and on its four bits. -/
theorem toNat_eq_maxStatusPolls {n : BitVec 4} : n.toNat = Config.maxStatusPolls ↔ n = 10 :=
  BitVec.toNat_inj (y := 10#4)

/-! ## Effects -/

/-- A bus read after an effect (R101). -/
theorem Performed.busRead {s t : State} {e : Effect} (h : Performed s t e) (a : Addr) :
    Performed s (t.busRead a).2 { e with events := e.events ++ [.busRead a (t.busRead a).1] } := by
  have hread := t.performed_busRead a
  rw [h.effect_eq] at hread
  simpa using h.trans hread (t.busOnly_busRead a).rst

/-- The decision of `RC_GATE` after an effect (R151). -/
theorem Performed.gateOn {s t : State} {e : Effect} (h : Performed s t e) (v : Word) :
    Performed s (t.gateOn v)
      { e with
        regs := if v = s.c.erratumId then { e.regs with att := 0, calok := false, seqOp := 0x4100 }
          else { e.regs with rcrc := 0, seqOp := 0x4600 } } := by
  have hc : t.c = s.c := congrArg Cfg.data h.cfg
  rw [State.gateOn, hc, h.regs]
  by_cases hv : v = s.c.erratumId
  · rw [if_neg (not_not_intro hv), if_pos hv]
    exact (h.setRegs _).goto .rcAttempt rfl
  · rw [if_pos hv, if_neg hv]
    exact (h.setRegs _).goto .bootReport rfl

/-- The decision of `RC_STATPOLL` after an effect (R154): the bit read comes before the count. -/
theorem Performed.statpollOn {s t : State} {e : Effect} (h : Performed s t e) (v : Word) :
    Performed s (t.statpollOn v)
      { e with
        regs :=
          if bit v s.c.calstatBit = true then { e.regs with pj := e.regs.pj + 1, calok := true, seqOp := 0x4500 }
          else if e.regs.pj + 1 = 10 then { e.regs with pj := e.regs.pj + 1, seqOp := 0x4400 }
          else { e.regs with pj := e.regs.pj + 1, seqOp := 0x4300 } } := by
  have hc : t.c = s.c := congrArg Cfg.data h.cfg
  have hcounted := h.setRegs { e.regs with pj := e.regs.pj + 1 }
  simp only [State.statpollOn, hc, h.regs, toNat_eq_maxStatusPolls]
  split
  · exact (hcounted.setRegs _).goto .rcFinish rfl
  · split
    · exact hcounted.goto .rcRetry rfl
    · exact hcounted.goto .rcStatpoll rfl

/-! ## Operations without bus transactions -/

section
variable {s : State}

theorem exec_rcAttempt_remaining (h : s.regs.att.toNat < 3) :
    exec .rcAttempt s = .next { s with regs := { s.regs with pj := 0, seqOp := 0x2100 } } :=
  congrArg Host.Outcome.next (if_pos h)

theorem exec_rcAttempt_spent (h : ¬ s.regs.att.toNat < 3) :
    exec .rcAttempt s = .next { s with regs := { s.regs with seqOp := 0x4500 } } :=
  congrArg Host.Outcome.next (if_neg h)

theorem exec_rcFinish_calibrated (h : s.regs.calok = true) :
    exec .rcFinish s = .next { s with regs := { s.regs with rcrc := 0, seqOp := 0x4600 } } :=
  congrArg Host.Outcome.next (if_pos h)

/-- `CalExhausted` (R261) prints and makes `RCRC` −1. -/
theorem exec_rcFinish_exhausted (h : s.regs.calok = false) :
    exec .rcFinish s = .next { s with
      regs := { s.regs with rcrc := 0xFFFFFFFF, seqOp := 0x4600 }
      out := { s.out with
        console := s.out.console ++ messageBytes 2 0
        history := .print (messageBytes 2 0) :: s.out.history } } :=
  congrArg Host.Outcome.next (if_neg (Bool.eq_false_iff.mp h))

theorem exec_bootReport_success (h : s.regs.rcrc = 0) :
    exec .bootReport s = .next { s with
      regs := { s.regs with seqOp := 0x6000 }
      out := { s.out with
        console := s.out.console ++ messageBytes 4 0
        history := .print (messageBytes 4 0) :: s.out.history } } :=
  congrArg Host.Outcome.next (if_pos h)

/-- The failure message comes before the halt with cause 1 (R157, R243). -/
theorem exec_bootReport_failure (h : s.regs.rcrc ≠ 0) :
    exec .bootReport s = .next { s with
      regs := { s.regs with halted := true, haltCause := .calExhaust, seqOp := 0xE300 }
      out := { s.out with
        console := s.out.console ++ messageBytes 3 0
        history := .halt .calExhaust :: .print (messageBytes 3 0) :: s.out.history } } :=
  congrArg Host.Outcome.next (if_neg h)

end

end Sys2Proof.Machine
end

section
/-! CERTIFICATES. The statements of `42_retry_controller.md`: the retry controller and the boot flow. -/

namespace Sys2Proof.Machine

/-- Settles O31: one bus read (`performed_busRead`), then the decision on its value (`Performed.gateOn`). -/
theorem gateComparesTheWholeSiliconId : Obligations.GateComparesTheWholeSiliconId := by
  refine ⟨rfl, fun s => ⟨_, _, rfl, (s.performed_busRead s.c.aSiliconid).gateOn _, fun hr ho => ?_⟩⟩
  have hal : aligned s.c.aSiliconid = true := cfg_addr_aligned s.cfg (by simp [CfgData.otherAddrs])
  rw [State.gateOn_inp] at hr
  exact s.envPoint_readWord ((s.busOnly_busRead s.c.aSiliconid).rst hr) hal ho

/-- Settles O33: the delay and one bus read, then the decision on its value (`Performed.statpollOn`). -/
theorem statusPollWaitsReadsAndDecides : Obligations.StatusPollWaitsReadsAndDecides := by
  refine ⟨rfl, fun s => ?_⟩
  have hread := (s.performed_delayMs Config.statusPollDelayMs).busRead s.c.aCalstat
  refine ⟨_, _, rfl, hread.statpollOn _, ?_⟩
  rw [State.statpollOn_space, State.busRead_space, State.busRead_fst]

/-- Settles O32: one equation for each path of an operation. -/
theorem retryControllerDecisions : Obligations.RetryControllerDecisions := by
  refine fun s => ⟨?_, rfl, rfl, exec_rcFinish_calibrated, exec_rcFinish_exhausted, exec_bootReport_success,
    exec_bootReport_failure⟩
  by_cases h : s.regs.att.toNat < 3
  · rw [exec_rcAttempt_remaining h, if_pos h]
  · rw [exec_rcAttempt_spent h, if_neg h]

end Sys2Proof.Machine
end

section
/-! SUPPORT. The timing configurator (`43_timing_configurator.md` R170 to R186): the value of an extracted field, the reads of
`TC_LOAD`, the geometry lookup, the field updates of the scheduler registers, the derived values and the DRAM size. -/

namespace Sys2Proof.Machine

/-! ## The raw fields (R171) -/

/-- The number an extracted field denotes (R96): the register's bits from `lsb` on, `width` of them. -/
theorem extract_toNat (f : FieldLoc) (v : Word) : (extract f v).toNat = v.toNat / 2 ^ f.lsb % 2 ^ f.width := by
  apply Nat.eq_of_testBit_eq
  intro j
  rw [BitVec.testBit_toNat, Nat.testBit_mod_two_pow, Nat.testBit_div_two_pow, BitVec.testBit_toNat]
  by_cases hj : j < 32
  · rw [getLsbD_extract f v hj, Nat.add_comm]
  · rw [BitVec.getLsbD_of_ge _ _ (by omega), BitVec.getLsbD_of_ge v _ (by omega), Bool.and_false]

/-- The effect of doing nothing, done. -/
theorem State.performed_none (s : State) : Performed s s s.effect where
  cfg := rfl
  regs := rfl
  unit := rfl
  console := (List.append_nil _).symm
  envVar := rfl
  board := fun _ => rfl
  trace := fun _ => (List.append_nil _).symm
  frame := fun _ _ _ _ => rfl

/-- One read of `TC_LOAD` after an effect: the transaction, and the field latched from the value read. -/
theorem Performed.loadRaw {s t : State} {e : Effect} (h : Performed s t e) (f : RawField) :
    ∃ v, Performed s (t.loadRaw f)
      { e with
        regs := { e.regs with raw := rawSet e.regs.raw f (extract (rawGet s.c.raw f) v) }
        events := e.events ++ [.busRead (rawGet s.c.raw f).addr v] } := by
  have hc : t.c = s.c := congrArg Cfg.data h.cfg
  have hread := h.busRead (rawGet t.c.raw f).addr
  refine ⟨(t.busRead (rawGet t.c.raw f).addr).1, ?_⟩
  rw [← hc, ← hread.regs]
  exact hread.setRegs _

/-- The reads of the fields `fs` after an effect: one transaction for each field in that order, `vs` the values read; the latch
of each field of `fs` is taken from its value, and the other latches stay. -/
theorem Performed.loadRaws {s t : State} {e : Effect} (h : Performed s t e) {fs : List RawField} (hfs : fs.Nodup) :
    ∃ vs raw : RawTable Word, Performed s (fs.foldl State.loadRaw t)
      { e with
        regs := { e.regs with raw := raw }
        events := e.events ++ fs.map fun f => .busRead (rawGet s.c.raw f).addr (rawGet vs f) } ∧
      (∀ f ∈ fs, rawGet raw f = extract (rawGet s.c.raw f) (rawGet vs f)) ∧
      ∀ f ∉ fs, rawGet raw f = rawGet e.regs.raw f := by
  induction fs generalizing t e with
  | nil => exact ⟨e.regs.raw, e.regs.raw, by simpa using h, by simp, by simp⟩
  | cons f fs ih =>
    obtain ⟨hf, hfs⟩ := List.nodup_cons.mp hfs
    obtain ⟨v, hload⟩ := h.loadRaw f
    obtain ⟨vs, raw, hperf, hin, hout⟩ := ih hload hfs
    have hvs : ∀ g ∈ fs, rawGet (rawSet vs f v) g = rawGet vs g := fun g hg => by
      rw [rawGet_rawSet, if_neg (ne_of_mem_of_not_mem hg hf)]
    have hvf : rawGet (rawSet vs f v) f = v := by rw [rawGet_rawSet, if_pos rfl]
    refine ⟨rawSet vs f v, raw, ?_, fun g hg => ?_, fun g hg => ?_⟩
    · rw [List.map_cons, hvf, List.map_congr_left fun g hg => by rw [hvs g hg]]
      simpa using hperf
    · rcases List.mem_cons.mp hg with rfl | hg
      · rw [hout g hf, rawGet_rawSet, if_pos rfl, hvf]
      · rw [hin g hg, hvs g hg]
    · obtain ⟨hgf, hg⟩ := not_or.mp (mt List.mem_cons.mpr hg)
      rw [hout g hg, rawGet_rawSet, if_neg hgf]

theorem rawFieldOrder_nodup : rawFieldOrder.Nodup := by decide

theorem mem_rawFieldOrder (f : RawField) : f ∈ rawFieldOrder := by cases f <;> decide

/-! ## The geometry lookup (R186) -/

theorem geomLookup_of_no_match {k : GeomKey} {table : List (GeomKey × Word)} (h : ∀ p ∈ table, p.1 ≠ k) :
    geomLookup k table = 0 := by
  induction table with
  | nil => rfl
  | cons p rest ih =>
    obtain ⟨hp, hrest⟩ := List.forall_mem_cons.mp h
    rw [geomLookup, if_neg hp, ih hrest]

theorem geomLookup_first_match {k : GeomKey} {before : List (GeomKey × Word)} (h : ∀ p ∈ before, p.1 ≠ k)
    (idx : Word) (after : List (GeomKey × Word)) : geomLookup k (before ++ (k, idx) :: after) = idx := by
  induction before with
  | nil => exact if_pos rfl
  | cons p rest ih =>
    obtain ⟨hp, hrest⟩ := List.forall_mem_cons.mp h
    rw [List.cons_append, geomLookup, if_neg hp, ih hrest]

/-! ## Field updates of the scheduler registers (R107) -/

/-- The register of every scheduler output field is aligned (R9 (a)). -/
theorem cfg_outField_aligned (c : Cfg) {f : FieldLoc} (hf : f ∈ c.data.out.toList) : aligned f.addr = true := by
  have haddr : f.addr ∈ c.data.out.toList.map FieldLoc.addr := List.mem_map_of_mem hf
  refine cfg_addr_aligned c (List.mem_append_right _ ?_)
  simp only [CfgData.otherAddrs, List.mem_append]
  tauto

/-- An effect after a write of the block's registers is one of the state before it, for no part of an effect is relative to
them. -/
theorem Performed.of_setRegs {s t : State} {r : Regs} {e : Effect} (h : Performed { s with regs := r } t e) :
    Performed s t e where
  cfg := h.cfg
  regs := h.regs
  unit := h.unit
  console := h.console
  envVar := h.envVar
  board := h.board
  trace := h.trace
  frame := h.frame

/-- The working registers written, then a scheduler field updated, from which the sequencer goes on. -/
theorem setRegs_wrField_performed {s : State} (hw : s.space.wf = true) {f : FieldLoc} (hf : f ∈ s.c.out.toList) (v : Word)
    (r : Regs) {j : Instr} {w : OpWord} (hj : encode j = w) :
    RmwPerformed s ((State.wrField { s with regs := r } f v).goto j) f.addr (fun x => insertField f x v)
      { s.effect with regs := { r with seqOp := w } } := by
  have hrmw := State.rmwPerformed { s with regs := r } (fun x => insertField f x v) hw (cfg_outField_aligned s.cfg hf)
  obtain ⟨u, hperf, hreg⟩ := hrmw.goto j hj
  exact ⟨u, hperf.of_setRegs, hreg⟩

/-- An operation that only updates a scheduler field (R185). -/
theorem fieldStep_of_wrField {s : State} (hw : s.space.wf = true) {f : FieldLoc} (hf : f ∈ s.c.out.toList) {v : Word}
    {i j : Instr} (hi : exec i s = .next ((s.wrField f v).goto j)) {w : OpWord} (hj : encode j = w) : FieldStep i f v w s :=
  ⟨_, hi, setRegs_wrField_performed hw hf v s.regs hj⟩

/-! ## The choice of `TC_GEOM` (R172) -/

theorem State.applyGeom_zero (s : State) : s.applyGeom 0 = { s with regs := { s.regs with geomidx := 0 } } := rfl

theorem State.applyGeom_nonzero (s : State) {idx : Word} (h : idx ≠ 0) :
    s.applyGeom idx = State.wrField { s with regs := { s.regs with geomidx := idx } } s.c.out.ddrconf idx := if_pos h

/-! ## Derived values (R173, R174) -/

theorem rd2missValue_eq (r : RawTable Word) :
    rd2missValue r = r.rd2pch + r.pch2valid + r.act2rdwr - r.burstlen / 4 := by
  rw [rd2missValue, ← BitVec.udiv_twoPow_eq_of_lt (by decide)]
  rfl

theorem wr2missValue_eq (r : RawTable Word) :
    wr2missValue r = (r.rdlat + 2 + 15 + r.burstlen / 2) / 2 - r.rd2wr + r.act2rdwr + r.pch2valid := by
  simp only [wr2missValue, wr2missHalf, ← BitVec.udiv_twoPow_eq_of_lt (show 1 < 32 by decide)]
  rfl

/-! ## The DRAM size (R183) -/

/-- `sext_W` is the balanced remainder (R12). -/
theorem sext_eq_bmod {W v : Nat} (hW : 0 < W) (hv : v < 2 ^ W) : sext W v = Int.bmod v (2 ^ W) := by
  obtain ⟨n, rfl⟩ : ∃ n, W = n + 1 := ⟨W - 1, by omega⟩
  have hmod : (v : Int) % ((2 ^ (n + 1) : Nat) : Int) = v := by exact_mod_cast Nat.mod_eq_of_lt hv
  have hhalf : (((2 ^ (n + 1) : Nat) : Int) + 1) / 2 = ((2 ^ n : Nat) : Int) := by rw [pow_succ]; push_cast; omega
  rw [Int.bmod_def, hmod, hhalf, sext, Nat.add_sub_cancel]
  simp only [Nat.cast_lt]

theorem truncPow_eq_mod (W e : Nat) : truncPow W e = 2 ^ e % 2 ^ W := by
  unfold truncPow
  split
  · rename_i he
    exact (Nat.mod_eq_of_lt (Nat.pow_lt_pow_right (by omega) he)).symm
  · rename_i he
    exact (Nat.mod_eq_zero_of_dvd (Nat.pow_dvd_pow 2 (Nat.le_of_not_lt he))).symm

/-- `SIZE` is 2^e reduced to a signed number of `W` bits. -/
theorem sizeValue_eq_bmod {W : Nat} (hW : 0 < W) (r : RawTable Word) :
    sizeValue W r = Int.bmod (2 ^ sizeExponent r) (2 ^ W) := by
  rw [sizeValue, sext_eq_bmod hW (truncPow_lt _ _), truncPow_eq_mod]
  exact_mod_cast Int.emod_bmod (2 ^ sizeExponent r) (2 ^ W)

/-- Below the sign bit 2^e is itself. -/
theorem sext_truncPow_below {W e : Nat} (h : e < W - 1) : sext W (truncPow W e) = 2 ^ e := by
  have hlt : 2 ^ e < 2 ^ (W - 1) := Nat.pow_lt_pow_right (by omega) h
  rw [truncPow, if_pos (by omega), sext, if_pos hlt, Nat.cast_pow, Nat.cast_ofNat]

/-- The sign bit alone is the least signed number. -/
theorem sext_truncPow_sign {W : Nat} (hW : 0 < W) : sext W (truncPow W (W - 1)) = -2 ^ (W - 1) := by
  obtain ⟨n, rfl⟩ : ∃ n, W = n + 1 := ⟨W - 1, by omega⟩
  rw [truncPow, if_pos (by omega), sext, if_neg (lt_irrefl _), Nat.add_sub_cancel, pow_succ]
  push_cast
  omega

/-- Above the sign bit 2^e has no bit left. -/
theorem sext_truncPow_above {W e : Nat} (h : W ≤ e) : sext W (truncPow W e) = 0 := by
  rw [truncPow, if_neg (by omega), sext, if_pos (Nat.two_pow_pos _), Nat.cast_zero]

theorem fitsSigned_sizeValue {W : Nat} (hW : 0 < W) (r : RawTable Word) : fitsSigned W (sizeValue W r) = true :=
  fitsSigned_sext hW (truncPow_lt _ _)

theorem sizeOutValue_of_pos (W : Nat) (dflt : Int) {size : Int} (h : 0 < size) : sizeOutValue W dflt size = size :=
  if_neg (not_le.mpr h)

theorem sizeOutValue_of_nonpos {W : Nat} {dflt size : Int} (h : size ≤ 0) (hfit : fitsSigned W dflt = true) :
    sizeOutValue W dflt size = dflt :=
  (if_pos h).trans (if_pos hfit)

end Sys2Proof.Machine
end

section
/-! CERTIFICATES. The statements of `43_timing_configurator.md`: the timing configurator and the DRAM size. -/

namespace Sys2Proof.Machine

/-- Settles O34: the reads of all raw fields in the order of table T4 (`Performed.loadRaws`), each latch a field of the value
read (`extract_toNat`). -/
theorem loadLatchesEveryRawField : Obligations.LoadLatchesEveryRawField := by
  refine ⟨rfl, fun s => ?_⟩
  obtain ⟨vs, raw, hperf, hlatch, -⟩ := s.performed_none.loadRaws rawFieldOrder_nodup
  refine ⟨_, vs, raw, rfl, hperf.goto .tcGeom rfl, fun f => ?_⟩
  rw [hlatch f (mem_rawFieldOrder f), extract_toNat]

/-- Settles O35, by the two cases of the lookup. -/
theorem geometryLookupTakesTheFirstMatch : Obligations.GeometryLookupTakesTheFirstMatch :=
  fun _ _ => ⟨geomLookup_of_no_match, fun _ after idx htable hbefore => htable ▸ geomLookup_first_match hbefore idx after⟩

/-- Settles O36: index 0 only latches, any other index is a field update. -/
theorem geometrySelectsTheConfiguration : Obligations.GeometrySelectsTheConfiguration := by
  refine ⟨rfl, fun s idx hw hidx => ?_⟩
  have hexec : exec .tcGeom s = .next ((s.applyGeom idx).goto .tcRd2miss) := hidx ▸ rfl
  refine ⟨fun hz => ?_, fun hnz => ⟨_, hexec, ?_⟩⟩
  · rw [hexec, hz, State.applyGeom_zero]
    rfl
  · rw [State.applyGeom_nonzero s hnz]
    exact setRegs_wrField_performed hw (by simp [OutTable.toList]) idx _ rfl

/-- Settles O37: each value as R173 and R174 write it, latched whole and then written to its field. -/
theorem derivedTimingValues : Obligations.DerivedTimingValues := by
  refine ⟨rfl, rfl, fun s v h w hwf hv hh hw => ?_⟩
  have hrd : v = rd2missValue s.regs.raw := hv.trans (rd2missValue_eq _).symm
  have hwr : w = wr2missValue s.regs.raw := by rw [hw, hh, wr2missValue_eq]
  subst hrd hwr
  exact ⟨⟨_, rfl, setRegs_wrField_performed hwf (by simp [OutTable.toList]) _ _ rfl⟩,
    ⟨_, rfl, setRegs_wrField_performed hwf (by simp [OutTable.toList]) _ _ rfl⟩⟩

/-- Settles O38: eight field updates (`fieldStep_of_wrField`). -/
theorem copiedTimingFields : Obligations.CopiedTimingFields := by
  refine ⟨rfl, rfl, rfl, rfl, rfl, rfl, rfl, rfl, fun s hw => ?_⟩
  refine ⟨?_, ?_, ?_, ?_, ?_, ?_, ?_, ?_⟩ <;> exact fieldStep_of_wrField hw (by simp [OutTable.toList]) rfl rfl

/-- Settles O40: `SIZE` is the balanced remainder (`sizeValue_eq_bmod`) with its three cases of the exponent, `SIZE_OUT` its
default substitution. -/
theorem sizeIsSignedAndDefaulted : Obligations.SizeIsSignedAndDefaulted := by
  refine ⟨rfl, fun s e W size he hW hsize => ?_⟩
  have hpos : 0 < W := hW ▸ SizeWidth.bits_pos _
  have hexp : sizeExponent s.regs.raw = e := he.symm
  have hval : size = sizeValue W s.regs.raw := by rw [hsize, sizeValue_eq_bmod hpos, hexp]
  have hcases : size = sext W (truncPow W e) := by rw [hval, sizeValue, hexp]
  have hfit : fitsSigned W size = true := hval ▸ fitsSigned_sizeValue hpos _
  refine ⟨⟨sizeOutValue W s.c.defaultDramSize size, ?_, sizeOutValue_of_pos _ _, fun hneg hlo hhi => ?_,
    fitsSigned_iff.mp (fitsSigned_sizeOutValue hpos _ hfit)⟩, fun hlt => ?_, fun heq => ?_, fun hge => ?_⟩
  · rw [hval, hW]
    rfl
  · exact sizeOutValue_of_nonpos hneg (fitsSigned_iff.mpr ⟨hlo, hhi⟩)
  · rw [hcases, sext_truncPow_below hlt]
  · rw [hcases, heq, sext_truncPow_sign hpos]
  · rw [hcases, sext_truncPow_above hge]

end Sys2Proof.Machine
end

section
/-! SUPPORT. The firewall configurator (`44_firewall.md` R201 to R206): the lookup of a region, the effects of a write and of a write
followed by a bit set, the registers it programs in a record, and how the enabled entries grow by one entry. -/

namespace Sys2Proof.Machine

/-! ## The lookup (R201) -/

theorem boardFind_of_absent {name : RegionName} {es : List (RegionName × List Word)} (h : ∀ p ∈ es, p.1 ≠ name) :
    boardFind name es = none := by
  induction es with
  | nil => rfl
  | cons p rest ih =>
    obtain ⟨hp, hrest⟩ := List.forall_mem_cons.mp h
    rw [boardFind, if_neg hp, ih hrest]

theorem boardFind_first {name : RegionName} {before : List (RegionName × List Word)} (h : ∀ p ∈ before, p.1 ≠ name)
    (vals : List Word) (after : List (RegionName × List Word)) :
    boardFind name (before ++ (name, vals) :: after) = some vals := by
  induction before with
  | nil => exact if_pos rfl
  | cons p rest ih =>
    obtain ⟨hp, hrest⟩ := List.forall_mem_cons.mp h
    rw [List.cons_append, boardFind, if_neg hp, ih hrest]

theorem boardLookup_of_not_found {name : RegionName} {es : List (RegionName × List Word)} (h : boardFind name es = none) :
    boardLookup (.regions es) name = none := by
  simp only [boardLookup, h]

theorem boardLookup_of_pair {name : RegionName} {es : List (RegionName × List Word)} {st fin : Word}
    (h : boardFind name es = some [st, fin]) : boardLookup (.regions es) name = some (st, fin) := by
  simp only [boardLookup, h]

/-- A value that is not a pair counts as absent. -/
theorem boardLookup_of_not_pair {name : RegionName} {es : List (RegionName × List Word)} {vals : List Word}
    (h : boardFind name es = some vals) (hlen : vals.length ≠ 2) : boardLookup (.regions es) name = none := by
  simp only [boardLookup, h]
  match vals, hlen with
  | [], _ | [_], _ | _ :: _ :: _ :: _, _ => rfl
  | [_, _], hlen => exact absurd rfl hlen

/-! ## Effects -/

/-- No byte of an aligned register belongs to another one. -/
theorem byteOfReg_byteAddr_of_ne {a b : Addr} (ha : aligned a = true) (hb : aligned b = true) (h : a ≠ b) {k : Nat}
    (hk : k < 4) : byteOfReg b (byteAddr a k) = false := by
  have hne (j : Nat) (hj : j < 4) : byteAddr b j ≠ byteAddr a k := (Memory.byteAddr_ne ha hb h hk hj).symm
  simp [byteOfReg, hne]

/-- An effect leaves a HOST-owned register that it does not store to as it was, unless `rst` rose (R68). -/
theorem Performed.readWord_of_not_stored {s t : State} {e : Effect} (h : Performed s t e) (hr : t.inp.rst = false) {a : Addr}
    (ha : aligned a = true) (ho : a ∉ envAddrs s.c) (hs : ∀ b ∈ e.stored, aligned b = true ∧ a ≠ b) :
    t.space.readWord a = s.space.readWord a :=
  Memory.readWord_congr fun _ hk => h.frame hr _ (cfg_envByte_of_not_mem s.cfg ha ho hk) fun b hb =>
    byteOfReg_byteAddr_of_ne ha (hs b hb).1 (hs b hb).2 hk

/-- A bus write after an effect (R102). -/
theorem Performed.busWrite {s t : State} {e : Effect} (h : Performed s t e) (a : Addr) (v : Word) :
    Performed s (t.busWrite a v) { e with events := e.events ++ [.busWrite a v], stored := e.stored ++ [a] } := by
  have hwrite := t.performed_busWrite a v
  rw [h.effect_eq] at hwrite
  simpa using h.trans hwrite (t.busOnly_busWrite a v).rst

namespace State

variable {s : State} {a b : Addr} {v : Word}

/-- Two writes of one value during which `rst` did not rise leave it in each of the two registers that is HOST-owned, also where
they are one register. -/
theorem busWrite_twice_readWord (hw : s.space.wf = true) (ha : aligned a = true) (hb : aligned b = true)
    (hr : ((s.busWrite a v).busWrite b v).inp.rst = false) :
    (a ∉ envAddrs s.c → ((s.busWrite a v).busWrite b v).space.readWord a = v) ∧
    (b ∉ envAddrs s.c → ((s.busWrite a v).busWrite b v).space.readWord b = v) := by
  have hc : (s.busWrite a v).c = s.c := s.busWrite_c a v
  have hra : (s.busWrite a v).inp.rst = false := (busOnly_busWrite _ b v).rst hr
  have hsecond (ho : b ∉ envAddrs s.c) : ((s.busWrite a v).busWrite b v).space.readWord b = v :=
    busWrite_readWord_host ((s.busOnly_busWrite a v).wf hw) hb (hc.symm ▸ ho) hr
  refine ⟨fun ho => ?_, hsecond⟩
  by_cases hab : a = b
  · exact hab ▸ hsecond (hab ▸ ho)
  · have hkeep := (performed_busWrite (s.busWrite a v) b v).readWord_of_not_stored hr ha (hc.symm ▸ ho)
      (by simpa using ⟨hb, hab⟩)
    exact hkeep.trans (busWrite_readWord_host hw ha ho hra)

/-- A write of one register and then a bit set in another: `u` is the value of the read, and where `rst` did not rise each of the
two registers that is HOST-owned holds its new value. -/
theorem busWrite_setBit_performed (hw : s.space.wf = true) (ha : aligned a = true) (hb : aligned b = true) (hab : a ≠ b)
    (w : Word) (i : BitNo) :
    ∃ u, Performed s ((s.busWrite a w).setBit b i)
        { s.effect with
          events := [.busWrite a w, .busRead b u, .busWrite b (withBitSet u i)]
          stored := [a, b] } ∧
      (((s.busWrite a w).setBit b i).inp.rst = false →
        (a ∉ envAddrs s.c → ((s.busWrite a w).setBit b i).space.readWord a = w) ∧
        (b ∉ envAddrs s.c → u = s.space.readWord b ∧
          ((s.busWrite a w).setBit b i).space.readWord b = withBitSet (s.space.readWord b) i)) := by
  have hc : (s.busWrite a w).c = s.c := s.busWrite_c a w
  have hwrite := s.performed_busWrite a w
  have hrmw := (s.busWrite a w).rmwPerformed (fun v => withBitSet v i) ((s.busOnly_busWrite a w).wf hw) hb
  rw [← setBit_eq, hwrite.effect_eq] at hrmw
  have hhost := hrmw.host
  obtain ⟨u, hset, hvals⟩ := hrmw
  have hrst := ((s.busWrite a w).busOnly_setBit b i).rst
  refine ⟨u, by simpa using hwrite.trans hset hrst, fun hr => ⟨fun ho => ?_, fun ho => ?_⟩⟩
  · have hkeep := hset.readWord_of_not_stored hr ha (hc.symm ▸ ho) (by simpa using ⟨hb, hab⟩)
    exact hkeep.trans (busWrite_readWord_host hw ha ho (hrst hr))
  · have hkeep : (s.busWrite a w).space.readWord b = s.space.readWord b :=
      hwrite.readWord_of_not_stored (hrst hr) hb ho (by simpa using ⟨ha, hab.symm⟩)
    have hread : u = (s.busWrite a w).space.readWord b := (hvals hr).1 (hc.symm ▸ ho)
    obtain ⟨-, hreg⟩ := hhost (hc.symm ▸ ho)
    exact ⟨hread.trans hkeep, (hreg hr).trans (congrArg (withBitSet · i) hkeep)⟩

end State

/-! ## The firewall's registers in a record (R9 (a), (f)) -/

/-- The registers that the firewall configurator programs: the two master-enable registers and the configuration register of each
entry. -/
def firewallAddrs (c : CfgData) : List Addr := [c.aFwen0, c.aFwen1] ++ c.fwTable.map FwEntry.aCfg

theorem fwen0_mem_firewallAddrs (c : CfgData) : c.aFwen0 ∈ firewallAddrs c := by simp [firewallAddrs]

theorem fwen1_mem_firewallAddrs (c : CfgData) : c.aFwen1 ∈ firewallAddrs c := by simp [firewallAddrs]

theorem firewallAddrs_aligned (c : Cfg) {a : Addr} (h : a ∈ firewallAddrs c.data) : aligned a = true := by
  refine cfg_addr_aligned c (List.mem_append_right _ ?_)
  simp only [firewallAddrs, CfgData.otherAddrs, List.mem_append] at h ⊢
  tauto

/-- In a separated record the environment has a right to none of them (R68). -/
theorem firewallAddrs_not_env {c : CfgData} (hs : separated c = true) {a : Addr} (h : a ∈ firewallAddrs c) :
    a ∉ envAddrs c := by
  refine hostSingle_not_env hs ?_
  simp only [firewallAddrs, hostSingles, List.mem_append, List.mem_cons, List.not_mem_nil, or_false] at h ⊢
  tauto

/-- The clauses of R9 (f) on the firewall table that its registers depend on. -/
theorem cfg_clauseF (c : Cfg) : c.data.clauseF1 = true ∧ c.data.clauseF3 = true := by
  have hwf := c.wf
  simp only [CfgData.wellFormed, Bool.and_eq_true] at hwf
  tauto

theorem cfg_fwTable_length (c : Cfg) : c.data.fwTable.length = 24 := by
  have hf := (cfg_clauseF c).1
  simp only [CfgData.clauseF1, Bool.and_eq_true, beq_iff_eq] at hf
  exact hf.1

theorem cfg_fwTable_nodup (c : Cfg) : (c.data.fwTable.map FwEntry.aCfg).Nodup := by
  have hf := (cfg_clauseF c).2
  simp only [CfgData.clauseF3, Bool.and_eq_true, decide_eq_true_eq] at hf
  exact hf.1

section
variable (c : Cfg) {E : FwEntry} (hE : E ∈ c.data.fwTable)
include hE

/-- Each entry is enabled in FWEN0 or FWEN1. -/
theorem fwEntry_enable : E.aEn ∈ [c.data.aFwen0, c.data.aFwen1] := by
  have hf := (cfg_clauseF c).1
  simp only [CfgData.clauseF1, Bool.and_eq_true, List.all_eq_true, Bool.or_eq_true, beq_iff_eq] at hf
  simpa using hf.2 E hE

theorem fwEntry_enable_mem : E.aEn ∈ firewallAddrs c.data := List.mem_append_left _ (fwEntry_enable c hE)

theorem fwEntry_cfg_mem : E.aCfg ∈ firewallAddrs c.data := List.mem_append_right _ (List.mem_map_of_mem hE)

/-- The configuration register of an entry is no master-enable register. -/
theorem fwEntry_cfg_ne {en : Addr} (hen : en ∈ [c.data.aFwen0, c.data.aFwen1]) : E.aCfg ≠ en := by
  have hf := (cfg_clauseF c).2
  simp only [CfgData.clauseF3, Bool.and_eq_true, List.all_eq_true, bne_iff_ne] at hf
  obtain ⟨h0, h1⟩ := hf.2 E hE
  rcases List.mem_pair.mp hen with rfl | rfl
  · exact h0
  · exact h1

end

/-! ## Closing both blocks (R202) -/

/-- After the two writes of `FW_DENY` each master-enable register that is HOST-owned reads 0. -/
theorem deny_readWord {s : State} (hw : s.space.wf = true)
    (hr : ((s.busWrite s.c.aFwen0 0).busWrite s.c.aFwen1 0).inp.rst = false) :
    (s.c.aFwen0 ∉ envAddrs s.c → ((s.busWrite s.c.aFwen0 0).busWrite s.c.aFwen1 0).space.readWord s.c.aFwen0 = 0) ∧
    (s.c.aFwen1 ∉ envAddrs s.c → ((s.busWrite s.c.aFwen0 0).busWrite s.c.aFwen1 0).space.readWord s.c.aFwen1 = 0) :=
  State.busWrite_twice_readWord hw (firewallAddrs_aligned s.cfg (fwen0_mem_firewallAddrs s.c))
    (firewallAddrs_aligned s.cfg (fwen1_mem_firewallAddrs s.c)) hr

/-! ## The status (R203, R205) -/

section
variable {s : State}

theorem exec_fwCheck_noNode (h : s.board = .noNode) :
    exec .fwCheck s = .next { s with regs := { s.regs with fwrc := 2, seqOp := 0x8300 } } := by
  cases s
  cases h
  rfl

theorem exec_fwCheck_noChild (h : s.board = .noChild) :
    exec .fwCheck s = .next { s with regs := { s.regs with fwrc := 1, seqOp := 0x8300 } } := by
  cases s
  cases h
  rfl

theorem exec_fwCheck_regions {m : List (RegionName × List Word)} (h : s.board = .regions m) :
    exec .fwCheck s = .next { s with regs := { s.regs with fwrc := 0, seqOp := 0x8200 } } := by
  cases s
  cases h
  rfl

theorem exec_fwReport_success (h : s.regs.fwrc = 0) :
    exec .fwReport s = .next { s with regs := { s.regs with seqOp := 0xE100 } } :=
  congrArg (fun u => Host.Outcome.next (State.goto u .arm)) (if_neg (not_not_intro h))

theorem exec_fwReport_failure (h : s.regs.fwrc ≠ 0) :
    exec .fwReport s = .next { s with
      regs := { s.regs with seqOp := 0xE100 }
      out := { s.out with
        console := s.out.console ++ messageBytes 5 0
        history := .print (messageBytes 5 0) :: s.out.history } } :=
  congrArg (fun u => Host.Outcome.next (State.goto u .arm)) (if_pos h)

/-- `FW_CHECK` writes the block's registers only. -/
theorem fwCheck_setRegs {u : State} (h : exec .fwCheck s = .next u) : ∃ r, u = { s with regs := r } := by
  obtain rfl := Host.Outcome.next.inj h
  split
  · exact ⟨_, rfl⟩
  · exact ⟨_, rfl⟩
  · exact ⟨_, rfl⟩

end

/-! ## Programming one entry (R204) -/

section
variable {s : State} {e : BitVec 8} {E : FwEntry}

/-- `FW_REGION` of an index the table has programs that entry and goes on. -/
theorem exec_fwRegion (he : e.toNat < 24) (hE : s.c.fwTable[e.toNat]? = some E) :
    exec (.fwRegion e) s = .next ((s.programRegion E).goto (afterRegion e)) := by
  have hentry : s.programEntry e.toNat = s.programRegion E := by simp only [State.programEntry, hE]
  rw [← hentry]
  exact if_pos he

theorem exec_fwRegion_refused (he : 24 ≤ e.toNat) : exec (.fwRegion e) s = .refused .reservedArgument :=
  if_neg (Nat.not_lt.mpr he)

/-- Every index below 24 has its entry (R9 (f)). -/
theorem exists_fwEntry (c : Cfg) {n : Nat} (h : n < 24) : ∃ E, c.data.fwTable[n]? = some E :=
  ⟨_, List.getElem?_eq_getElem (cfg_fwTable_length c ▸ h)⟩

theorem encode_afterRegion_toNat (e : BitVec 8) (he : e.toNat < 24) :
    (encode (afterRegion e)).toNat = if e.toNat < 23 then 0x8200 + (e.toNat + 1) else 0x8300 := by
  unfold afterRegion
  split
  · rename_i hlt
    have hnext : (e + 1).toNat = e.toNat + 1 := by bv_omega
    rw [encode_toNat]
    simp only [Instr.fields, hnext]
  · rfl

theorem State.programRegion_absent (h : boardLookup s.board E.name = none) : s.programRegion E = s := by
  simp only [State.programRegion, h]

theorem State.programRegion_present {st fin : Word} (h : boardLookup s.board E.name = some (st, fin)) :
    s.programRegion E = (s.busWrite E.aCfg (fwWord s.c st fin)).setBit E.aEn E.enBit := by
  simp only [State.programRegion, h]

/-- A present entry is a write of its region word and then a bit set in its enable register (R204). -/
theorem State.programRegion_performed {st fin : Word} (hw : s.space.wf = true) (hE : E ∈ s.c.fwTable)
    (h : boardLookup s.board E.name = some (st, fin)) :
    ∃ u, Performed s (s.programRegion E)
        { s.effect with
          events := [.busWrite E.aCfg (fwWord s.c st fin), .busRead E.aEn u, .busWrite E.aEn (withBitSet u E.enBit)]
          stored := [E.aCfg, E.aEn] } ∧
      ((s.programRegion E).inp.rst = false →
        (E.aCfg ∉ envAddrs s.c → (s.programRegion E).space.readWord E.aCfg = fwWord s.c st fin) ∧
        (E.aEn ∉ envAddrs s.c → u = s.space.readWord E.aEn ∧
          (s.programRegion E).space.readWord E.aEn = withBitSet (s.space.readWord E.aEn) E.enBit)) := by
  rw [State.programRegion_present h]
  exact State.busWrite_setBit_performed hw (firewallAddrs_aligned s.cfg (fwEntry_cfg_mem s.cfg hE))
    (firewallAddrs_aligned s.cfg (fwEntry_enable_mem s.cfg hE)) (fwEntry_cfg_ne s.cfg hE (fwEntry_enable s.cfg hE)) _ _

end

/-! ## The enabled entries (R206) -/

section
variable {s t : State} {n : Nat} {E : FwEntry}

/-- What holds of the visited entries depends on the firewall's registers only, the record and the board configuration being the
same. -/
theorem FirewallUpTo.congr (h : FirewallUpTo n s) (hcfg : t.cfg = s.cfg) (hboard : t.board = s.board)
    (hreads : ∀ a ∈ firewallAddrs s.c, t.space.readWord a = s.space.readWord a) : FirewallUpTo n t := by
  obtain ⟨hbits, hwords⟩ := h
  have hc : t.c = s.c := congrArg Cfg.data hcfg
  unfold FirewallUpTo
  rw [hc, hboard]
  refine ⟨fun en hen b => ?_, fun e he st fin hlook => ?_⟩
  · rw [hreads en (List.mem_append_left _ hen)]
    exact hbits en hen b
  · rw [hreads e.aCfg (fwEntry_cfg_mem s.cfg (List.mem_of_mem_take he))]
    exact hwords e he st fin hlook

/-- With nothing visited, master-enable registers that read 0 are right. -/
theorem firewallUpTo_zero (h : ∀ en ∈ [s.c.aFwen0, s.c.aFwen1], s.space.readWord en = 0) : FirewallUpTo 0 s := by
  refine ⟨fun en hen b => ?_, by simp⟩
  rw [h en hen]
  simp [bit]

/-- One entry more: the enable bits are those of the entries before and its own if it is present, which then holds its word. -/
theorem firewallUpTo_succ_iff (hE : s.c.fwTable[n]? = some E) :
    FirewallUpTo (n + 1) s ↔
      (∀ en ∈ [s.c.aFwen0, s.c.aFwen1], ∀ b : BitNo,
        bit (s.space.readWord en) b = true ↔
          (∃ e ∈ s.c.fwTable.take n, e.aEn = en ∧ e.enBit = b ∧ (boardLookup s.board e.name).isSome = true) ∨
          (E.aEn = en ∧ E.enBit = b ∧ (boardLookup s.board E.name).isSome = true)) ∧
      (∀ e ∈ s.c.fwTable.take n, ∀ st fin, boardLookup s.board e.name = some (st, fin) →
        s.space.readWord e.aCfg = fwWord s.c st fin) ∧
      (∀ st fin, boardLookup s.board E.name = some (st, fin) → s.space.readWord E.aCfg = fwWord s.c st fin) := by
  unfold FirewallUpTo
  simp only [List.take_add_one, hE, Option.toList_some, List.mem_append, List.mem_singleton, or_and_right, exists_or,
    exists_eq_left, or_imp, forall_and, forall_eq]

/-- An absent entry adds nothing. -/
theorem FirewallUpTo.succ_absent (h : FirewallUpTo n s) (hE : s.c.fwTable[n]? = some E)
    (hlook : boardLookup s.board E.name = none) : FirewallUpTo (n + 1) s := by
  rw [firewallUpTo_succ_iff hE, hlook]
  obtain ⟨hbits, hwords⟩ := h
  exact ⟨by simpa using hbits, hwords, by simp⟩

/-- No other entry has the configuration register of the entry with index `n` (R9 (f)). -/
theorem fwEntry_cfg_ne_of_mem_take (c : Cfg) (hE : c.data.fwTable[n]? = some E) {e : FwEntry}
    (he : e ∈ c.data.fwTable.take n) : e.aCfg ≠ E.aCfg := by
  have hnodup := (cfg_fwTable_nodup c).sublist ((List.take_sublist (n + 1) _).map _)
  rw [List.take_add_one, hE, List.map_append] at hnodup
  exact (List.nodup_append.mp hnodup).2.2 _ (List.mem_map_of_mem he) _ (by simp)

/-- A bit of a word with one bit set. -/
theorem bit_withBitSet (v : Word) (i b : BitNo) : bit (withBitSet v i) b = (bit v b || decide (i = b)) := by
  rw [withBitSet, bit_or, bit_bitMask, decide_eq_decide.mpr eq_comm]

/-- A present entry adds its word and its enable bit. -/
theorem FirewallUpTo.succ_present (h : FirewallUpTo n s) (hE : s.c.fwTable[n]? = some E) {st fin : Word}
    (hlook : boardLookup s.board E.name = some (st, fin)) (hcfg : t.cfg = s.cfg) (hboard : t.board = s.board)
    (hword : t.space.readWord E.aCfg = fwWord s.c st fin)
    (hset : t.space.readWord E.aEn = withBitSet (s.space.readWord E.aEn) E.enBit)
    (hother : ∀ a ∈ firewallAddrs s.c, a ≠ E.aCfg → a ≠ E.aEn → t.space.readWord a = s.space.readWord a) :
    FirewallUpTo (n + 1) t := by
  have hc : t.c = s.c := congrArg Cfg.data hcfg
  have hmem : E ∈ s.c.fwTable := List.mem_of_getElem? hE
  obtain ⟨hbits, hwords⟩ := h
  rw [firewallUpTo_succ_iff (E := E) (hc ▸ hE), hc, hboard, hlook]
  refine ⟨fun en hen b => ?_, fun e he st' fin' hlook' => ?_, fun st' fin' heq => ?_⟩
  · rw [← hbits en hen b]
    by_cases hown : en = E.aEn
    · simp [hown, hset, bit_withBitSet]
    · rw [hother en (List.mem_append_left _ hen) (fwEntry_cfg_ne s.cfg hmem hen).symm hown]
      simp [Ne.symm hown]
  · have hetable := List.mem_of_mem_take he
    have hene : e.aCfg ≠ E.aEn := fwEntry_cfg_ne s.cfg hetable (fwEntry_enable s.cfg hmem)
    rw [hother e.aCfg (fwEntry_cfg_mem s.cfg hetable) (fwEntry_cfg_ne_of_mem_take s.cfg hE he) hene]
    exact hwords e he st' fin' hlook'
  · cases heq
    exact hword

/-- Programming the entry with index `n`, if it is present, extends what holds of the entries before it to it. -/
theorem FirewallUpTo.programRegion (h : FirewallUpTo n s) (hw : s.space.wf = true) (hs : separated s.c = true)
    (hE : s.c.fwTable[n]? = some E) (hr : (s.programRegion E).inp.rst = false) :
    FirewallUpTo (n + 1) (s.programRegion E) := by
  have hmem : E ∈ s.c.fwTable := List.mem_of_getElem? hE
  have hcfg := fwEntry_cfg_mem s.cfg hmem
  have hen := fwEntry_enable_mem s.cfg hmem
  cases hlook : boardLookup s.board E.name with
  | none =>
    rw [State.programRegion_absent hlook]
    exact h.succ_absent hE hlook
  | some r =>
    obtain ⟨u, hperf, hreads⟩ := State.programRegion_performed hw hmem hlook
    obtain ⟨hword, hset⟩ := hreads hr
    refine h.succ_present hE hlook hperf.cfg (hperf.board hr) (hword (firewallAddrs_not_env hs hcfg))
      (hset (firewallAddrs_not_env hs hen)).2 fun a ha hacfg haen => ?_
    refine hperf.readWord_of_not_stored hr (firewallAddrs_aligned s.cfg ha) (firewallAddrs_not_env hs ha) ?_
    simpa using ⟨⟨firewallAddrs_aligned s.cfg hcfg, hacfg⟩, firewallAddrs_aligned s.cfg hen, haen⟩

/-! ## The three operations and the end of their step (R206) -/

/-- `FW_DENY` leaves no enable bit. -/
theorem firewallUpTo_zero_of_deny (hw : s.space.wf = true) (hs : separated s.c = true) (h : exec .fwDeny s = .next t)
    (hr : t.inp.rst = false) : FirewallUpTo 0 t := by
  obtain rfl := Host.Outcome.next.inj h
  rw [State.goto_inp] at hr
  obtain ⟨h0, h1⟩ := deny_readWord hw hr
  refine firewallUpTo_zero ?_
  simp only [State.goto_c, State.goto_space, State.busWrite_c]
  simpa using ⟨h0 (firewallAddrs_not_env hs (fwen0_mem_firewallAddrs s.c)),
    h1 (firewallAddrs_not_env hs (fwen1_mem_firewallAddrs s.c))⟩

/-- `FW_CHECK` makes no bus transaction. -/
theorem FirewallUpTo.of_check (h : FirewallUpTo n s) (hu : exec .fwCheck s = .next t) : FirewallUpTo n t := by
  obtain ⟨r, rfl⟩ := fwCheck_setRegs hu
  exact h.congr rfl rfl fun _ _ => rfl

/-- `FW_REGION e` extends what holds of the entries before `e` to it. -/
theorem FirewallUpTo.of_region {e : BitVec 8} (h : FirewallUpTo e.toNat s) (hw : s.space.wf = true)
    (hs : separated s.c = true) (hu : exec (.fwRegion e) s = .next t) (hr : t.inp.rst = false) :
    FirewallUpTo (e.toNat + 1) t := by
  have he : e.toNat < 24 := by
    by_contra hbig
    cases (exec_fwRegion_refused (Nat.not_lt.mp hbig)).symm.trans hu
  obtain ⟨E, hE⟩ := exists_fwEntry s.cfg he
  obtain rfl := Host.Outcome.next.inj ((exec_fwRegion he hE).symm.trans hu)
  exact (h.programRegion hw hs hE hr).congr rfl rfl fun _ _ => rfl

/-- A step that ends with `rst` low ended in one opportunity of the environment, `rst` having been low before it (R290). -/
theorem State.endStep_of_rst_low (hr : s.endStep.inp.rst = false) : s.inp.rst = false ∧ s.endStep = s.envPoint := by
  rcases s.endStep_cases with ⟨hhigh, -⟩ | ⟨-, heq⟩
  · exact absurd (hhigh.symm.trans hr) (by decide)
  · exact ⟨s.rst_of_envPoint (heq ▸ hr), heq⟩

/-- The end of a step keeps what holds of the visited entries, unless `rst` rose (R68). -/
theorem FirewallUpTo.endStep (h : FirewallUpTo n s) (hs : separated s.c = true) (hr : s.endStep.inp.rst = false) :
    FirewallUpTo n s.endStep := by
  obtain ⟨hlow, heq⟩ := State.endStep_of_rst_low hr
  rw [heq]
  exact h.congr s.envPoint_cfg (s.envPoint_board hlow) fun a ha =>
    s.envPoint_readWord hlow (firewallAddrs_aligned s.cfg ha) (firewallAddrs_not_env hs ha)

/-- A step that runs operation `i` from `SEQ.op` establishes what the operation does. -/
theorem firewallUpTo_step {i : Instr} (hs : separated s.c = true) (hrs : s.inp.rst = false) (hstep : step s = .next t)
    (hrt : t.inp.rst = false) (hf : s.fetch = .ok (i, s))
    (hexec : ∀ u, exec i s = .next u → u.inp.rst = false → FirewallUpTo n u) : FirewallUpTo n t := by
  rcases step_next_cases hstep with ⟨hhigh, -⟩ | ⟨-, j, s1, u, hfetch, hu, rfl⟩
  · exact absurd (hhigh.symm.trans hrs) (by decide)
  · obtain ⟨rfl, rfl⟩ : i = j ∧ s = s1 := by simpa [hf] using hfetch
    have hc : u.c = s.c := congrArg Cfg.data (opStep_of_exec hu).cfg
    exact (hexec u hu (State.endStep_of_rst_low hrt).1).endStep (hc.symm ▸ hs) hrt

end

end Sys2Proof.Machine
end

section
/-! CERTIFICATES. The statements of `44_firewall.md`: the firewall configurator. -/

namespace Sys2Proof.Machine

/-- Settles O41: two bus writes (`Performed.busWrite`), of 0 both (`busWrite_twice_readWord`). -/
theorem denyClosesBothBlocks : Obligations.DenyClosesBothBlocks := by
  refine ⟨rfl, fun s hw => ⟨_, rfl, ?_, fun hr => ?_⟩⟩
  · exact ((s.performed_busWrite s.c.aFwen0 0).busWrite s.c.aFwen1 0).goto .fwCheck rfl
  · rw [State.goto_inp] at hr
    rw [State.goto_space]
    exact deny_readWord hw hr

/-- Settles O43: the search that finds nothing, and the one that finds the first entry with the name. -/
theorem boardLookupFindsPairsOnly : Obligations.BoardLookupFindsPairsOnly := fun _ _ after vals =>
  ⟨rfl, rfl, fun h => boardLookup_of_not_found (boardFind_of_absent h), fun h =>
    ⟨fun _ _ hpair => boardLookup_of_pair (hpair ▸ boardFind_first h vals after),
      boardLookup_of_not_pair (boardFind_first h vals after)⟩⟩

/-- Settles O44, by `exec_fwRegion` and the two ways to program an entry. -/
theorem regionIsProgrammedIfPresent : Obligations.RegionIsProgrammedIfPresent := by
  refine fun s e hw => ⟨exec_fwRegion_refused, fun he => ?_⟩
  obtain ⟨E, hE⟩ := exists_fwEntry s.cfg he
  refine ⟨E, encode (afterRegion e), hE, encode_afterRegion_toNat e he, fun habsent => ?_,
    fun st fin word hlook hword => ?_⟩
  · rw [exec_fwRegion he hE, State.programRegion_absent habsent]
    rfl
  · subst hword
    obtain ⟨u, hperf, hreads⟩ := State.programRegion_performed hw (List.mem_of_getElem? hE) hlook
    exact ⟨_, u, exec_fwRegion he hE, hperf.goto _ rfl, hreads⟩

/-- Settles O45: each operation establishes its part (`firewallUpTo_zero_of_deny`, `FirewallUpTo.of_check`, `FirewallUpTo.of_region`),
which the end of the step keeps (`firewallUpTo_step`). -/
theorem firewallEnablesExactlyThePresentEntries : Obligations.FirewallEnablesExactlyThePresentEntries :=
  fun _ _ hw hs hrs hstep hrt =>
    ⟨fun hf => firewallUpTo_step hs hrs hstep hrt hf fun _ => firewallUpTo_zero_of_deny hw hs,
      fun hf h => firewallUpTo_step hs hrs hstep hrt hf fun _ hu _ => h.of_check hu,
      fun _ hf h => firewallUpTo_step hs hrs hstep hrt hf fun _ => h.of_region hw hs⟩

/-- Settles O42, by one equation for each shape of the board configuration and for each status. -/
theorem firewallStatusIsSetAndReported : Obligations.FirewallStatusIsSetAndReported :=
  ⟨rfl, rfl, fun _ => ⟨exec_fwCheck_noNode, exec_fwCheck_noChild, fun _ => exec_fwCheck_regions, exec_fwReport_success,
    exec_fwReport_failure⟩⟩

end Sys2Proof.Machine
end

section
/-! SUPPORT. The ECC interrupt handler (`45_ecc_handler.md` R221 to R226): effects followed by a print, a store of the variable or a
halt, the effects of the handler's operations, and the traffic of any of them. -/

namespace Sys2Proof.Machine

/-! ## Effects -/

/-- A print after an effect (R244). -/
theorem Performed.printMsg {s t : State} {e : Effect} (h : Performed s t e) (m : Nat) (v : Word) :
    Performed s (t.printMsg m v)
      { e with console := e.console ++ messageBytes m v, events := e.events ++ [.print (messageBytes m v)] } := by
  have hsaid : Performed s { t with out := { t.out with console := t.out.console ++ messageBytes m v } }
      { e with console := e.console ++ messageBytes m v } :=
    { h with console := by rw [h.console, List.append_assoc] }
  exact hsaid.emit _

/-- The variable stored after an effect (R245). -/
theorem Performed.setEnv {s t : State} {e : Effect} (h : Performed s t e) (v : Nat) :
    Performed s (t.setEnv v) { e with envVar := some v, events := e.events ++ [.setEnv v] } := by
  have hstored : Performed s { t with out := { t.out with envVar := some v } } { e with envVar := some v } :=
    { h with envVar := rfl }
  exact hstored.emit _

/-- A read whose value is latched into the working registers. -/
theorem Performed.latch {s t : State} {e : Effect} (h : Performed s t e) (a : Addr) (f : Word → Regs → Regs) :
    Performed s { (t.busRead a).2 with regs := f (t.busRead a).1 (t.busRead a).2.regs }
      { e with regs := f (t.busRead a).1 e.regs, events := e.events ++ [.busRead a (t.busRead a).1] } := by
  rw [State.busRead_regs, h.regs]
  exact (h.busRead a).setRegs _

/-- A halt after an effect (R243). -/
theorem Performed.haltWith {s t : State} {e : Effect} (h : Performed s t e) (k : HaltCause) :
    Performed s (t.haltWith k)
      { e with
        regs := { e.regs with halted := true, haltCause := k, seqOp := 0xE300 }
        events := e.events ++ [.halt k] } := by
  rw [State.haltWith, State.setHalted, h.regs]
  exact ((h.setRegs _).emit _).goto .halt rfl

/-- A halt after a read-modify-write. -/
theorem RmwPerformed.haltWith {s t : State} {a : Addr} {f : Word → Word} {e : Effect} (h : RmwPerformed s t a f e)
    (k : HaltCause) :
    RmwPerformed s (t.haltWith k) a f
      { e with
        regs := { e.regs with halted := true, haltCause := k, seqOp := 0xE300 }
        events := e.events ++ [.halt k] } := by
  obtain ⟨v, hperf, hreg⟩ := h
  rw [← State.haltWith_inp t k, ← State.haltWith_space t k] at hreg
  exact ⟨v, by simpa using hperf.haltWith k, hreg⟩

/-- A byte that the environment has no right to is in no register that it has a right to. -/
theorem byteOfReg_of_envByte {c : CfgData} {x : Nat} (h : envByte c x = false) {a : Addr} (ha : a ∈ envAddrs c) :
    byteOfReg a x = false :=
  Bool.eq_false_iff.mpr (List.any_eq_false.mp h a ha)

/-- The registers stored to, told without those that the environment has a right to (R68), of which no frame is claimed. -/
theorem Performed.withStored {s t : State} {e : Effect} (h : Performed s t e) {kept : List Addr}
    (hs : ∀ a ∈ e.stored, a ∈ kept ∨ a ∈ envAddrs s.c) : Performed s t { e with stored := kept } :=
  { h with frame := fun hr x hx hother => h.frame hr x hx fun a ha =>
      (hs a ha).elim (hother a) (byteOfReg_of_envByte hx) }

/-! ## `ECC_SBE` (R222) -/

/-- The first half of the single-bit path: the address read, latched and printed. -/
theorem State.performed_sbeAddress (s : State) :
    Performed s s.sbeAddress
      { s.effect with
        regs := { s.regs with sbeAddrL := (s.busRead s.c.aSbeAddr).1 }
        console := messageBytes 6 (s.busRead s.c.aSbeAddr).1
        events := [.busRead s.c.aSbeAddr (s.busRead s.c.aSbeAddr).1,
          .print (messageBytes 6 (s.busRead s.c.aSbeAddr).1)] } :=
  (s.performed_none.latch s.c.aSbeAddr fun v r => { r with sbeAddrL := v }).printMsg 6 _

/-- The second half of the single-bit path after an effect: the count read and added, and the sum stored in the variable. -/
theorem Performed.sbeCount {s t : State} {e : Effect} (h : Performed s t e) {total : Nat}
    (htotal : total = (e.regs.cnt + (t.busRead s.c.aSbeCnt).1.toNat) % 2 ^ s.c.cntW) :
    Performed s t.sbeCount
      { e with
        regs := { e.regs with cnt := total }
        envVar := some total
        events := e.events ++ [.busRead s.c.aSbeCnt (t.busRead s.c.aSbeCnt).1, .setEnv total] } := by
  have hc : t.c = s.c := congrArg Cfg.data h.cfg
  have hregs : t.sbeCount.regs = { e.regs with cnt := total } := by rw [State.sbeCount_regs, h.regs, hc, htotal]
  have hstored : Performed s t.sbeCount
      { e with
        regs := t.sbeCount.regs
        envVar := some t.sbeCount.regs.cnt
        events := e.events ++ [.busRead t.c.aSbeCnt (t.busRead t.c.aSbeCnt).1] ++ [.setEnv t.sbeCount.regs.cnt] } :=
    ((h.busRead _).setRegs _).setEnv _
  rwa [hregs, hc, List.append_assoc] at hstored

theorem State.sbeCount_space (s : State) : s.sbeCount.space = s.envPoint.space := by
  simp [State.sbeCount]

/-! ## `ECC_DBE` (R223) -/

/-- The double-bit report: message 7, the address read and latched with the counter. -/
theorem State.performed_dbeReport (s : State) :
    Performed s s.dbeReport
      { s.effect with
        regs := { s.regs with dbeAddrL := ((s.printMsg 7 0).busRead s.c.aDbeAddr).1, dbeCntL := s.regs.cnt }
        console := messageBytes 7 0
        events := [.print (messageBytes 7 0), .busRead s.c.aDbeAddr ((s.printMsg 7 0).busRead s.c.aDbeAddr).1] } :=
  (s.performed_none.printMsg 7 0).latch s.c.aDbeAddr fun v r => { r with dbeAddrL := v, dbeCntL := r.cnt }

theorem State.dbeReport_space (s : State) : s.dbeReport.space = (s.printMsg 7 0).envPoint.space := by
  simp [State.dbeReport]

/-! ## Each path of an operation -/

section
variable {s : State}

theorem exec_eccSbe_clear (h : bit s.regs.istat s.c.sbeBit = false) :
    exec .eccSbe s = .next { s with regs := { s.regs with seqOp := 0xA200 } } :=
  congrArg (fun u => Host.Outcome.next (State.goto u .eccDbe)) (if_neg (Bool.eq_false_iff.mp h))

theorem exec_eccSbe_latched (h : bit s.regs.istat s.c.sbeBit = true) :
    exec .eccSbe s = .next (s.sbeAddress.sbeCount.goto .eccDbe) :=
  congrArg (fun u => Host.Outcome.next (State.goto u .eccDbe)) (if_pos h)

theorem exec_eccDbe_clear (h : bit s.regs.istat s.c.dbeBit = false) :
    exec .eccDbe s = .next { s with regs := { s.regs with seqOp := 0xA300 } } :=
  congrArg (fun u => Host.Outcome.next (State.goto u .eccClear)) (if_neg (Bool.eq_false_iff.mp h))

theorem exec_eccDbe_latched (h : bit s.regs.istat s.c.dbeBit = true) :
    exec .eccDbe s = .next (s.dbeReport.goto .eccClear) :=
  congrArg (fun u => Host.Outcome.next (State.goto u .eccClear)) (if_pos h)

/-- The return from the handler restores nothing (R270). -/
theorem exec_eccExit_clear (h : bit s.regs.istat s.c.dbeBit = false) :
    exec .eccExit s = .next { s with
      regs := { s.regs with insvc := false, ctx := .main, seqOp := 0xE200 }
      out := { s.out with history := .irqReturn :: s.out.history } } := by
  have hreturn : exec .eccExit s = .next s.irqReturn := congrArg Host.Outcome.next (if_neg (Bool.eq_false_iff.mp h))
  rw [hreturn, State.irqReturn, State.goto, State.putInsvc]
  rfl

theorem exec_eccExit_latched (h : bit s.regs.istat s.c.dbeBit = true) :
    exec .eccExit s = .next (s.disableEcc.haltWith .eccDbe) :=
  congrArg Host.Outcome.next (if_pos h)

end

/-! ## `ECC_CLEAR` (R224) -/

namespace State

/-- Writing ones in the two flag positions of INTSTAT leaves both flags 0, unless `rst` rose (R76 (a), R89). -/
theorem busWrite_intFlagMask {s : State} (hw : s.space.wf = true)
    (hr : (s.busWrite s.c.aIntstat (intFlagMask s.c)).inp.rst = false) {b : BitNo} (hb : b = s.c.sbeBit ∨ b = s.c.dbeBit) :
    bit ((s.busWrite s.c.aIntstat (intFlagMask s.c)).space.readWord s.c.aIntstat) b = false := by
  rw [Bool.eq_false_iff]
  intro hset
  obtain ⟨-, hzero⟩ := (busWrite_intstat_flag hw hr hb).mp hset
  exact Bool.false_ne_true (hzero.symm.trans (bit_intFlagMask s.c hb))

variable {s : State} {a : Addr}

/-- What a read-modify-write of a HOST-owned register reads and leaves there, unless `rst` rose. -/
theorem rmw_readWord_host (f : Word → Word) (hw : s.space.wf = true) (ha : aligned a = true) (ho : a ∉ envAddrs s.c)
    (hr : ((s.busRead a).2.busWrite a (f (s.busRead a).1)).inp.rst = false) :
    (s.busRead a).1 = s.space.readWord a ∧
    ((s.busRead a).2.busWrite a (f (s.busRead a).1)).space.readWord a = f (s.busRead a).1 := by
  have hread : (s.busRead a).1 = s.space.readWord a := s.envPoint_readWord ((s.busOnly_rmw a f).rst hr) ha ho
  exact ⟨hread, busWrite_readWord_host ((s.busOnly_busRead a).wf hw) ha (s.busRead_c a ▸ ho) hr⟩

/-- A pulse of bit `b` of a HOST-owned register: what its two reads return and what the register holds after it, unless `rst`
rose (R108). -/
theorem pulse_readWord_host {b : BitNo} (hw : s.space.wf = true) (ha : aligned a = true) (ho : a ∉ envAddrs s.c)
    (hr : (s.pulse a b).inp.rst = false) :
    (s.busRead a).1 = s.space.readWord a ∧ ((s.setBit a b).busRead a).1 = withBitSet (s.busRead a).1 b ∧
    (s.pulse a b).space.readWord a = withBitClear ((s.setBit a b).busRead a).1 b := by
  have hset := s.busOnly_setBit a b
  have hc : (s.setBit a b).c = s.c := congrArg Cfg.data hset.cfg
  obtain ⟨hfirst, hone⟩ := rmw_readWord_host (fun v => withBitSet v b) hw ha ho ((busOnly_clearBit _ a b).rst hr)
  obtain ⟨hsecond, hzero⟩ := rmw_readWord_host (fun v => withBitClear v b) (hset.wf hw) ha (hc.symm ▸ ho) hr
  exact ⟨hfirst, hsecond.trans hone, hzero⟩

/-- The status-clear sequence: its five transactions, ECCCTRL being the only register stored to that the environment has no right
to. -/
theorem performed_clearSequence (s : State) (b : BitNo) (v : Word) :
    Performed s ((s.pulse s.c.aEccctrl b).busWrite s.c.aIntstat v)
      { s.effect with
        events := [.busRead s.c.aEccctrl (s.busRead s.c.aEccctrl).1,
          .busWrite s.c.aEccctrl (withBitSet (s.busRead s.c.aEccctrl).1 b),
          .busRead s.c.aEccctrl ((s.setBit s.c.aEccctrl b).busRead s.c.aEccctrl).1,
          .busWrite s.c.aEccctrl (withBitClear ((s.setBit s.c.aEccctrl b).busRead s.c.aEccctrl).1 b),
          .busWrite s.c.aIntstat v]
        stored := [s.c.aEccctrl] } := by
  have hset := (s.performed_busRead s.c.aEccctrl).busWrite s.c.aEccctrl (withBitSet (s.busRead s.c.aEccctrl).1 b)
  have hpulse := (hset.busRead s.c.aEccctrl).busWrite s.c.aEccctrl
    (withBitClear ((s.setBit s.c.aEccctrl b).busRead s.c.aEccctrl).1 b)
  exact (hpulse.busWrite s.c.aIntstat v).withStored (by simp [effect, envAddrs])

end State

/-! ## `ECC_EXIT` (R225) -/

theorem cfg_errinten_aligned (c : Cfg) : aligned c.data.aErrinten = true :=
  cfg_addr_aligned c (cfg_envAddr_mem c (by simp [envAddrs]))

/-- In context IRQ the disable leaves ERRINTEN its value before the operation with the bits of `ECC_INTEN_MASK` 0, unless `rst`
rose: PLATFORM does not write it there (R68). -/
theorem State.disableEcc_errinten {s : State} (hw : s.space.wf = true) (hr : s.disableEcc.inp.rst = false)
    (hctx : s.context = .irq) (hp : s.c.aErrinten ∉ partnerAddrs s.c) (hi : s.c.aErrinten ≠ s.c.aIntstat)
    (he : s.c.aErrinten ≠ s.c.aEccctrl) :
    s.disableEcc.space.readWord s.c.aErrinten = s.space.readWord s.c.aErrinten &&& ~~~s.c.eccIntenMask := by
  obtain ⟨-, hsame⟩ := s.envPoint_errinten hw (s.busOnly_disableEcc.rst hr) hp hi
  obtain ⟨hstored, -⟩ := State.busWrite_readWord _ ((s.busOnly_busRead s.c.aErrinten).wf hw) (cfg_errinten_aligned s.cfg) _ hr
  rw [State.busRead_c] at hstored
  refine (hstored hi fun h => absurd h he).trans ?_
  rw [State.busRead_fst, hsame hctx]

/-! ## Traffic of the handler (R226) -/

/-- From `s` to `t`, `rst` risen or not, the history grew by events without a wait and with at most `n` bus transactions. -/
def TrafficWithin (n : Nat) (s t : State) : Prop :=
  ∃ es, t.trace = s.trace ++ es ∧ waitCount es = 0 ∧ (busAddrs es).length ≤ n

namespace TrafficWithin

variable {m n : Nat} {s t u : State}

theorem of_trace_eq (h : t.trace = s.trace) (n : Nat) : TrafficWithin n s t :=
  ⟨[], by rw [h, List.append_nil], rfl, Nat.zero_le n⟩

theorem trans (h : TrafficWithin m s t) (k : TrafficWithin n t u) : TrafficWithin (m + n) s u := by
  obtain ⟨es, hes, hwait, hbus⟩ := h
  obtain ⟨fs, hfs, kwait, kbus⟩ := k
  refine ⟨es ++ fs, by rw [hfs, hes, List.append_assoc], ?_, ?_⟩
  · rw [waitCount, List.countP_append, ← waitCount, ← waitCount, hwait, kwait]
  · rw [busAddrs, List.filterMap_append, List.length_append]
    exact Nat.add_le_add hbus kbus

/-- Writing the block's registers makes no traffic. -/
theorem setRegs (h : TrafficWithin n s t) (r : Regs) : TrafficWithin n s { t with regs := r } := h

theorem goto (h : TrafficWithin n s t) (j : Instr) : TrafficWithin n s (t.goto j) := h

theorem busRead (s : State) (a : Addr) : TrafficWithin 1 s (s.busRead a).2 := ⟨_, s.busRead_trace a, rfl, Nat.le_refl 1⟩

theorem busWrite (s : State) (a : Addr) (v : Word) : TrafficWithin 1 s (s.busWrite a v) := by
  rcases s.busWrite_cases a v with ⟨-, heq⟩ | ⟨-, -, -, htrace⟩
  · exact of_trace_eq (by rw [heq, State.trace_envPoint]) 1
  · exact ⟨_, htrace, rfl, Nat.le_refl 1⟩

theorem rmw (s : State) (a : Addr) (f : Word → Word) :
    TrafficWithin 2 s ((s.busRead a).2.busWrite a (f (s.busRead a).1)) :=
  (busRead s a).trans (busWrite _ a _)

theorem pulse (s : State) (a : Addr) (b : BitNo) : TrafficWithin 4 s (s.pulse a b) :=
  (rmw s a fun v => withBitSet v b).trans (rmw _ a fun v => withBitClear v b)

/-- The single-bit path (R222). -/
theorem eccSbe (h : exec .eccSbe s = .next t) : TrafficWithin 2 s t := by
  obtain rfl := Host.Outcome.next.inj h
  split
  · have haddress : TrafficWithin 1 s s.sbeAddress := ⟨_, s.sbeAddress_trace, rfl, Nat.le_refl 1⟩
    have hcount : TrafficWithin 1 s.sbeAddress s.sbeAddress.sbeCount := ⟨_, State.sbeCount_trace _, rfl, Nat.le_refl 1⟩
    exact (haddress.trans hcount).goto .eccDbe
  · exact of_trace_eq (s.trace_goto .eccDbe) 2

/-- The double-bit report (R223). -/
theorem eccDbe (h : exec .eccDbe s = .next t) : TrafficWithin 1 s t := by
  obtain rfl := Host.Outcome.next.inj h
  split
  · have hprint : TrafficWithin 0 s (s.printMsg 7 0) :=
      ⟨[.print (messageBytes 7 0)], by simp [State.trace], rfl, Nat.le_refl 0⟩
    exact ((hprint.trans (busRead _ s.c.aDbeAddr)).setRegs _).goto .eccClear
  · exact of_trace_eq (s.trace_goto .eccClear) 1

/-- The return, or the disable and the halt (R225). -/
theorem eccExit (h : exec .eccExit s = .next t) : TrafficWithin 2 s t := by
  obtain rfl := Host.Outcome.next.inj h
  split
  · have hhalt : TrafficWithin 0 s.disableEcc (s.disableEcc.haltWith .eccDbe) :=
      ⟨[.halt .eccDbe], by simp [State.trace], rfl, Nat.le_refl 0⟩
    exact (rmw s _ fun v => v &&& ~~~s.c.eccIntenMask).trans hhalt
  · exact ⟨[.irqReturn], by simp [State.trace], rfl, Nat.zero_le 2⟩

end TrafficWithin

end Sys2Proof.Machine
end

section
/-! CERTIFICATES. The statements of `45_ecc_handler.md`: the ECC interrupt handler. -/

namespace Sys2Proof.Machine

/-- Settles O46: one bus read whose value is latched (`Performed.latch`); the environment clears no flag before it
(`envPoint_intstat`). -/
theorem entryLatchesTheStatus : Obligations.EntryLatchesTheStatus := by
  refine ⟨rfl, fun s => ⟨_, (s.busRead s.c.aIntstat).1, rfl, ?_, fun hw hr hp b hb hset => ?_⟩⟩
  · exact (s.performed_none.latch s.c.aIntstat fun v r => { r with istat := v }).goto .eccSbe rfl
  · exact s.envPoint_intstat hw ((s.busOnly_busRead s.c.aIntstat).rst hr) hp hb hset

/-- Settles O47, by the equation of each path and the effects of its parts (`performed_sbeAddress`, `Performed.sbeCount`,
`performed_dbeReport`). -/
theorem errorPathsCountAndReport : Obligations.ErrorPathsCountAndReport := by
  refine ⟨rfl, rfl, fun s => ⟨exec_eccSbe_clear, fun hsbe => ?_, exec_eccDbe_clear, fun hdbe => ?_⟩⟩
  · refine ⟨_, _, _, _, exec_eccSbe_latched hsbe, rfl, (s.performed_sbeAddress.sbeCount rfl).goto .eccDbe rfl, rfl, ?_⟩
    rw [State.goto_space, State.sbeCount_space, State.busRead_fst]
  · refine ⟨_, _, exec_eccDbe_latched hdbe, s.performed_dbeReport.goto .eccClear rfl, ?_⟩
    rw [State.goto_space, State.dbeReport_space, State.busRead_fst]

/-- Settles O48: the five transactions (`performed_clearSequence`), the flags after the last (`busWrite_intFlagMask`), and ECCCTRL
after the pulse (`pulse_readWord_host`), which the last write leaves alone. -/
theorem clearSequenceRunsWhateverTheFlags : Obligations.ClearSequenceRunsWhateverTheFlags := by
  refine ⟨rfl, ?_⟩
  rintro s _ _ hw rfl rfl
  refine ⟨_, _, _, rfl, (s.performed_clearSequence s.c.cntrstBit (intFlagMask s.c)).goto .eccExit rfl, fun hr => ?_⟩
  rw [State.goto_inp] at hr
  rw [State.goto_space]
  have hpulse := s.busOnly_pulse s.c.aEccctrl s.c.cntrstBit
  have hc : (s.pulse s.c.aEccctrl s.c.cntrstBit).c = s.c := congrArg Cfg.data hpulse.cfg
  have hflag (b : BitNo) := State.busWrite_intFlagMask (hpulse.wf hw) (b := b)
  rw [hc] at hflag
  refine ⟨hflag _ hr (.inl rfl), hflag _ hr (.inr rfl), fun ho => ?_⟩
  have hne : s.c.aEccctrl ≠ s.c.aIntstat := fun e => ho (by simp [e, envAddrs])
  have hal := cfg_eccctrl_aligned s.cfg
  obtain ⟨hfirst, hsecond, hafter⟩ := State.pulse_readWord_host hw hal ho ((State.busOnly_busWrite _ _ _).rst hr)
  have hkeep := (State.performed_busWrite _ s.c.aIntstat _).readWord_of_not_stored hr hal (hc.symm ▸ ho)
    (by simpa using ⟨cfg_intstat_aligned s.cfg, hne⟩)
  exact ⟨hfirst, hsecond, hkeep.trans hafter⟩

/-- Settles O49: the return in full, and the disable as a read-modify-write of ERRINTEN followed by the halt. -/
theorem exitReturnsOrDisablesAndHalts : Obligations.ExitReturnsOrDisablesAndHalts := by
  refine ⟨rfl, fun s hw => ⟨exec_eccExit_clear, fun hdbe => ⟨_, exec_eccExit_latched hdbe, ?_, fun hr => ?_⟩⟩⟩
  · exact (s.rmwPerformed (fun v => v &&& ~~~s.c.eccIntenMask) hw (cfg_errinten_aligned s.cfg)).haltWith .eccDbe
  · rw [State.haltWith_inp] at hr
    rw [State.haltWith_space]
    exact State.disableEcc_errinten hw hr

/-- Settles O59, by the traffic of each operation of the handler (`TrafficWithin`). -/
theorem handlerNeverWaits : Obligations.HandlerNeverWaits := by
  intro i s t hi h
  cases i with
  | eccEntry =>
    obtain rfl := Host.Outcome.next.inj h
    exact ((TrafficWithin.busRead s s.c.aIntstat).setRegs _).goto .eccSbe
  | eccSbe => exact TrafficWithin.eccSbe h
  | eccDbe => exact TrafficWithin.eccDbe h
  | eccClear =>
    obtain rfl := Host.Outcome.next.inj h
    have hpulse := TrafficWithin.pulse s s.c.aEccctrl s.c.cntrstBit
    exact (hpulse.trans (.busWrite _ s.c.aIntstat (intFlagMask s.c))).goto .eccExit
  | eccExit => exact TrafficWithin.eccExit h
  | _ => cases hi

end Sys2Proof.Machine
end

section
/-! SUPPORT. The system operations (`46_system_ops.md` R240 to R249): one equation for each path of an operation, the ways into the
halted state, and the verdict on a run that has ended. -/

namespace Sys2Proof.Machine

/-! ## The equations of the operations (R240 to R246) -/

section
variable {s : State} {m : BitVec 8}

theorem exec_idle_started (h : s.inp.start = true) :
    exec .idle s = .next { s with regs := { s.regs with seqOp := 0x4000 } } :=
  congrArg Host.Outcome.next (if_pos h)

theorem exec_idle_waiting (h : s.inp.start = false) :
    exec .idle s = .next { s with regs := { s.regs with seqOp := 0xE000 } } :=
  congrArg Host.Outcome.next (if_neg (Bool.eq_false_iff.mp h))

theorem State.irqAcceptable_iff :
    s.irqAcceptable = true ↔
      s.inp.eccIrq = true ∧ s.regs.armed = true ∧ s.regs.insvc = false ∧ s.regs.halted = false := by
  simp [State.irqAcceptable, and_assoc]

/-- The entry to the handler saves nothing (R269). -/
theorem exec_steady_accepted (h : s.irqAcceptable = true) :
    exec .steady s = .next { s with
      regs := { s.regs with insvc := true, ctx := .irq, seqOp := 0xA000 }
      out := { s.out with history := .irqEnter :: s.out.history } } := by
  have henter : exec .steady s = .next s.irqEnter := congrArg Host.Outcome.next (if_pos h)
  rw [henter, State.irqEnter, State.goto, State.putInsvc]
  rfl

theorem exec_steady_waiting (h : s.irqAcceptable ≠ true) :
    exec .steady s = .next { s with regs := { s.regs with seqOp := 0xE200 } } :=
  congrArg Host.Outcome.next (if_neg h)

theorem exec_print (h : m.toNat < 8) :
    exec (.print m) s = .next { s with
      out := { s.out with
        console := s.out.console ++ messageBytes m.toNat s.unit.parg
        history := .print (messageBytes m.toNat s.unit.parg) :: s.out.history } } :=
  if_pos h

theorem exec_print_refused (h : 8 ≤ m.toNat) : exec (.print m) s = .refused .reservedArgument :=
  if_neg (Nat.not_lt.mpr h)

end

/-! ## The ways into the halted state (R264) -/

/-- What tables T7 and T8 let an operation write makes a block halted only where `Halt` does (R243): at `BOOT_REPORT` of a failure
and at `ECC_EXIT` with the double-bit flag latched. -/
theorem RegsStep.enters_halted {c : CfgData} {i : Instr} {r r' : Regs} (h : RegsStep c r i r') (hrun : r.halted = false)
    (hhalt : r'.halted = true) :
    (i = .bootReport ∧ r.rcrc ≠ 0 ∧ r'.haltCause = .calExhaust) ∨
    (i = .eccExit ∧ bit r.istat c.dbeBit = true ∧ r'.haltCause = .eccDbe) := by
  cases h with
  | reportFailure hnz => exact .inl ⟨rfl, hnz, rfl⟩
  | dbeHalt hdbe => exact .inr ⟨rfl, hdbe, rfl⟩
  | _ => exact absurd (hrun.symm.trans hhalt) (by decide)

section
variable {s s1 : State} {i : Instr}

/-- A fetch at most takes the command off the port: it writes no working register (R100). -/
theorem State.fetch_regs (h : s.fetch = .ok (i, s1)) : s1.regs = s.regs := by
  obtain ⟨_, -, -, hcase⟩ := State.fetch_cases h
  rcases hcase with ⟨-, -, rfl⟩ | ⟨-, -, rfl, -⟩ | ⟨-, -, rfl, -⟩ <;> rfl

/-- An operation of class S fetched in a block that is not halted runs on the state as it stands. -/
theorem State.fetch_sequencerState (h : s.fetch = .ok (i, s1)) (hi : i.opClass = .sequencerState)
    (hrun : s.regs.halted = false) : s1 = s := by
  obtain ⟨_, -, -, hcase⟩ := State.fetch_cases h
  rcases hcase with ⟨hh, -, -⟩ | ⟨-, hu, -, -⟩ | ⟨-, -, hs, -⟩
  · exact absurd (hh.symm.trans hrun) (by decide)
  · exact absurd (hu.symm.trans hi) (by decide)
  · exact hs

/-- A block halted at the end of a step was not reset there (R291), so its registers are those the operation left. -/
theorem State.endStep_regs_of_halted (h : s.endStep.regs.halted = true) : s.endStep.regs = s.regs := by
  rcases s.endStep_cases with ⟨-, heq⟩ | ⟨-, heq⟩
  · rw [heq] at h
    cases h
  · rw [heq, State.envPoint_regs]

end

/-! ## The end of a run (R249) -/

section
variable {s : State} {c : CfgData} {i : Instr} {r : Regs}

theorem State.op?_of_decode (h : decode s.regs.seqOp = .ok i) : s.op? = some i := by
  simp [State.op?, h]

theorem State.op?_of_runEnded (h : s.runEnded = true) : s.op? = some .halt ∨ s.op? = some .steady := by
  simp only [State.runEnded, Bool.or_eq_true, Bool.and_eq_true, beq_iff_eq] at h
  exact h.imp_right And.left

theorem State.runFailed_iff : s.runFailed = true ↔ s.op? = some .halt ∧ s.regs.haltCause = .calExhaust := by
  simp [State.runFailed]

/-- `HALT` always has a cause, and only a double-bit error halts an armed block (R243, R225, R261). -/
theorem RegsInv.armed_iff_of_halt (h : RegsInv c .halt r) : r.armed = true ↔ r.haltCause ≠ .calExhaust := by
  cases hcause : r.haltCause with
  | none => exact absurd hcause (h.haltedOp.2.mpr rfl)
  | calExhaust => simp [(h.haltCal hcause).2]
  | eccDbe => simp [(h.haltDbe hcause).2]

/-- The sequencer reaches `STEADY` only through `ARM` (R241). -/
theorem RegsInv.armed_of_steady (h : RegsInv c .steady r) : r.armed = true := (h.armed_iff (by decide)).mpr rfl

/-- In a run that has ended the two verdicts exclude each other (R249). -/
theorem Inv.runPassed_iff (h : Inv s) (hend : s.runEnded = true) : s.runPassed = true ↔ s.runFailed ≠ true := by
  obtain ⟨i, hdec, -, hregs⟩ := h.sequencer
  have hop := State.op?_of_decode hdec
  rw [Ne, State.runFailed_iff, hop]
  rcases State.op?_of_runEnded hend with hhalt | hsteady
  · obtain rfl : i = .halt := Option.some.inj (hop.symm.trans hhalt)
    simpa [State.runPassed] using hregs.armed_iff_of_halt
  · obtain rfl : i = .steady := Option.some.inj (hop.symm.trans hsteady)
    simpa [State.runPassed] using hregs.armed_of_steady

/-- A block in `STEADY` has been armed (R241). -/
theorem Inv.runPassed_of_steady (h : Inv s) (hop : s.op? = some .steady) : s.runPassed = true := by
  obtain ⟨i, hdec, -, hregs⟩ := h.sequencer
  obtain rfl : i = .steady := Option.some.inj ((State.op?_of_decode hdec).symm.trans hop)
  exact hregs.armed_of_steady

/-- A block that halted on a double-bit error had been armed (R225). -/
theorem Inv.runPassed_of_eccDbe (h : Inv s) (hcause : s.regs.haltCause = .eccDbe) : s.runPassed = true := by
  obtain ⟨i, -, -, hregs⟩ := h.sequencer
  exact (hregs.haltDbe hcause).2

end

end Sys2Proof.Machine
end

section
/-! CERTIFICATES. The statements of `46_system_ops.md`: the system operations, the halted state, and the end of a run. -/

namespace Sys2Proof.Machine

/-- Settles O52: a step that halts the block ends without a reset (`endStep_regs_of_halted`), so its operation entered the halted
state (`RegsStep.enters_halted`), and that operation came from `SEQ.op` (`fetch_sequencerState`). -/
theorem haltIsEnteredInTwoWaysOnly : Obligations.HaltIsEnteredInTwoWaysOnly := by
  intro s t hstep hrun hhalt
  rcases step_next_cases hstep with ⟨-, rfl⟩ | ⟨-, i, s1, u, hf, hu, rfl⟩
  · rw [State.holdReset_regs] at hhalt
    cases hhalt
  have hend := State.endStep_regs_of_halted hhalt
  rw [hend] at hhalt ⊢
  have hrun1 : s1.regs.halted = false := by rwa [State.fetch_regs hf]
  rcases (opStep_of_exec hu).regs.enters_halted hrun1 hhalt with ⟨rfl, hpath⟩ | ⟨rfl, hpath⟩
  · obtain rfl := State.fetch_sequencerState hf rfl hrun
    exact .inl ⟨hf, hpath⟩
  · obtain rfl := State.fetch_sequencerState hf rfl hrun
    exact .inr ⟨hf, hpath⟩

/-- Settles O53: the step runs `HALT` (`stepRunsTheDecodedOperation`), which writes `SEQ.op` alone, and the end of the step is the
environment's (`endOfStepIsTheEnvironments`). -/
theorem haltIsAbsorbingUntilReset : Obligations.HaltIsAbsorbingUntilReset := by
  intro s i hh hrst hdec hop
  obtain ⟨hstep, -⟩ := (stepRunsTheDecodedOperation s).2 i hrst hdec hop
  refine ⟨_, hstep hh, fun hlow => ?_⟩
  obtain ⟨-, hend, -⟩ := endOfStepIsTheEnvironments (s.goto .halt)
  obtain ⟨-, hregs, hunit, hout, -, hspace⟩ := hend hlow
  simp only [State.goto_regs, State.goto_unit, State.goto_out, State.goto_c, State.goto_space] at hregs hunit hout hspace
  exact ⟨hregs, hunit, hout, (congrArg Regs.halted hregs).trans hh, hspace⟩

/-- Settles O60: the verdicts exclude each other (`Inv.runPassed_iff`), and passing is having been armed, which `STEADY` and a halt
on a double-bit error show. -/
theorem endedRunsPassedOrFailed : Obligations.EndedRunsPassedOrFailed := by
  refine fun s h hend => ⟨?_, State.runFailed_iff, h.runPassed_of_steady, h.runPassed_of_eccDbe⟩
  exact Bool.eq_iff_iff.mpr (by simpa using h.runPassed_iff hend)

/-- Settles O21: `PRINT` by its two equations; `SETENV` and `WDKICK` are one event each. -/
theorem servicesActOnTheirOutputsOnly : Obligations.ServicesActOnTheirOutputsOnly :=
  fun _ _ => ⟨exec_print, exec_print_refused, rfl, rfl⟩

/-- Settles O50, by the equations of `IDLE` with and without `START` and of `STEADY` with and without an acceptable interrupt. -/
theorem systemOperationsWaitArmAndHalt : Obligations.SystemOperationsWaitArmAndHalt := by
  refine ⟨rfl, rfl, rfl, rfl, fun s => ⟨?_, rfl, fun hirq => ?_, fun hno => ?_, rfl⟩⟩
  · cases hstart : s.inp.start with
    | true => exact exec_idle_started hstart
    | false => exact exec_idle_waiting hstart
  · exact exec_steady_accepted (State.irqAcceptable_iff.mpr hirq)
  · exact exec_steady_waiting (mt State.irqAcceptable_iff.mp hno)

end Sys2Proof.Machine
end

section
/-! SUPPORT. What an operation appends to `TRACE` (`60_exceptions.md` R267, R274): bus transactions at registers of its context and
events of other kinds, and `IrqEnter` at the acceptance of the interrupt only. -/

namespace Sys2Proof.Machine

/-! ## Events within a set of registers -/

/-- A bus transaction is at an address of `A`; `IrqEnter` is left out. -/
def Event.Within (A : Addr → Prop) : Event → Prop
  | .busRead a _ | .busWrite a _ => A a
  | .irqEnter => False
  | _ => True

theorem busAddrs_within {A : Addr → Prop} {es : List Event} (h : ∀ e ∈ es, e.Within A) : ∀ a ∈ busAddrs es, A a := by
  intro a ha
  obtain ⟨e, he, hea⟩ := List.mem_filterMap.mp ha
  have hin := h e he
  cases e with
  | busRead b v | busWrite b v => cases hea; exact hin
  | _ => cases hea

/-- From `s` to `t`, `rst` risen or not, the history grew by events within `A`. -/
def AppendsWithin (A : Addr → Prop) (s t : State) : Prop := ∃ es, t.trace = s.trace ++ es ∧ ∀ e ∈ es, e.Within A

namespace AppendsWithin

variable {A : Addr → Prop} {s t u : State} {a : Addr}

theorem of_trace_eq (h : t.trace = s.trace) : AppendsWithin A s t := ⟨[], by rw [h, List.append_nil], by simp⟩

theorem refl (s : State) : AppendsWithin A s s := of_trace_eq rfl

theorem trans (h : AppendsWithin A s t) (k : AppendsWithin A t u) : AppendsWithin A s u := by
  obtain ⟨es, hes, hin⟩ := h
  obtain ⟨fs, hfs, kin⟩ := k
  exact ⟨es ++ fs, by rw [hfs, hes, List.append_assoc], List.forall_mem_append.mpr ⟨hin, kin⟩⟩

/-- Writing the block's registers appends nothing. -/
theorem setRegs (h : AppendsWithin A s t) (r : Regs) : AppendsWithin A s { t with regs := r } := h

theorem goto (h : AppendsWithin A s t) (j : Instr) : AppendsWithin A s (t.goto j) := h

theorem emit (s : State) {e : Event} (he : e.Within A) : AppendsWithin A s (s.emit e) :=
  ⟨[e], s.trace_emit e, List.forall_mem_singleton.mpr he⟩

/-! ### Bus transactions -/

theorem busRead (s : State) (ha : A a) : AppendsWithin A s (s.busRead a).2 :=
  ⟨_, s.busRead_trace a, List.forall_mem_singleton.mpr ha⟩

theorem busWrite (s : State) (ha : A a) (v : Word) : AppendsWithin A s (s.busWrite a v) := by
  rcases s.busWrite_cases a v with ⟨-, heq⟩ | ⟨-, -, -, htrace⟩
  · exact of_trace_eq (by rw [heq, State.trace_envPoint])
  · exact ⟨_, htrace, List.forall_mem_singleton.mpr ha⟩

theorem rmw (s : State) (ha : A a) (f : Word → Word) :
    AppendsWithin A s ((s.busRead a).2.busWrite a (f (s.busRead a).1)) :=
  (busRead s ha).trans (busWrite _ ha _)

theorem setBit (s : State) (ha : A a) (b : BitNo) : AppendsWithin A s (s.setBit a b) := rmw s ha fun v => withBitSet v b

theorem clearBit (s : State) (ha : A a) (b : BitNo) : AppendsWithin A s (s.clearBit a b) :=
  rmw s ha fun v => withBitClear v b

theorem wrField (s : State) {f : FieldLoc} (ha : A f.addr) (v : Word) : AppendsWithin A s (s.wrField f v) :=
  rmw s ha fun r => insertField f r v

theorem pulse (s : State) (ha : A a) (b : BitNo) : AppendsWithin A s (s.pulse a b) :=
  (setBit s ha b).trans (clearBit _ ha b)

theorem pollBit (s : State) (ha : A a) (b : BitNo) (expected : Bool) (us : Nat) :
    AppendsWithin A s (s.pollBit a b expected us).2 := by
  obtain ⟨-, -, -, -, -, -, -, vs, -, htrace, -⟩ := s.pollBit_spec a b expected us
  refine ⟨_, htrace, fun e he => ?_⟩
  obtain ⟨v, -, he⟩ := List.mem_flatMap.mp he
  simp only [List.mem_cons, List.not_mem_nil, or_false] at he
  rcases he with rfl | rfl | rfl
  · trivial
  · trivial
  · exact ha

/-! ### Services and error conditions -/

theorem delayMs (s : State) (ms : Nat) : AppendsWithin A s (s.delayMs ms) := by
  obtain ⟨-, -, -, -, -, -, -, -, -, htrace⟩ := s.delayMs_spec ms
  refine ⟨_, htrace, fun e he => ?_⟩
  obtain ⟨l, hl, he⟩ := List.mem_flatten.mp he
  simp only [List.eq_of_mem_replicate hl, List.mem_cons, List.not_mem_nil, or_false] at he
  rcases he with rfl | rfl <;> trivial

theorem printMsg (s : State) (m : Nat) (v : Word) : AppendsWithin A s (s.printMsg m v) :=
  emit (A := A) { s with out := { s.out with console := s.out.console ++ messageBytes m v } } trivial

theorem setEnv (s : State) (v : Nat) : AppendsWithin A s (s.setEnv v) :=
  emit (A := A) { s with out := { s.out with envVar := some v } } trivial

theorem haltWith (s : State) (k : HaltCause) : AppendsWithin A s (s.haltWith k) :=
  (emit (A := A) (s.setHalted k) (e := .halt k) trivial).goto .halt

theorem irqReturn (s : State) : AppendsWithin A s s.irqReturn :=
  ⟨[.irqReturn], by simp [State.trace], List.forall_mem_singleton.mpr trivial⟩

theorem raise (s : State) (k : Condition) : AppendsWithin A s (s.raise k) := by
  cases k with
  | calExhausted => exact ((printMsg s 2 0).setRegs _).goto .bootReport
  | _ => exact ((refl s).setRegs _).goto _

/-! ## Class U commands -/

/-- A class U command, wherever it makes its transactions. -/
theorem of_unit {i : Instr} (hA : ∀ a, A a) (hi : i.opClass = .unitCommand) (h : exec i s = .next t) :
    AppendsWithin A s t := by
  cases i with
  | rdreg => obtain rfl := State.atPort_next ((exec_rdreg s).symm.trans h); exact busRead s (hA _)
  | wrreg => obtain rfl := State.atPort_next ((exec_wrreg s).symm.trans h); exact busWrite s (hA _) _
  | setbit => obtain rfl := State.atPort_next ((exec_setbit s).symm.trans h); exact setBit s (hA _) _
  | clrbit => obtain rfl := State.atPort_next ((exec_clrbit s).symm.trans h); exact clearBit s (hA _) _
  | pollbit =>
    simp only [exec, execPollbit] at h
    split at h
    · obtain rfl := Host.Outcome.next.inj h
      exact of_trace_eq rfl
    · obtain rfl := State.atPort_next h
      exact pollBit s (hA _) _ _ _
  | delay => obtain rfl := Host.Outcome.next.inj h; exact delayMs s _
  | print m =>
    simp only [exec, execPrint] at h
    split at h
    · obtain rfl := Host.Outcome.next.inj h
      exact printMsg s _ _
    · cases h
  | setenv => obtain rfl := Host.Outcome.next.inj h; exact setEnv s _
  | wdkick => obtain rfl := Host.Outcome.next.inj h; exact emit s trivial
  | _ => cases hi

/-! ## Context MAIN -/

/-- A handshake step that polls and may time out (R126, R260). -/
theorem hsPoll (s : State) (ha : A a) (p : HsPoll) (b : BitNo) (expected : Bool) (us : Nat) (j : Instr) :
    AppendsWithin A s (s.hsPoll p a b expected us j) := by
  have hpoll := pollBit s ha b expected us
  unfold State.hsPoll
  split
  · exact hpoll.goto j
  · exact hpoll.trans (raise _ _)

theorem hsSucceed (s : State) (ha : A s.c.aC2s) : AppendsWithin A s s.hsSucceed := by
  have hwait := (setBit s ha s.c.doneBit).trans (delayMs _ Config.hsFinalMs)
  unfold State.hsSucceed
  generalize (s.setBit s.c.aC2s s.c.doneBit).delayMs Config.hsFinalMs = t at hwait ⊢
  exact hwait.setRegs _

theorem hs14 (hpin : A s.c.aGpin) (hc2s : A s.c.aC2s) (h : exec .hs14 s = .next t) : AppendsWithin A s t := by
  obtain rfl := Host.Outcome.next.inj h
  have hpoll := pollBit s hpin s.c.calrdyBit true Config.hsT14Us
  split
  · exact hpoll.trans (hsSucceed _ (by rwa [(Transacted.pollBit s _ _ _ _).c_eq]))
  · exact hpoll.trans (raise _ _)

theorem gateOn (s : State) (v : Word) : AppendsWithin A s (s.gateOn v) := by
  unfold State.gateOn
  split
  · exact ((refl s).setRegs _).goto .bootReport
  · exact ((refl s).setRegs _).goto .rcAttempt

theorem statpollOn (s : State) (v : Word) : AppendsWithin A s (s.statpollOn v) := by
  have hcount := (refl (A := A) s).setRegs { s.regs with pj := s.regs.pj + 1 }
  unfold State.statpollOn
  dsimp only
  split
  · exact (hcount.setRegs _).goto .rcFinish
  · split
    · exact hcount.goto .rcRetry
    · exact hcount.goto .rcStatpoll

theorem rcAttempt (h : exec .rcAttempt s = .next t) : AppendsWithin A s t := by
  obtain rfl := Host.Outcome.next.inj h
  split
  · exact ((refl s).setRegs _).goto .hs1
  · exact (refl s).goto .rcFinish

theorem rcFinish (h : exec .rcFinish s = .next t) : AppendsWithin A s t := by
  obtain rfl := Host.Outcome.next.inj h
  split
  · exact ((refl s).setRegs _).goto .bootReport
  · exact raise s .calExhausted

theorem bootReport (h : exec .bootReport s = .next t) : AppendsWithin A s t := by
  obtain rfl := Host.Outcome.next.inj h
  split
  · exact (printMsg s 4 0).goto .tcLoad
  · exact (printMsg s 3 0).trans (haltWith _ .calExhaust)

/-- The reads of `TC_LOAD` (R171). -/
theorem loadRaws (h : AppendsWithin A s t) (hA : ∀ f, A (rawGet t.c.raw f).addr) (fs : List RawField) :
    AppendsWithin A s (fs.foldl State.loadRaw t) := by
  induction fs generalizing t with
  | nil => exact h
  | cons f fs ih =>
    have hc : (t.loadRaw f).c = t.c := t.busRead_c (rawGet t.c.raw f).addr
    exact ih ((h.trans (busRead t (hA f))).setRegs _) (by rwa [hc])

/-- A working register written, then a scheduler field (R172 to R174). -/
theorem setRegs_wrField (s : State) (r : Regs) {f : FieldLoc} (ha : A f.addr) (v : Word) :
    AppendsWithin A s (State.wrField { s with regs := r } f v) :=
  ((refl s).setRegs r).trans (wrField _ ha v)

theorem applyGeom (s : State) (ha : A s.c.out.ddrconf.addr) (idx : Word) : AppendsWithin A s (s.applyGeom idx) := by
  by_cases hidx : idx = 0
  · rw [hidx, State.applyGeom_zero]
    exact (refl s).setRegs _
  · rw [State.applyGeom_nonzero s hidx]
    exact setRegs_wrField s _ ha idx

theorem fwCheck (h : exec .fwCheck s = .next t) : AppendsWithin A s t := by
  obtain ⟨r, rfl⟩ := fwCheck_setRegs h
  exact (refl s).setRegs r

/-- Programming a firewall entry (R204). -/
theorem programEntry (s : State) (hA : ∀ e ∈ s.c.fwTable, A e.aCfg ∧ A e.aEn) (n : Nat) :
    AppendsWithin A s (s.programEntry n) := by
  unfold State.programEntry
  split
  · exact refl s
  · rename_i e he
    obtain ⟨hcfg, hen⟩ := hA e (List.mem_of_getElem? he)
    unfold State.programRegion
    split
    · exact refl s
    · exact (busWrite s hcfg _).trans (setBit _ hen _)

theorem fwRegion (hA : ∀ e ∈ s.c.fwTable, A e.aCfg ∧ A e.aEn) {e : BitVec 8} (h : exec (.fwRegion e) s = .next t) :
    AppendsWithin A s t := by
  simp only [exec, execFwRegion] at h
  split at h
  · obtain rfl := Host.Outcome.next.inj h
    exact (programEntry s hA _).goto _
  · cases h

theorem fwReport (h : exec .fwReport s = .next t) : AppendsWithin A s t := by
  obtain rfl := Host.Outcome.next.inj h
  split
  · exact (printMsg s 5 0).goto .arm
  · exact (refl s).goto .arm

theorem idle (h : exec .idle s = .next t) : AppendsWithin A s t := by
  obtain rfl := Host.Outcome.next.inj h
  split
  · exact (refl s).goto .rcGate
  · exact (refl s).goto .idle

/-- `STEADY` with no acceptable interrupt (R242). -/
theorem steady (hno : s.irqAcceptable ≠ true) (h : exec .steady s = .next t) : AppendsWithin A s t := by
  obtain rfl := Host.Outcome.next.inj ((exec_steady_waiting hno).symm.trans h)
  exact (refl s).setRegs _

/-! ## Context IRQ -/

theorem eccSbe (haddr : A s.c.aSbeAddr) (hcnt : A s.c.aSbeCnt) (h : exec .eccSbe s = .next t) : AppendsWithin A s t := by
  obtain rfl := Host.Outcome.next.inj h
  have hc := (keeps_sbeAddress s).c_eq
  split
  · have haddress : AppendsWithin A s s.sbeAddress := ((busRead s haddr).setRegs _).trans (printMsg _ 6 _)
    have hcount : AppendsWithin A s.sbeAddress s.sbeAddress.sbeCount :=
      ((busRead _ (hc ▸ hcnt)).setRegs _).trans (setEnv _ _)
    exact (haddress.trans hcount).goto .eccDbe
  · exact (refl s).goto .eccDbe

theorem eccDbe (ha : A s.c.aDbeAddr) (h : exec .eccDbe s = .next t) : AppendsWithin A s t := by
  obtain rfl := Host.Outcome.next.inj h
  split
  · exact (((printMsg s 7 0).trans (busRead _ ha)).setRegs _).goto .eccClear
  · exact (refl s).goto .eccClear

theorem eccExit (ha : A s.c.aErrinten) (h : exec .eccExit s = .next t) : AppendsWithin A s t := by
  obtain rfl := Host.Outcome.next.inj h
  split
  · exact (rmw s ha fun v => v &&& ~~~s.c.eccIntenMask).trans (haltWith _ .eccDbe)
  · exact irqReturn s

end AppendsWithin

/-! ## The registers of a context (R274) -/

section
variable {c : CfgData} {a : Addr}

theorem handshakeAddr_mem_main (h : a ∈ c.handshakeAddrs) : a ∈ contextAddrs c .main := by
  simp only [CfgData.handshakeAddrs, contextAddrs, List.mem_append, List.mem_cons, List.not_mem_nil, or_false] at h ⊢
  tauto

theorem rawAddr_mem_main (c : CfgData) (f : RawField) : (rawGet c.raw f).addr ∈ contextAddrs c .main := by
  have horder : c.raw.toList = rawFieldOrder.map (rawGet c.raw) := rfl
  have haddr : (rawGet c.raw f).addr ∈ c.raw.toList.map FieldLoc.addr :=
    List.mem_map_of_mem (horder ▸ List.mem_map_of_mem (mem_rawFieldOrder f))
  simp only [contextAddrs, List.mem_append]
  tauto

theorem outAddr_mem_main {f : FieldLoc} (h : f ∈ c.out.toList) : f.addr ∈ contextAddrs c .main := by
  have haddr : f.addr ∈ c.out.toList.map FieldLoc.addr := List.mem_map_of_mem h
  simp only [contextAddrs, List.mem_append]
  tauto

theorem firewallAddr_mem_main (h : a ∈ firewallAddrs c) : a ∈ contextAddrs c .main := by
  simp only [firewallAddrs, contextAddrs, List.mem_append] at h ⊢
  tauto

end

/-! ## All operations -/

section
variable {s t : State} {i : Instr}

/-- An operation of context MAIN that does not accept the interrupt. -/
theorem appendsWithin_main (hi : i.opClass = .sequencerState) (hctx : contextOf i = .main)
    (hno : i = .steady → s.irqAcceptable ≠ true) (h : exec i s = .next t) :
    AppendsWithin (· ∈ contextAddrs s.c .main) s t := by
  have hc2s : s.c.aC2s ∈ contextAddrs s.c .main := handshakeAddr_mem_main (by simp [CfgData.handshakeAddrs])
  have hs2c : s.c.aS2c ∈ contextAddrs s.c .main := handshakeAddr_mem_main (by simp [CfgData.handshakeAddrs])
  have hgpout : s.c.aGpout ∈ contextAddrs s.c .main := handshakeAddr_mem_main (by simp [CfgData.handshakeAddrs])
  have hgpin : s.c.aGpin ∈ contextAddrs s.c .main := handshakeAddr_mem_main (by simp [CfgData.handshakeAddrs])
  cases i with
  | hs1 => obtain rfl := Host.Outcome.next.inj h; exact (AppendsWithin.delayMs s _).goto _
  | hs2 | hs4 | hs13 => obtain rfl := Host.Outcome.next.inj h; exact (AppendsWithin.clearBit s hgpout _).goto _
  | hs9 => obtain rfl := Host.Outcome.next.inj h; exact (AppendsWithin.clearBit s hc2s _).goto _
  | hs3 => obtain rfl := Host.Outcome.next.inj h; exact (AppendsWithin.busWrite s hc2s _).goto _
  | hs5 | hs11 => obtain rfl := Host.Outcome.next.inj h; exact (AppendsWithin.setBit s hgpout _).goto _
  | hs7 => obtain rfl := Host.Outcome.next.inj h; exact (AppendsWithin.setBit s hc2s _).goto _
  | hs6 | hs12 => obtain rfl := Host.Outcome.next.inj h; exact .hsPoll s hgpin _ _ _ _ _
  | hs8 | hs10 => obtain rfl := Host.Outcome.next.inj h; exact .hsPoll s hs2c _ _ _ _ _
  | hs14 => exact .hs14 hgpin hc2s h
  | rcGate =>
    obtain rfl := Host.Outcome.next.inj h
    exact (AppendsWithin.busRead s (by simp [contextAddrs])).trans (.gateOn _ _)
  | rcAttempt => exact .rcAttempt h
  | rcHsfail => obtain rfl := Host.Outcome.next.inj h; exact ((AppendsWithin.printMsg s 0 _).setRegs _).goto _
  | rcStatpoll =>
    obtain rfl := Host.Outcome.next.inj h
    exact ((AppendsWithin.delayMs s _).trans (.busRead _ (by simp [contextAddrs]))).trans (.statpollOn _ _)
  | rcRetry => obtain rfl := Host.Outcome.next.inj h; exact ((AppendsWithin.printMsg s 1 0).setRegs _).goto _
  | rcFinish => exact .rcFinish h
  | bootReport => exact .bootReport h
  | tcLoad =>
    obtain rfl := Host.Outcome.next.inj h
    exact (AppendsWithin.loadRaws (.refl s) (rawAddr_mem_main s.c) rawFieldOrder).goto _
  | tcGeom =>
    obtain rfl := Host.Outcome.next.inj h
    exact (AppendsWithin.applyGeom s (outAddr_mem_main (by simp [OutTable.toList])) _).goto _
  | tcRd2miss | tcWr2miss =>
    obtain rfl := Host.Outcome.next.inj h
    exact (AppendsWithin.setRegs_wrField s _ (outAddr_mem_main (by simp [OutTable.toList])) _).goto _
  | tcAct2act | tcBusrd2rd | tcBusrd2wr | tcBuswr2rd | tcBwratio | tcBwratioext | tcFaw | tcFawbank =>
    obtain rfl := Host.Outcome.next.inj h
    exact (AppendsWithin.wrField s (outAddr_mem_main (by simp [OutTable.toList])) _).goto _
  | tcSize => obtain rfl := Host.Outcome.next.inj h; exact ((AppendsWithin.refl s).setRegs _).goto _
  | fwDeny =>
    obtain rfl := Host.Outcome.next.inj h
    have hfirst := AppendsWithin.busWrite s (firewallAddr_mem_main (fwen0_mem_firewallAddrs s.c)) 0
    exact (hfirst.trans (.busWrite _ (firewallAddr_mem_main (fwen1_mem_firewallAddrs s.c)) 0)).goto _
  | fwCheck => exact .fwCheck h
  | fwRegion e =>
    have hentry : ∀ E ∈ s.c.fwTable, E.aCfg ∈ contextAddrs s.c .main ∧ E.aEn ∈ contextAddrs s.c .main := fun E hE =>
      ⟨firewallAddr_mem_main (fwEntry_cfg_mem s.cfg hE), firewallAddr_mem_main (fwEntry_enable_mem s.cfg hE)⟩
    exact .fwRegion hentry h
  | fwReport => exact .fwReport h
  | idle => exact .idle h
  | arm => obtain rfl := Host.Outcome.next.inj h; exact ((AppendsWithin.refl s).setRegs _).goto _
  | steady => exact .steady (hno rfl) h
  | eccEntry | eccSbe | eccDbe | eccClear | eccExit | halt => cases hctx
  | _ => cases hi

/-- An operation of the handler. -/
theorem appendsWithin_irq (hctx : contextOf i = .irq) (h : exec i s = .next t) :
    AppendsWithin (· ∈ contextAddrs s.c .irq) s t := by
  cases i with
  | eccEntry =>
    obtain rfl := Host.Outcome.next.inj h
    exact ((AppendsWithin.busRead s (by simp [contextAddrs])).setRegs _).goto _
  | eccSbe => exact .eccSbe (by simp [contextAddrs]) (by simp [contextAddrs]) h
  | eccDbe => exact .eccDbe (by simp [contextAddrs]) h
  | eccClear =>
    obtain rfl := Host.Outcome.next.inj h
    exact ((AppendsWithin.pulse s (by simp [contextAddrs]) _).trans (.busWrite _ (by simp [contextAddrs]) _)).goto _
  | eccExit => exact .eccExit (by simp [contextAddrs]) h
  | _ => cases hctx

/-- The registers that R274 lets an operation access: those of its context for class S; a class U command takes its address from a
port (R84). -/
def MayAccess (c : CfgData) (i : Instr) (a : Addr) : Prop :=
  i.opClass = .sequencerState → a ∈ contextAddrs c (contextOf i)

/-- What an operation that completes appends to `TRACE`: `IrqEnter` where `STEADY` accepts the interrupt (R267), and otherwise events
within the registers it may access. -/
theorem exec_appends (h : exec i s = .next t) :
    ((i = .steady ∧ s.irqAcceptable = true) ∧ t.trace = s.trace ++ [.irqEnter]) ∨
    (¬(i = .steady ∧ s.irqAcceptable = true) ∧ AppendsWithin (MayAccess s.c i) s t) := by
  by_cases hacc : i = .steady ∧ s.irqAcceptable = true
  · obtain ⟨rfl, hirq⟩ := hacc
    obtain rfl := Host.Outcome.next.inj ((exec_steady_accepted hirq).symm.trans h)
    exact .inl ⟨⟨rfl, hirq⟩, by simp [State.trace]⟩
  refine .inr ⟨hacc, ?_⟩
  cases hi : i.opClass with
  | unitCommand => exact .of_unit (fun _ hs => absurd (hi.symm.trans hs) (by decide)) hi h
  | sequencerState =>
    have hright : MayAccess s.c i = (· ∈ contextAddrs s.c (contextOf i)) := by funext a; simp [MayAccess, hi]
    rw [hright]
    cases hctx : contextOf i with
    | main => exact appendsWithin_main hi hctx (fun hs hirq => hacc ⟨hs, hirq⟩) h
    | irq => exact appendsWithin_irq hctx h
    | halted =>
      cases i with
      | halt => obtain rfl := Host.Outcome.next.inj h; exact (AppendsWithin.refl s).goto .halt
      | _ => cases hctx

end

end Sys2Proof.Machine
end

section
/-! CERTIFICATES. The statements of `60_exceptions.md`: the acceptance of the interrupt, and the registers of a context. -/

namespace Sys2Proof.Machine

/-- Settles O51: `IrqEnter` is what an accepting `STEADY` appends, and no event within a set of registers (`exec_appends`). -/
theorem interruptIsAcceptedExactlyInSteady : Obligations.InterruptIsAcceptedExactlyInSteady := by
  intro i s t h
  rw [← State.irqAcceptable_iff]
  rcases exec_appends h with ⟨hacc, htrace⟩ | ⟨hno, es, htrace, hin⟩
  · exact ⟨_, htrace, iff_of_true (List.mem_singleton_self _) hacc⟩
  · exact ⟨es, htrace, iff_of_false (hin .irqEnter) hno⟩

/-- Settles O55: an accepting `STEADY` makes no transaction, and any other operation of class S makes its transactions within its
context (`exec_appends`). -/
theorem contextsKeepToTheirRegisters : Obligations.ContextsKeepToTheirRegisters := by
  intro i s t hi h
  rcases exec_appends h with ⟨-, htrace⟩ | ⟨-, es, htrace, hin⟩
  · exact ⟨_, htrace, by simp [busAddrs, Event.busAddr]⟩
  · exact ⟨es, htrace, fun a ha => busAddrs_within hin a ha hi⟩

end Sys2Proof.Machine
end

section
/-! SUPPORT. Waits and watchdog refreshes (`70_reset_and_hazards.md` R299, R309): between two states of one operation the history
grew by as many refreshes as waits, and the command port of the access unit kept what it held. -/

namespace Sys2Proof.Machine

/-! ## Counting events -/

theorem waitCount_append (es fs : List Event) : waitCount (es ++ fs) = waitCount es + waitCount fs := List.countP_append

theorem kickCount_append (es fs : List Event) : kickCount (es ++ fs) = kickCount es + kickCount fs := List.countP_append

/-- Each iteration of a poll waits once and refreshes once (R105). -/
theorem pollEvents_counts (a : Addr) (vs : List Word) :
    waitCount (pollEvents a vs) = vs.length ∧ kickCount (pollEvents a vs) = vs.length := by
  induction vs with
  | nil => exact ⟨rfl, rfl⟩
  | cons v vs ih =>
    have hcons : pollEvents a (v :: vs) = [.wait 100, .kick, .busRead a v] ++ pollEvents a vs := rfl
    obtain ⟨hwait, hkick⟩ := ih
    rw [hcons, waitCount_append, kickCount_append, hwait, hkick, List.length_cons, Nat.add_comm vs.length]
    exact ⟨rfl, rfl⟩

/-- Each millisecond of a delay is one wait and one refresh (R106). -/
theorem delayEvents_counts (ms : Nat) : waitCount (delayEvents ms) = ms ∧ kickCount (delayEvents ms) = ms := by
  induction ms with
  | zero => exact ⟨rfl, rfl⟩
  | succ n ih =>
    have hsucc : delayEvents (n + 1) = [.wait 1000, .kick] ++ delayEvents n := rfl
    obtain ⟨hwait, hkick⟩ := ih
    rw [hsucc, waitCount_append, kickCount_append, hwait, hkick, Nat.add_comm n]
    exact ⟨rfl, rfl⟩

/-! ## Paced passages -/

/-- From `s` to `t`, `rst` risen or not, the command port was kept and the history grew by events with `n` waits and `n`
refreshes. -/
structure Paced (n : Nat) (s t : State) : Prop where
  cmd    : t.unit.cmd = s.unit.cmd
  events : ∃ es, t.trace = s.trace ++ es ∧ waitCount es = n ∧ kickCount es = n

namespace Paced

variable {m n : Nat} {s t u : State}

theorem of_trace_eq (hcmd : t.unit.cmd = s.unit.cmd) (h : t.trace = s.trace) : Paced 0 s t :=
  ⟨hcmd, [], by rw [h, List.append_nil], rfl, rfl⟩

theorem refl (s : State) : Paced 0 s s := of_trace_eq rfl rfl

theorem trans (h : Paced m s t) (k : Paced n t u) : Paced (m + n) s u := by
  obtain ⟨hcmd, es, hes, hwait, hkick⟩ := h
  obtain ⟨kcmd, fs, hfs, kwait, kkick⟩ := k
  refine ⟨kcmd.trans hcmd, es ++ fs, by rw [hfs, hes, List.append_assoc], ?_, ?_⟩
  · rw [waitCount_append, hwait, kwait]
  · rw [kickCount_append, hkick, kkick]

/-- What follows a paced passage and neither waits nor refreshes. -/
theorem andThen (h : Paced n s t) (k : Paced 0 t u) : Paced n s u := h.trans k

/-- Writing the block's registers appends nothing. -/
theorem setRegs (h : Paced n s t) (r : Regs) : Paced n s { t with regs := r } := ⟨h.cmd, h.events⟩

theorem goto (h : Paced n s t) (j : Instr) : Paced n s (t.goto j) := ⟨h.cmd, h.events⟩

/-! ### Bus transactions, polls and delays -/

theorem busRead (s : State) (a : Addr) : Paced 0 s (s.busRead a).2 :=
  ⟨by rw [State.busRead_unit], _, s.busRead_trace a, rfl, rfl⟩

theorem busWrite (s : State) (a : Addr) (v : Word) : Paced 0 s (s.busWrite a v) := by
  have hcmd : (s.busWrite a v).unit.cmd = s.unit.cmd := by rw [State.busWrite_unit]
  rcases s.busWrite_cases a v with ⟨-, heq⟩ | ⟨-, -, -, htrace⟩
  · exact of_trace_eq hcmd (by rw [heq, State.trace_envPoint])
  · exact ⟨hcmd, _, htrace, rfl, rfl⟩

theorem rmw (s : State) (a : Addr) (f : Word → Word) : Paced 0 s ((s.busRead a).2.busWrite a (f (s.busRead a).1)) :=
  (busRead s a).andThen (busWrite _ a _)

theorem setBit (s : State) (a : Addr) (b : BitNo) : Paced 0 s (s.setBit a b) := rmw s a fun v => withBitSet v b

theorem clearBit (s : State) (a : Addr) (b : BitNo) : Paced 0 s (s.clearBit a b) := rmw s a fun v => withBitClear v b

theorem wrField (s : State) (f : FieldLoc) (v : Word) : Paced 0 s (s.wrField f v) := rmw s f.addr fun r => insertField f r v

theorem pulse (s : State) (a : Addr) (b : BitNo) : Paced 0 s (s.pulse a b) := (setBit s a b).andThen (clearBit _ a b)

theorem pollBit (s : State) (a : Addr) (b : BitNo) (expected : Bool) (us : Nat) :
    ∃ n, Paced n s (s.pollBit a b expected us).2 := by
  obtain ⟨-, -, hunit, -, -, -, -, vs, -, htrace, -⟩ := s.pollBit_spec a b expected us
  exact ⟨vs.length, by rw [hunit], _, htrace, pollEvents_counts a vs⟩

theorem delayMs (s : State) (ms : Nat) : Paced ms s (s.delayMs ms) := by
  obtain ⟨-, -, -, -, -, -, -, -, hunit, htrace⟩ := s.delayMs_spec ms
  exact ⟨by rw [hunit], _, htrace, delayEvents_counts ms⟩

/-! ### Services, error conditions and the interrupt -/

theorem printMsg (s : State) (m : Nat) (v : Word) : Paced 0 s (s.printMsg m v) :=
  ⟨by rw [State.printMsg_unit], [.print (messageBytes m v)], by simp [State.trace], rfl, rfl⟩

theorem setEnv (s : State) (v : Nat) : Paced 0 s (s.setEnv v) :=
  ⟨by rw [State.setEnv_unit], [.setEnv v], by simp [State.trace], rfl, rfl⟩

theorem haltWith (s : State) (k : HaltCause) : Paced 0 s (s.haltWith k) :=
  ⟨by rw [State.haltWith_unit], [.halt k], by simp [State.trace], rfl, rfl⟩

theorem irqEnter (s : State) : Paced 0 s s.irqEnter :=
  ⟨by rw [State.irqEnter_unit], [.irqEnter], by simp [State.trace], rfl, rfl⟩

theorem irqReturn (s : State) : Paced 0 s s.irqReturn :=
  ⟨by rw [State.irqReturn_unit], [.irqReturn], by simp [State.trace], rfl, rfl⟩

theorem raise (s : State) (k : Condition) : Paced 0 s (s.raise k) := by
  cases k with
  | calExhausted => exact ((printMsg s 2 0).setRegs _).goto .bootReport
  | _ => exact ((refl s).setRegs _).goto _

/-! ### Handshake and retry controller -/

/-- A handshake step that polls and may time out (R126, R260). -/
theorem hsPoll (s : State) (p : HsPoll) (a : Addr) (b : BitNo) (expected : Bool) (us : Nat) (j : Instr) :
    ∃ n, Paced n s (s.hsPoll p a b expected us j) := by
  obtain ⟨n, hpoll⟩ := pollBit s a b expected us
  refine ⟨n, ?_⟩
  unfold State.hsPoll
  split
  · exact hpoll.goto j
  · exact hpoll.andThen (raise _ _)

theorem hsSucceed (s : State) : Paced Config.hsFinalMs s s.hsSucceed := by
  have hwait := (setBit s s.c.aC2s s.c.doneBit).trans (delayMs _ Config.hsFinalMs)
  rw [Nat.zero_add] at hwait
  unfold State.hsSucceed
  generalize (s.setBit s.c.aC2s s.c.doneBit).delayMs Config.hsFinalMs = t at hwait ⊢
  exact (hwait.setRegs _).goto .rcStatpoll

theorem hs14 (h : exec .hs14 s = .next t) : ∃ n, Paced n s t := by
  obtain rfl := Host.Outcome.next.inj h
  obtain ⟨n, hpoll⟩ := pollBit s s.c.aGpin s.c.calrdyBit true Config.hsT14Us
  split
  · exact ⟨_, hpoll.trans (hsSucceed _)⟩
  · exact ⟨n, hpoll.andThen (raise _ _)⟩

theorem gateOn (s : State) (v : Word) : Paced 0 s (s.gateOn v) := by
  unfold State.gateOn
  split
  · exact ((refl s).setRegs _).goto .bootReport
  · exact ((refl s).setRegs _).goto .rcAttempt

theorem statpollOn (s : State) (v : Word) : Paced 0 s (s.statpollOn v) := by
  have hcount := (refl s).setRegs { s.regs with pj := s.regs.pj + 1 }
  unfold State.statpollOn
  dsimp only
  split
  · exact (hcount.setRegs _).goto .rcFinish
  · split
    · exact hcount.goto .rcRetry
    · exact hcount.goto .rcStatpoll

theorem rcStatpoll (h : exec .rcStatpoll s = .next t) : Paced Config.statusPollDelayMs s t := by
  obtain rfl := Host.Outcome.next.inj h
  exact ((delayMs s _).andThen (busRead _ _)).andThen (statpollOn _ _)

theorem rcAttempt (h : exec .rcAttempt s = .next t) : Paced 0 s t := by
  obtain rfl := Host.Outcome.next.inj h
  split
  · exact ((refl s).setRegs _).goto .hs1
  · exact (refl s).goto .rcFinish

theorem rcFinish (h : exec .rcFinish s = .next t) : Paced 0 s t := by
  obtain rfl := Host.Outcome.next.inj h
  split
  · exact ((refl s).setRegs _).goto .bootReport
  · exact raise s .calExhausted

theorem bootReport (h : exec .bootReport s = .next t) : Paced 0 s t := by
  obtain rfl := Host.Outcome.next.inj h
  split
  · exact (printMsg s 4 0).goto .tcLoad
  · exact (printMsg s 3 0).andThen (haltWith _ .calExhaust)

/-! ### Timing configurator and firewall -/

/-- The reads of `TC_LOAD` (R171). -/
theorem loadRaws (h : Paced 0 s t) (fs : List RawField) : Paced 0 s (fs.foldl State.loadRaw t) := by
  induction fs generalizing t with
  | nil => exact h
  | cons f fs ih => exact ih ((h.andThen (busRead t (rawGet t.c.raw f).addr)).setRegs _)

/-- A working register written, then a scheduler field (R172 to R174). -/
theorem setRegs_wrField (s : State) (r : Regs) (f : FieldLoc) (v : Word) :
    Paced 0 s (State.wrField { s with regs := r } f v) :=
  ((refl s).setRegs r).andThen (wrField _ f v)

theorem applyGeom (s : State) (idx : Word) : Paced 0 s (s.applyGeom idx) := by
  by_cases hidx : idx = 0
  · rw [hidx, State.applyGeom_zero]
    exact (refl s).setRegs _
  · rw [State.applyGeom_nonzero s hidx]
    exact setRegs_wrField s _ _ idx

theorem fwCheck (h : exec .fwCheck s = .next t) : Paced 0 s t := by
  obtain ⟨r, rfl⟩ := fwCheck_setRegs h
  exact (refl s).setRegs r

/-- Programming a firewall entry (R204). -/
theorem programEntry (s : State) (n : Nat) : Paced 0 s (s.programEntry n) := by
  unfold State.programEntry
  split
  · exact refl s
  · unfold State.programRegion
    split
    · exact refl s
    · exact (busWrite s _ _).andThen (setBit _ _ _)

theorem fwRegion {e : BitVec 8} (h : exec (.fwRegion e) s = .next t) : Paced 0 s t := by
  simp only [exec, execFwRegion] at h
  split at h
  · obtain rfl := Host.Outcome.next.inj h
    exact (programEntry s _).goto _
  · cases h

theorem fwReport (h : exec .fwReport s = .next t) : Paced 0 s t := by
  obtain rfl := Host.Outcome.next.inj h
  split
  · exact (printMsg s 5 0).goto .arm
  · exact (refl s).goto .arm

/-! ### System operations and the handler -/

theorem idle (h : exec .idle s = .next t) : Paced 0 s t := by
  obtain rfl := Host.Outcome.next.inj h
  split
  · exact (refl s).goto .rcGate
  · exact (refl s).goto .idle

theorem steady (h : exec .steady s = .next t) : Paced 0 s t := by
  obtain rfl := Host.Outcome.next.inj h
  split
  · exact irqEnter s
  · exact (refl s).goto .steady

theorem eccSbe (h : exec .eccSbe s = .next t) : Paced 0 s t := by
  obtain rfl := Host.Outcome.next.inj h
  split
  · have haddress : Paced 0 s s.sbeAddress := ((busRead s _).setRegs _).andThen (printMsg _ 6 _)
    have hcount : Paced 0 s.sbeAddress s.sbeAddress.sbeCount := ((busRead _ _).setRegs _).andThen (setEnv _ _)
    exact (haddress.andThen hcount).goto .eccDbe
  · exact (refl s).goto .eccDbe

theorem eccDbe (h : exec .eccDbe s = .next t) : Paced 0 s t := by
  obtain rfl := Host.Outcome.next.inj h
  split
  · exact (((printMsg s 7 0).andThen (busRead _ _)).setRegs _).goto .eccClear
  · exact (refl s).goto .eccClear

theorem eccExit (h : exec .eccExit s = .next t) : Paced 0 s t := by
  obtain rfl := Host.Outcome.next.inj h
  split
  · exact (rmw s _ fun v => v &&& ~~~s.c.eccIntenMask).andThen (haltWith _ .eccDbe)
  · exact irqReturn s

end Paced

/-! ## All operations of class S -/

/-- The operations that wait: the delays and the polls (R309). -/
def waitingOps : List Instr := [.hs1, .hs6, .hs8, .hs10, .hs12, .hs14, .rcStatpoll]

section
variable {i : Instr} {s t : State}

/-- The operations that wait a number of times that depends on what they read (R126, R128, R130, R132, R134). -/
theorem exec_paced_of_poll (hi : i ∈ [Instr.hs6, .hs8, .hs10, .hs12, .hs14]) (h : exec i s = .next t) :
    ∃ n, Paced n s t := by
  cases i with
  | hs6 | hs8 | hs10 | hs12 => obtain rfl := Host.Outcome.next.inj h; exact Paced.hsPoll s _ _ _ _ _ _
  | hs14 => exact Paced.hs14 h
  | _ => simp at hi

/-- An operation of class S that is no delay and no poll neither waits nor refreshes. -/
theorem exec_paced_of_not_waiting (hi : i.opClass = .sequencerState) (hw : i ∉ waitingOps) (h : exec i s = .next t) :
    Paced 0 s t := by
  cases i with
  | hs1 | hs6 | hs8 | hs10 | hs12 | hs14 | rcStatpoll => exact absurd (by decide) hw
  | hs2 | hs4 | hs9 | hs13 => obtain rfl := Host.Outcome.next.inj h; exact (Paced.clearBit s _ _).goto _
  | hs3 => obtain rfl := Host.Outcome.next.inj h; exact (Paced.busWrite s _ _).goto _
  | hs5 | hs7 | hs11 => obtain rfl := Host.Outcome.next.inj h; exact (Paced.setBit s _ _).goto _
  | rcGate => obtain rfl := Host.Outcome.next.inj h; exact (Paced.busRead s _).andThen (.gateOn _ _)
  | rcAttempt => exact .rcAttempt h
  | rcHsfail => obtain rfl := Host.Outcome.next.inj h; exact ((Paced.printMsg s 0 _).setRegs _).goto _
  | rcRetry => obtain rfl := Host.Outcome.next.inj h; exact ((Paced.printMsg s 1 0).setRegs _).goto _
  | rcFinish => exact .rcFinish h
  | bootReport => exact .bootReport h
  | tcLoad => obtain rfl := Host.Outcome.next.inj h; exact (Paced.loadRaws (.refl s) rawFieldOrder).goto _
  | tcGeom => obtain rfl := Host.Outcome.next.inj h; exact (Paced.applyGeom s _).goto _
  | tcRd2miss | tcWr2miss => obtain rfl := Host.Outcome.next.inj h; exact (Paced.setRegs_wrField s _ _ _).goto _
  | tcAct2act | tcBusrd2rd | tcBusrd2wr | tcBuswr2rd | tcBwratio | tcBwratioext | tcFaw | tcFawbank =>
    obtain rfl := Host.Outcome.next.inj h
    exact (Paced.wrField s _ _).goto _
  | tcSize | arm => obtain rfl := Host.Outcome.next.inj h; exact ((Paced.refl s).setRegs _).goto _
  | fwDeny => obtain rfl := Host.Outcome.next.inj h; exact ((Paced.busWrite s _ _).andThen (.busWrite _ _ _)).goto _
  | fwCheck => exact .fwCheck h
  | fwRegion e => exact .fwRegion h
  | fwReport => exact .fwReport h
  | eccEntry => obtain rfl := Host.Outcome.next.inj h; exact ((Paced.busRead s _).setRegs _).goto _
  | eccSbe => exact .eccSbe h
  | eccDbe => exact .eccDbe h
  | eccClear => obtain rfl := Host.Outcome.next.inj h; exact ((Paced.pulse s _ _).andThen (.busWrite _ _ _)).goto _
  | eccExit => exact .eccExit h
  | idle => exact .idle h
  | steady => exact .steady h
  | halt => obtain rfl := Host.Outcome.next.inj h; exact (Paced.refl s).goto .halt
  | _ => cases hi

/-- The two operations that wait 500 times whatever they read (R121, R154). -/
theorem exec_paced_of_delay (hi : i = .hs1 ∨ i = .rcStatpoll) (h : exec i s = .next t) : Paced 500 s t := by
  rcases hi with rfl | rfl
  · obtain rfl := Host.Outcome.next.inj h
    exact (Paced.delayMs s _).goto .hs2
  · exact .rcStatpoll h

/-- Every operation of class S that completes is paced. -/
theorem exec_paced (hi : i.opClass = .sequencerState) (h : exec i s = .next t) :
    ∃ n, Paced n s t ∧ (n ≠ 0 → i ∈ waitingOps) ∧ (i = .hs1 ∨ i = .rcStatpoll → n = 500) := by
  by_cases hw : i ∈ waitingOps
  · by_cases hdelay : i = .hs1 ∨ i = .rcStatpoll
    · exact ⟨500, exec_paced_of_delay hdelay h, fun _ => hw, fun _ => rfl⟩
    · have hpoll : i ∈ [Instr.hs6, .hs8, .hs10, .hs12, .hs14] := by
        simp only [waitingOps, List.mem_cons, List.not_mem_nil, or_false] at hw ⊢
        tauto
      obtain ⟨n, hn⟩ := exec_paced_of_poll hpoll h
      exact ⟨n, hn, fun _ => hw, fun hd => absurd hd hdelay⟩
  · have hdelay : ¬(i = .hs1 ∨ i = .rcStatpoll) := by
      rintro (rfl | rfl) <;> exact hw (by decide)
    exact ⟨0, exec_paced_of_not_waiting hi hw h, fun hn => absurd rfl hn, fun hd => absurd hd hdelay⟩

end

end Sys2Proof.Machine
end

section
/-! SUPPORT. The way of the sequencer to `IDLE`, `STEADY` or `HALT` (`70_reset_and_hazards.md` R304, R310): every operation of class S
completes, and a measure on the working registers, the length of the longest way to rest, falls with every step. -/

namespace Sys2Proof.Machine

/-! ## Operations complete -/

/-- Every operation of class S that a word encodes has a next state. -/
theorem exec_completes {i : Instr} (hi : i.opClass = .sequencerState) (hw : i.wellFormed = true) (s : State) :
    ∃ t, exec i s = .next t := by
  cases i with
  | fwRegion e =>
    have he : e.toNat < 24 := of_decide_eq_true hw
    obtain ⟨E, hE⟩ := exists_fwEntry s.cfg he
    exact ⟨_, exec_fwRegion he hE⟩
  | rdreg | wrreg | setbit | clrbit | pollbit | delay | print | setenv | wdkick => cases hi
  | _ => exact ⟨_, rfl⟩

/-! ## The measure -/

/-- The operations from which the sequencer may not go on (R310). -/
def restingOps : List Instr := [.idle, .steady, .halt]

/-- The number of steps on the longest way from operation `i`, with the working registers `r`, to a resting operation. An attempt
takes at most 26 steps, with its head, 14 handshake steps, 10 status polls and its failure (R152 to R155), and there are 3. -/
def Regs.stepsToRest (r : Regs) : Instr → Nat
  | .rcGate => 123
  | .rcAttempt => 44 + 26 * (3 - r.att.toNat)
  | .hs1 => 69 + 26 * (2 - r.att.toNat)
  | .hs2 => 68 + 26 * (2 - r.att.toNat)
  | .hs3 => 67 + 26 * (2 - r.att.toNat)
  | .hs4 => 66 + 26 * (2 - r.att.toNat)
  | .hs5 => 65 + 26 * (2 - r.att.toNat)
  | .hs6 => 64 + 26 * (2 - r.att.toNat)
  | .hs7 => 63 + 26 * (2 - r.att.toNat)
  | .hs8 => 62 + 26 * (2 - r.att.toNat)
  | .hs9 => 61 + 26 * (2 - r.att.toNat)
  | .hs10 => 60 + 26 * (2 - r.att.toNat)
  | .hs11 => 59 + 26 * (2 - r.att.toNat)
  | .hs12 => 58 + 26 * (2 - r.att.toNat)
  | .hs13 => 57 + 26 * (2 - r.att.toNat)
  | .hs14 => 56 + 26 * (2 - r.att.toNat)
  | .rcStatpoll => 45 + (10 - r.pj.toNat) + 26 * (2 - r.att.toNat)
  | .rcRetry | .rcHsfail => 45 + 26 * (2 - r.att.toNat)
  | .rcFinish => 43
  | .bootReport => 42
  | .tcLoad => 41
  | .tcGeom => 40
  | .tcRd2miss => 39
  | .tcWr2miss => 38
  | .tcAct2act => 37
  | .tcBusrd2rd => 36
  | .tcBusrd2wr => 35
  | .tcBuswr2rd => 34
  | .tcBwratio => 33
  | .tcBwratioext => 32
  | .tcFaw => 31
  | .tcFawbank => 30
  | .tcSize => 29
  | .fwDeny => 28
  | .fwCheck => 27
  | .fwRegion e => 3 + (23 - e.toNat)
  | .fwReport => 2
  | .arm => 1
  | .eccEntry => 5
  | .eccSbe => 4
  | .eccDbe => 3
  | .eccClear => 2
  | .eccExit => 1
  | _ => 0

theorem Regs.stepsToRest_le (r : Regs) (i : Instr) : r.stepsToRest i ≤ 123 := by
  cases i <;> simp only [Regs.stepsToRest] <;> omega

theorem Regs.stepsToRest_pos (r : Regs) {i : Instr} (hi : i.opClass = .sequencerState) (hrest : i ∉ restingOps) :
    0 < r.stepsToRest i := by
  cases i with
  | idle | steady | halt => exact absurd (by decide) hrest
  | rdreg | wrreg | setbit | clrbit | pollbit | delay | print | setenv | wdkick => cases hi
  | _ => simp only [Regs.stepsToRest]; omega

/-! ## The measure falls -/

/-- The operations that lead back into the retry loop: the way to rest gets shorter there by counting only. -/
def countingOps : List Instr := [.rcHsfail, .rcRetry, .rcStatpoll]

/-- A failed attempt is counted in `ATT` and a status poll in `PJ` (R153 to R155). -/
def LoopCounted (i : Instr) (r r' : Regs) : Prop :=
  (i = .rcHsfail ∨ i = .rcRetry → r'.att = r.att + 1) ∧ (i = .rcStatpoll → r'.pj = r.pj + 1)

theorem State.statpollOn_pj (s : State) (v : Word) : (s.statpollOn v).regs.pj = s.regs.pj + 1 := by
  unfold State.statpollOn
  dsimp only
  split
  · rfl
  · split <;> rfl

theorem exec_loopCounted {i : Instr} {s t : State} (h : exec i s = .next t) : LoopCounted i s.regs t.regs := by
  refine ⟨?_, ?_⟩
  · rintro (rfl | rfl) <;> obtain rfl := Host.Outcome.next.inj h <;> simp
  · rintro rfl
    obtain rfl := Host.Outcome.next.inj h
    rw [State.statpollOn_pj, State.busRead_regs, (Transacted.delayMs s _).regs]

/-- No counting operation leaves its counter alone. -/
theorem LoopCounted.not_mem {i : Instr} {r r' : Regs} (h : LoopCounted i r r') (hatt : r'.att = r.att) (hpj : r'.pj = r.pj) :
    i ∉ countingOps := by
  obtain ⟨hattempt, hpoll⟩ := h
  rw [hatt] at hattempt
  rw [hpj] at hpoll
  intro hi
  simp only [countingOps, List.mem_cons, List.not_mem_nil, or_false] at hi
  rcases hi with hi | hi | hi
  · simpa using hattempt (.inl hi)
  · simpa using hattempt (.inr hi)
  · simpa using hpoll hi

/-- Where no register is written the successor is nearer to rest, but for the ways back into the retry loop. -/
theorem Regs.stepsToRest_successor (r : Regs) {i j : Instr} (hm : SamePhase i j) (hrest : i ∉ restingOps)
    (hloop : i ∉ countingOps) : r.stepsToRest j < r.stepsToRest i := by
  obtain ⟨hsucc, -, hretry, -⟩ := hm
  cases i with
  | idle | steady | halt => exact absurd (by decide) hrest
  | rcHsfail | rcRetry | rcStatpoll => exact absurd (by decide) hloop
  | rcAttempt =>
    simp only [successors, List.mem_cons, List.not_mem_nil, or_false] at hsucc
    rcases hsucc with rfl | rfl
    · exact absurd hretry (by decide)
    · exact absurd hretry (by decide)
  | rcGate | hs6 | hs8 | hs10 | hs12 | hs14 | bootReport | eccExit =>
    simp only [successors, List.mem_cons, List.not_mem_nil, or_false] at hsucc
    rcases hsucc with rfl | rfl <;> simp only [Regs.stepsToRest] <;> omega
  | fwCheck =>
    simp only [successors, List.mem_cons, List.not_mem_nil, or_false] at hsucc
    rcases hsucc with rfl | rfl <;> simp [Regs.stepsToRest]
  | fwRegion e =>
    by_cases he : e.toNat < 23
    · simp only [successors, if_pos he, List.mem_singleton] at hsucc
      have hnext : (e + 1).toNat = e.toNat + 1 := by bv_omega
      simp only [hsucc, Regs.stepsToRest, hnext]
      omega
    · simp only [successors, if_neg he, List.mem_singleton] at hsucc
      simp only [hsucc, Regs.stepsToRest]
      omega
  | rdreg | wrreg | setbit | clrbit | pollbit | delay | print | setenv | wdkick => cases hsucc
  | _ =>
    obtain rfl := List.mem_singleton.mp hsucc
    simp only [Regs.stepsToRest]
    omega

/-- Counting an attempt does not wrap: `ATT` is below 3 where one has started (R153). -/
theorem att_succ {a : BitVec 2} (h : a.toNat < 3) : (a + 1).toNat = a.toNat + 1 := by bv_omega

/-- What an operation makes of the registers brings the sequencer nearer to rest. -/
theorem RegsStep.approaches_rest {c : CfgData} {i : Instr} {r r' : Regs} (k : RegsStep c r i r') (h : RegsInv c i r)
    (hi : i.opClass = .sequencerState) (hrest : i ∉ restingOps) (hcount : LoopCounted i r r') :
    ∃ j, j.wellFormed = true ∧ r'.seqOp = encode j ∧ r'.stepsToRest j < r.stepsToRest i := by
  cases k with
  | unit hu => exact absurd (hu.symm.trans hi) (by decide)
  | move hm =>
    rename_i j
    have hw : j.wellFormed = true := hm.2.1.2
    exact ⟨j, hw, rfl, r.stepsToRest_successor hm hrest (hcount.not_mem rfl rfl)⟩
  | gateStarts => exact ⟨_, rfl, rfl, by simp [Regs.stepsToRest]⟩
  | attempt hatt => exact ⟨.hs1, rfl, rfl, by simp only [Regs.stepsToRest]; omega⟩
  | attemptsSpent hatt => exact ⟨.rcFinish, rfl, rfl, by simp only [Regs.stepsToRest]; omega⟩
  | attemptFailed hij =>
    have hatt := h.attRange (by rcases hij with rfl | rfl <;> rfl)
    refine ⟨.rcAttempt, rfl, rfl, ?_⟩
    rcases hij with rfl | rfl <;> simp only [Regs.stepsToRest, att_succ hatt] <;> omega
  | statusSeen => exact ⟨.rcFinish, rfl, rfl, by simp only [Regs.stepsToRest]; omega⟩
  | statusSpent hlast =>
    have hpj := h.pjRange.2 rfl
    exact ⟨.rcRetry, rfl, rfl, by simp only [Regs.stepsToRest]; omega⟩
  | statusAgain hmore =>
    have hpj := h.pjRange.2 rfl
    refine ⟨.rcStatpoll, rfl, rfl, ?_⟩
    simp only [Regs.stepsToRest, pj_succ hpj]
    omega
  | pollTimeout p hp =>
    refine ⟨.rcHsfail, rfl, rfl, ?_⟩
    simp only [List.mem_cons, List.not_mem_nil, or_false] at hp
    rcases hp with rfl | rfl | rfl | rfl | rfl <;> simp only [Regs.stepsToRest] <;> omega
  | handshakeDone => exact ⟨.rcStatpoll, rfl, rfl, by simp only [Regs.stepsToRest]; omega⟩
  | irqEnter => exact absurd (by decide) hrest
  | _ => exact ⟨_, by rfl, rfl, by simp [Regs.stepsToRest]⟩

/-! ## The measure of a state -/

/-- The block rests: `SEQ.op` is `IDLE`, `STEADY` or `HALT` (R310). -/
def State.AtRest (s : State) : Prop := s.op? = some .idle ∨ s.op? = some .steady ∨ s.op? = some .halt

/-- `Regs.stepsToRest` at the operation in `SEQ.op`. -/
def State.stepsToRest (s : State) : Nat :=
  match s.op? with
  | some i => s.regs.stepsToRest i
  | none => 0

section
variable {s t : State} {i : Instr}

theorem State.stepsToRest_of_decode (h : decode s.regs.seqOp = .ok i) : s.stepsToRest = s.regs.stepsToRest i := by
  rw [State.stepsToRest, State.op?_of_decode h]

theorem State.stepsToRest_le (s : State) : s.stepsToRest ≤ 123 := by
  unfold State.stepsToRest
  split
  · exact s.regs.stepsToRest_le _
  · exact Nat.zero_le 123

theorem State.atRest_of_mem (h : decode s.regs.seqOp = .ok i) (hi : i ∈ restingOps) : s.AtRest := by
  simp only [restingOps, List.mem_cons, List.not_mem_nil, or_false] at hi
  rw [State.AtRest, State.op?_of_decode h]
  exact hi.imp (congrArg some) (Or.imp (congrArg some) (congrArg some))

/-- A block in its reset state is in `IDLE` (R291). -/
theorem State.stepsToRest_of_reset (h : s.regs = Regs.reset) : s.stepsToRest = 0 := by
  have hdec : decode s.regs.seqOp = .ok .idle := by rw [h]; rfl
  exact State.stepsToRest_of_decode hdec

/-- An operation of a block that does not rest brings it nearer to rest. -/
theorem exec_approaches_rest (h : Inv s) (hdec : decode s.regs.seqOp = .ok i) (hi : i.opClass = .sequencerState)
    (hrest : i ∉ restingOps) (hu : exec i s = .next t) : t.stepsToRest < s.stepsToRest := by
  obtain ⟨k, hk, -, hregs⟩ := h.sequencer
  obtain rfl : i = k := by simpa [hdec] using hk
  obtain ⟨j, hw, hj, hlt⟩ := (opStep_of_exec hu).regs.approaches_rest hregs hi hrest (exec_loopCounted hu)
  have hnext : decode t.regs.seqOp = .ok j := by rw [hj]; exact decode_encode_of_wellFormed hw
  rwa [State.stepsToRest_of_decode hdec, State.stepsToRest_of_decode hnext]

/-- The end of a step leaves the way to rest as the operation left it, or resets the block. -/
theorem State.stepsToRest_endStep_le (s : State) : s.endStep.stepsToRest ≤ s.stepsToRest := by
  rcases s.endStep_cases with ⟨-, heq⟩ | ⟨-, heq⟩
  · rw [heq, State.stepsToRest_of_reset s.envPoint.blockReset_regs]
    exact Nat.zero_le _
  · rw [heq, State.stepsToRest, State.op?, State.envPoint_regs]
    exact Nat.le_refl _

/-- The end of a step puts no command on the port. -/
theorem State.endStep_cmd (h : s.unit.cmd = none) : s.endStep.unit.cmd = none := by
  rcases s.endStep_cases with ⟨-, heq⟩ | ⟨-, heq⟩
  · rw [heq]
    rfl
  · rwa [heq, State.envPoint_unit]

/-- A block with no command pending that meets the invariant and does not rest makes a step, and the step brings it nearer to rest,
in reset or not. -/
theorem step_approaches_rest (h : Inv s) (hcmd : s.unit.cmd = none) (hrest : ¬ s.AtRest) :
    ∃ t, step s = .next t ∧ t.unit.cmd = none ∧ t.stepsToRest < s.stepsToRest := by
  obtain ⟨i, hdec, hi, hregs⟩ := h.sequencer
  have hop : i ∉ restingOps := mt (State.atRest_of_mem hdec) hrest
  cases hrst : s.inp.rst with
  | true =>
    refine ⟨_, (stepRunsTheDecodedOperation s).1 hrst, by rw [State.holdReset_unit]; rfl, ?_⟩
    rw [State.stepsToRest_of_reset s.holdReset_regs, State.stepsToRest_of_decode hdec]
    exact s.regs.stepsToRest_pos hi hop
  | false =>
    have hrun : s.regs.halted = false := by
      refine Bool.eq_false_iff.mpr fun hh => hop ?_
      rw [hregs.haltedOp.1.mp hh]
      decide
    obtain ⟨u, hu⟩ := exec_completes hi (encodeOfDecode _ _ hdec).1 s
    obtain ⟨n, hpaced, -⟩ := exec_paced hi hu
    refine ⟨_, (step_of_fetch hrst (fetch_seqOp hdec hi hrun hcmd)).1 u hu, State.endStep_cmd (hpaced.cmd.trans hcmd), ?_⟩
    exact Nat.lt_of_le_of_lt u.stepsToRest_endStep_le (exec_approaches_rest h hdec hi hop hu)

end

/-! ## Runs to rest -/

/-- A run of at most `n` steps, none of which stops, brings the block to rest. -/
def State.RestsWithin (n : Nat) (s : State) : Prop := ∃ m ≤ n, ∃ t : State, Sys2Proof.core.run m s = .next t ∧ t.AtRest

theorem run_succ {s t : State} (h : step s = .next t) (n : Nat) : Sys2Proof.core.run (n + 1) s = Sys2Proof.core.run n t := by
  have hcore : Sys2Proof.core.step s = .next t := h
  simp only [Host.Core.run, hcore]

namespace State.RestsWithin

variable {n : Nat} {s t : State}

theorem of_atRest (h : s.AtRest) : s.RestsWithin n := ⟨0, Nat.zero_le n, s, rfl, h⟩

theorem of_step (h : step s = .next t) (k : t.RestsWithin n) : s.RestsWithin (n + 1) := by
  obtain ⟨m, hm, u, hrun, hu⟩ := k
  exact ⟨m + 1, Nat.succ_le_succ hm, u, (run_succ h m).trans hrun, hu⟩

/-- The measure bounds the steps to rest. -/
theorem of_stepsToRest_le (h : Inv s) (hcmd : s.unit.cmd = none) (hn : s.stepsToRest ≤ n) : s.RestsWithin n := by
  induction n generalizing s with
  | zero =>
    by_contra hno
    obtain ⟨t, -, -, hlt⟩ := step_approaches_rest h hcmd (mt of_atRest hno)
    omega
  | succ n ih =>
    by_cases hrest : s.AtRest
    · exact of_atRest hrest
    · obtain ⟨t, hstep, htcmd, hlt⟩ := step_approaches_rest h hcmd hrest
      exact of_step hstep (ih (stepKeepsTheInvariant s t h hstep) htcmd (by omega))

end State.RestsWithin

end Sys2Proof.Machine
end

section
/-! CERTIFICATES. The statements of `70_reset_and_hazards.md`, the reset state, the way to rest and the watchdog, and the words of
table T11 (`30_encoding.md`). -/

namespace Sys2Proof.Machine

/-! ## Reset -/

@[simp] theorem State.holdReset_out (s : State) : s.holdReset.out = Outputs.reset := s.blockReset.envPoint_out

/-- `State.reset`, and every state that a step made with `rst` high ends in, holds the block in its reset state (R290, R291). -/
theorem block_of_reset {t : State} (h : t = State.reset ∨ ∃ s, s.inp.rst = true ∧ step s = .next t) :
    t.regs = Regs.reset ∧ t.unit = AccessUnit.reset ∧ t.out = Outputs.reset := by
  rcases h with rfl | ⟨s, hrst, hstep⟩
  · exact ⟨rfl, rfl, rfl⟩
  · obtain rfl : s.holdReset = t := Host.Outcome.next.inj (((stepRunsTheDecodedOperation s).1 hrst).symm.trans hstep)
    exact ⟨s.holdReset_regs, s.holdReset_unit, s.holdReset_out⟩

/-- Settles O8: the values are those of the block's reset state (`block_of_reset`). -/
theorem resetStateIsTheStated : Obligations.ResetStateIsTheStated := by
  intro t h
  obtain ⟨hregs, hunit, hout⟩ := block_of_reset h
  rw [State.trace_eq, State.haltOut, hregs, hunit, hout]
  exact ⟨rfl, rfl, rfl, rfl, rfl, rfl, rfl, fun f => by cases f <;> rfl, by decide⟩

/-- Settles O11: the registers hold their reset values over an empty, hence canonical, list of bytes. -/
theorem resetMeetsTheInvariant : Obligations.ResetMeetsTheInvariant :=
  inv_of_reset resetLeavesTheRegisterSpaceUnspecified.1 rfl rfl

/-! ## Progress and waits -/

/-- Settles O14: the measure `State.stepsToRest` is at most 123, and it bounds the steps to rest. -/
theorem blockReachesARestingOperation : Obligations.BlockReachesARestingOperation := fun s h hcmd =>
  State.RestsWithin.of_stepsToRest_le h hcmd (s.stepsToRest_le.trans (by decide))

/-- Settles O58: every operation of class S is paced (`exec_paced`). -/
theorem everyWaitRefreshesTheWatchdog : Obligations.EveryWaitRefreshesTheWatchdog := by
  intro i s t hi h
  obtain ⟨n, ⟨-, es, htrace, hwait, hkick⟩, hops, hdelay⟩ := exec_paced hi h
  exact ⟨es, htrace, hwait.trans hkick.symm, hwait ▸ hops, hwait ▸ hdelay⟩

/-! ## Words of table T11 -/

/-- Settles O5: seven of the words are those of well-formed operations, which `decodeOfEncode` gives back; the reserved ones are
evaluated. -/
theorem tableWordsDecode : Obligations.TableWordsDecode :=
  ⟨decodeOfEncode .pollbit rfl, decodeOfEncode .hs14 rfl, decodeOfEncode .bootReport rfl, decodeOfEncode .tcSize rfl,
    decodeOfEncode (.fwRegion 23) rfl, decodeOfEncode .eccExit rfl, decodeOfEncode (.print 7) rfl, rfl, rfl, rfl⟩

end Sys2Proof.Machine
end
